-- ==== Sys2Proof/Word.lean ====
section
/-! DEFINITION. The words of the block: bytes, the 48-bit command word, and the widths of the registers
(R6 of 00_scope.md: bit 0 is least significant, every quantity is unsigned; R8: the counters and times wrap at their width). -/

namespace Sys2Proof

/-- A byte, 0 to 255 (R6). -/
abbrev Byte := BitVec 8

/-- A command word `cw` (R81): `cw[47:40]` the opcode, `cw[39:0]` the immediate field `imm`. -/
abbrev CmdWord := BitVec 48

/-- A 32-bit quantity: response values, counters (`CNT_W` = 32, R5), times and intervals. -/
abbrev Word32 := BitVec 32

end Sys2Proof
end

