-- ==== Sys2Proof/Syntax.lean ====
section
/-! DEFINITION. The commands of the block (R83 of 30_encoding.md, spec/opcode_table.json), the ports they arrive on (R80),
the command formats (R82) and what an environment presents on a port (R80, R85). -/

namespace Sys2Proof

/-- The three command ports (R80): the main context, the asynchronous producer, the receive byte stream. -/
inductive Port where
  | m
  | a
  | r
  deriving DecidableEq, Repr

/-- One item presented on a command port (R80, R85): a 48-bit command word, or a data beat of one byte. -/
inductive PortItem where
  | word (w : CmdWord)
  | beat (b : Byte)
  deriving DecidableEq, Repr

/-- The command formats of R82. -/
inductive Format where
  | n | b | bs | l | s | ss | f1 | f2 | t
  deriving DecidableEq, Repr

/-- The assigned opcodes, one for each row of the opcode map (R83). -/
inductive Op where
  | fifoPush | fifoPushBytes | fifoPop | fifoPopBytes | fifoPeek | fifoSize | fifoFlush | fifoEnsure
  | crcByte | crcBuf
  | rxByte
  | txSendSimple | txSendExt | txSendRaw | txDrain
  | wdtTick | wdtSetInterval | wdtRdBudget | wdtRdBaud
  | duplexTx | duplexRx
  | sysLock | sysUnlock | sysRdGood | sysRdBad | sysRdStatus | sysStop
  deriving DecidableEq, Repr

/-- The commands with their operands. Where a format has data beats `d`, its `n` field is the length of `d` (R85, log 16).
`typ` is the operand the spec calls `type`. -/
inductive Instr where
  /-- `FIFO.PUSH` (R120) -/
  | fifoPush (b : Byte)
  /-- `FIFO.PUSH_BYTES` (R121) -/
  | fifoPushBytes (d : List Byte)
  /-- `FIFO.POP` (R122) -/
  | fifoPop
  /-- `FIFO.POP_BYTES` (R123) -/
  | fifoPopBytes (n : BitVec 16)
  /-- `FIFO.PEEK` (R124) -/
  | fifoPeek
  /-- `FIFO.SIZE` (R125) -/
  | fifoSize
  /-- `FIFO.FLUSH` (R126) -/
  | fifoFlush
  /-- `FIFO.ENSURE` (R127) -/
  | fifoEnsure (n : BitVec 16)
  /-- `CRC.BYTE` (R132) -/
  | crcByte (b seed : Byte)
  /-- `CRC.BUF` (R133) -/
  | crcBuf (seed : Byte) (d : List Byte)
  /-- `RX.BYTE` (R141) -/
  | rxByte (b : Byte)
  /-- `TX.SEND_SIMPLE` (R162) -/
  | txSendSimple (addr typ : Byte) (d : List Byte)
  /-- `TX.SEND_EXT` (R163) -/
  | txSendExt (addr typ dest orig : Byte) (d : List Byte)
  /-- `TX.SEND_RAW` (R164) -/
  | txSendRaw (d : List Byte)
  /-- `TX.DRAIN` (R166) -/
  | txDrain
  /-- `WDT.TICK` (R181) -/
  | wdtTick (t : Word32)
  /-- `WDT.SET_INTERVAL` (R187) -/
  | wdtSetInterval (t : Word32)
  /-- `WDT.RD_BUDGET` (R188) -/
  | wdtRdBudget
  /-- `WDT.RD_BAUD` (R189) -/
  | wdtRdBaud
  /-- `DUPLEX.TX` (R198) -/
  | duplexTx
  /-- `DUPLEX.RX` (R199) -/
  | duplexRx
  /-- `SYS.LOCK` (R206) -/
  | sysLock
  /-- `SYS.UNLOCK` (R207) -/
  | sysUnlock
  /-- `SYS.RD_GOOD` (R209) -/
  | sysRdGood
  /-- `SYS.RD_BAD` (R210) -/
  | sysRdBad
  /-- `SYS.RD_STATUS` (R211) -/
  | sysRdStatus
  /-- `SYS.STOP` (R208) -/
  | sysStop
  deriving DecidableEq, Repr

end Sys2Proof
end

