-- ==== Sys2Proof/Config.lean ====
section
/-! DEFINITION. The parameters of the block (R5 of 00_scope.md), a structure of plain data, and the free values
(what the spec leaves to be any value). A state carries its configuration (log 5); no step changes it. -/

namespace Sys2Proof

/-- The implementation parameters of R5. `NBAUD` is the length of `baud`; `CNT_W` is the width of `Word32`. -/
structure Config where
  /-- `FIFO_CAP`, written `C`: ring buffer capacity in bytes. -/
  fifoCap : Nat
  /-- `CRC_POLY`: the generator's 8 low coefficients. -/
  crcPoly : Byte
  /-- `CRC_SEED_DEFAULT`: the seed an assembler line without one stands for (R89). -/
  crcSeedDefault : Byte
  /-- `MAX_PKT`: the largest declared length the parser accepts. -/
  maxPkt : Nat
  /-- `SYNC_SET`: the accepted sync values. -/
  syncSet : List Byte
  /-- `RX_POS_LIMIT`: the position at which a further body byte causes a hard reset. -/
  rxPosLimit : Nat
  /-- `MIN_LEN`: the smallest declared length the parser accepts. -/
  minLen : Nat
  /-- `PAYLOAD_MAX`: the largest declared length the raw path queues. -/
  payloadMax : Nat
  /-- `ABS_MAX_PKT`: the cap on `max_packet_bytes`. -/
  absMaxPkt : Nat
  /-- `BAUD[0 ..]`: the ordered candidate baud list. -/
  baud : List Word32
  /-- `WDT_INTERVAL_MS`: the watchdog's check interval. -/
  wdtIntervalMs : Nat
  /-- `BUDGET_MIN`: the lower clamp of bytes per period. -/
  budgetMin : Nat
  /-- `HALF_DUPLEX`: true when RX and TX share one wire. -/
  halfDuplex : Bool
  /-- `RC_INTERVAL_RESET_US`: the reset value of the RC packet interval. -/
  rcIntervalResetUs : Word32
  /-- `STOP_DRAIN_CEILING_MS`: the ceiling of the main context's own drain wait before `SYS.STOP` (R259).
  No operation of the block reads it. -/
  stopDrainCeilingMs : Nat
  deriving DecidableEq, Repr

namespace Config

/-- The values of R5. `FIFO_CAP`, the seed, the baud list, the watchdog interval, `BUDGET_MIN` and the stop ceiling are
the source's. PRESUMED (by the spec, "from general knowledge", log 5): `CRC_POLY`, `MAX_PKT`, `SYNC_SET`, `PAYLOAD_MAX`,
`RC_INTERVAL_RESET_US`, and the defaults `RX_POS_LIMIT` and `ABS_MAX_PKT` derived from them. -/
def default : Config where
  fifoCap := 256
  crcPoly := 0xD5
  crcSeedDefault := 0x00
  maxPkt := 64
  syncSet := [0xEE, 0xC8]
  rxPosLimit := 64
  minLen := 2
  payloadMax := 62
  absMaxPkt := 64
  baud := [400000, 115200, 5250000, 3750000, 1870000, 921600]
  wdtIntervalMs := 1000
  budgetMin := 10
  halfDuplex := true
  rcIntervalResetUs := 5000
  stopDrainCeilingMs := 1000

/-- `NBAUD`, the length of the baud list (R5). -/
def nbaud (c : Config) : Nat := c.baud.length

/-- `RXBUF_SIZE = min(RX_POS_LIMIT, MAX_PKT + 2)` (R29). -/
def rxBufSize (c : Config) : Nat := min c.rxPosLimit (c.maxPkt + 2)

/-- The legal configurations: the constraints between parameters under the table of R5, the range of the interval's
reset value (R186), and two bounds the registers' widths ask for: `NBAUD <= 8` since `baud_idx` has 3 bits (R39, log 6),
and `PAYLOAD_MAX <= 253` since a queued frame has at most 255 bytes (R96, R161; DEDUCED, log 7). -/
abbrev ok (c : Config) : Prop :=
  c.fifoCap ∈ [2, 4, 8, 16, 32, 64, 128, 256] ∧
  2 ≤ c.minLen ∧ c.minLen ≤ c.maxPkt ∧ c.maxPkt ≤ 253 ∧
  3 ≤ c.rxPosLimit ∧
  c.budgetMin ≤ c.fifoCap ∧
  1 ≤ c.nbaud ∧ c.nbaud ≤ 8 ∧
  c.payloadMax ≤ 253 ∧
  1 ≤ c.rcIntervalResetUs.toNat ∧ c.rcIntervalResetUs.toNat ≤ 1000000

/-- The size of `TXBUF` (R38): 255 bytes, because an entry's length prefix is one byte. -/
def txBufSize : Nat := 255

/-- FREE VALUE (U2, log 3): the k-th byte drawn where an underrunning `FIFO.POP_BYTES` returns "nothing meaningful" (R115). -/
opaque freeByte : Nat → Byte

/-- FREE VALUE (U10, log 2): the k-th choice drawn where more than one port may execute next (R70). -/
opaque portChoice : Nat → Nat

/-- FREE VALUE (R262, log 11): the command word that a port presenting `items`, a data beat at their head, is misread as to present. -/
opaque misreadWord : Nat → List PortItem → CmdWord

/-- FREE VALUE (R262, log 11): what `items` are misread as after that word; the stream is misread from there on. -/
opaque misreadRest : Nat → List PortItem → List PortItem

end Config

end Sys2Proof
end

