-- ==== Sys2Proof/Machine/Budget.lean ====
section
/-! DEFINITION. The byte budgets (R184 of 44_watchdog.md). It stands before State because the reset values of two registers
are computed by it (R42, R43). -/

namespace Sys2Proof.Machine

/-- `budget(baud, us)` (R184): the pair (`max_period_bytes`, `max_packet_bytes`), by floor divisions left to right and
`* 80 // 100` last. `none` outside `1 .. 1000000`, where a division by zero would arise and the spec never evaluates it (R186). -/
def budget (c : Config) (baud us : Nat) : Option (Nat × Nat) :=
  if us = 0 ∨ 1000000 < us then none
  else
    let rate := 1000000 / us
    let x := baud / 10 / 2 / rate * 80 / 100
    let p := max c.budgetMin (min x c.fifoCap)
    some (p, min p c.absMaxPkt)

end Sys2Proof.Machine
end

