-- ==== Sys2Proof/Machine/State.lean ====
section
/-! DEFINITION. The architectural state of the block (10_state.md), grouped by sub-block (R1), its events (R222) and
responses (R86), the reasons a step can stop, and the state after reset (R49, R250). Plain data throughout. -/

namespace Sys2Proof.Machine

/-- A byte array as (index, byte) pairs in one canonical form: indices strictly rising, no byte equal to what an unlisted
index reads as (`Memory.wf` in Machine/Ops.lean). -/
abbrev Memory := List Host.Cell

/-- Storage and registers of the ring buffer (R23 to R26). -/
structure Ring where
  /-- `FIFO[0 .. C-1]` (R23). -/
  mem : Memory
  /-- `head` (R24): index of the oldest queued byte. -/
  head : BitVec 8
  /-- `tail` (R25): index at which the next pushed byte is stored. -/
  tail : BitVec 8
  /-- `count` (R26): the number of queued bytes. -/
  count : BitVec 9
  deriving DecidableEq, Repr

/-- `rx_state` (R30); the encoding 0, 1, 2 shows only in `SYS.RD_STATUS` (`RxState.code` in Machine/Flags.lean). -/
inductive RxState where
  | waitSync
  | readLength
  | readBody
  deriving DecidableEq, Repr

/-- The frame parser (R29 to R32). -/
structure Parser where
  /-- `RXBUF[0 .. RXBUF_SIZE-1]` (R29). -/
  buf : Memory
  /-- `rx_state` (R30). -/
  state : RxState
  /-- `rx_pos` (R31). -/
  pos : BitVec 8
  /-- `rx_len` (R32). -/
  len : BitVec 8
  deriving DecidableEq, Repr

/-- The packet counters and the connection flag (R33 to R35). -/
structure Link where
  /-- `good` (R33). -/
  good : Word32
  /-- `bad` (R34). -/
  bad : Word32
  /-- `connected` (R35). -/
  connected : Bool
  deriving DecidableEq, Repr

/-- The outbound drain (R36 to R38). -/
structure Drain where
  /-- `TXBUF[0 .. 254]` (R38). -/
  buf : Memory
  /-- `tx_off` (R36). -/
  off : BitVec 8
  /-- `tx_rem` (R37). -/
  rem : BitVec 8
  deriving DecidableEq, Repr

/-- The watchdog, the baud in force and the derived budgets (R39 to R43). -/
structure Watchdog where
  /-- `baud_idx` (R39). -/
  baudIdx : BitVec 3
  /-- `wdt_last` (R40). -/
  last : Word32
  /-- `rc_interval_us` (R41). -/
  rcInterval : Word32
  /-- `max_period_bytes` (R42). -/
  maxPeriod : BitVec 9
  /-- `max_packet_bytes` (R43). -/
  maxPacket : BitVec 9
  deriving DecidableEq, Repr

/-- `line_dir` (R44). -/
inductive LineDir where
  | rx
  | tx
  deriving DecidableEq, Repr

/-- The output events (R222). -/
inductive Event where
  | connected
  | disconnected
  | frame (f : List Byte)
  | rxDiscard
  | txByte (b : Byte)
  | txFlush
  | lineTx
  | lineRx
  | baudSet (baud : Word32)
  | txDrop
  | fifoFraming
  | illegalCmd (op : Byte)
  deriving DecidableEq, Repr

/-- The response statuses (R86). -/
inductive Status where
  | ok
  | illegal
  | refused
  deriving DecidableEq, Repr

/-- `respond(status, value, data)` (R86). -/
structure Response where
  status : Status
  value : Word32
  data : List Byte
  deriving DecidableEq, Repr

/-- One thing for each command port (R80). -/
structure PerPort (α : Type) where
  m : α
  a : α
  r : α
  deriving DecidableEq, Repr

/-- The whole state: the spec's own (10_state.md), its output history, and the model's own fields, marked so. -/
structure State where
  /-- The parameters of R5: the model carries them here, and no step changes them (log 5). -/
  cfg : Config
  /-- Ring buffer (R23 to R26). -/
  ring : Ring
  /-- Frame parser (R29 to R32). -/
  parser : Parser
  /-- Counters and connection (R33 to R35). -/
  link : Link
  /-- Outbound drain (R36 to R38). -/
  drain : Drain
  /-- Watchdog, baud, budgets (R39 to R43). -/
  wdt : Watchdog
  /-- `line_dir` (R44). -/
  lineDir : LineDir
  /-- `lock`, the guard (R45). -/
  lock : Bool
  /-- The output event sequence (R221), oldest first: a history the block appends to and never reads (R48). -/
  events : List Event
  /-- The response path of each port (R80, R86), oldest first. -/
  resp : PerPort (List Response)
  /-- MODEL'S OWN: what the environment presents on each port and the block has not consumed, next first (log 1). -/
  pend : PerPort (List PortItem)
  /-- MODEL'S OWN: the port whose command is being executed; its response path takes the response (log 8). -/
  active : Port
  /-- MODEL'S OWN: how many free values have been drawn (log 2, log 3, log 11). -/
  draws : Nat
  deriving DecidableEq, Repr

/-- Why a step stops. The block has no traps (R220); each reason below is an access the spec says does not exist or never
makes, reached only outside the invariants of Safety.lean (log 15). -/
inductive Fault where
  /-- Raised by `RX.BYTE`: a body byte would be stored past the end of `RXBUF` (R63: the index is kept in range). Safe. -/
  | rxIndexRange
  /-- Raised by `TX.DRAIN`: a byte would be read past the end of `TXBUF` (R37: `tx_off + tx_rem <= 255`). Safe. -/
  | txIndexRange
  /-- Raised by `WDT.TICK`, `WDT.SET_INTERVAL`, `WDT.RD_BAUD`: `BAUD[baud_idx]` with `baud_idx >= NBAUD` (R39). Safe. -/
  | baudIndexRange
  /-- Raised by `WDT.TICK`: the budget formula outside `1 .. 1000000` (R186: never evaluated there). Safe. -/
  | intervalRange
  deriving DecidableEq, Repr

/-- Why an instruction is refused. -/
inductive Refusal where
  /-- Raised by `exec` for an instruction that has no meaning yet. Safe. No arm of this model uses it. -/
  | notModelled (mnemonic : String)
  deriving DecidableEq, Repr

/-- The outcome of a command or a step. -/
abbrev Result := Host.Outcome State Fault Refusal

/-- The state after reset of a block with parameters `c` (R49, R250): every register at the value R49 collects, nothing
listed in the three arrays (log 4), no event, no command in progress, no response. The budget registers are those of
`BAUD[0]` and `RC_INTERVAL_RESET_US` (R42, R43); for a configuration that is not legal, where the spec gives no budget,
they are 0 and nothing is claimed (log 5). -/
def State.resetWith (c : Config) : State :=
  let b := (budget c (c.baud.headD 0).toNat c.rcIntervalResetUs.toNat).getD (0, 0)
  { cfg := c
    ring := { mem := [], head := 0, tail := 0, count := 0 }
    parser := { buf := [], state := .waitSync, pos := 0, len := 0 }
    link := { good := 0, bad := 0, connected := false }
    drain := { buf := [], off := 0, rem := 0 }
    wdt := { baudIdx := 0, last := 0, rcInterval := c.rcIntervalResetUs,
             maxPeriod := BitVec.ofNat 9 b.1, maxPacket := BitVec.ofNat 9 b.2 }
    lineDir := .rx
    lock := false
    events := []
    resp := { m := [], a := [], r := [] }
    pend := { m := [], a := [], r := [] }
    active := .m
    draws := 0 }

/-- The state after reset of the reference system, every parameter at the value of R5. -/
def State.reset : State := State.resetWith Config.default

end Sys2Proof.Machine
end

