-- ==== Sys2Proof/Machine/Ops.lean ====
section
/-! DEFINITION. The named operations over the arrays, the ports, the event sequence and the responses. Nothing else touches
them. The block has no traps (R220), so there is no exception entry or return here; what stands in its place is
`State.illegalCommand` (R87, R223 X13). -/

namespace Sys2Proof.Machine

/-! ### Byte arrays (R60 to R63) -/

/-- What an index nothing has written reads as. The spec leaves it to be any value (U1) and says no rule reads such an
index. DESIGN CHOICE, unsafe: 0x00 (log 4). -/
def Memory.unlisted : Byte := 0x00

/-- `A[i]` (R7). -/
def Memory.read : Memory → Nat → Byte
  | [], _ => Memory.unlisted
  | (a, b) :: m, i => if a = i then b else Memory.read m i

/-- `A[i] <- b` (R7), keeping the canonical form. -/
def Memory.write : Memory → Nat → Byte → Memory
  | [], i, b => if b = Memory.unlisted then [] else [(i, b)]
  | (a, c) :: m, i, b =>
    if i < a then (if b = Memory.unlisted then (a, c) :: m else (i, b) :: (a, c) :: m)
    else if i = a then (if b = Memory.unlisted then m else (i, b) :: m)
    else (a, c) :: Memory.write m i b

/-- `A[i ..] <- s`: one byte access after another at rising indices (R62, R63). -/
def Memory.writeBytes (m : Memory) (i : Nat) : List Byte → Memory
  | [] => m
  | b :: s => Memory.writeBytes (Memory.write m i b) (i + 1) s

/-- `n` bytes of `A` from index `i` on, in order. -/
def Memory.slice (m : Memory) (i n : Nat) : List Byte := (List.range n).map fun k => Memory.read m (i + k)

/-- Strictly rising indices from `lo` on, none listed with what an unlisted index reads as. -/
def Memory.canonicalFrom : Nat → Memory → Bool
  | _, [] => true
  | lo, (a, b) :: m => decide (lo ≤ a) && decide (b ≠ Memory.unlisted) && Memory.canonicalFrom (a + 1) m

/-- The canonical form: equal arrays are equal lists. -/
def Memory.wf (m : Memory) : Bool := Memory.canonicalFrom 0 m

/-- Every listed index lies in an array of `size` bytes (R60). -/
def Memory.within (size : Nat) (m : Memory) : Bool := m.all fun c => decide (c.1 < size)

/-! ### Ports -/

/-- The component of port `p`. -/
def PerPort.get {α : Type} (x : PerPort α) : Port → α
  | .m => x.m
  | .a => x.a
  | .r => x.r

/-- `x` with the component of port `p` replaced. -/
def PerPort.set {α : Type} (x : PerPort α) (p : Port) (v : α) : PerPort α :=
  match p with
  | .m => { x with m := v }
  | .a => { x with a := v }
  | .r => { x with r := v }

/-! ### Events and responses -/

/-- `emit EV_X(args)`: append one event (R7, R221). -/
def State.emit (s : State) (e : Event) : State := { s with events := s.events ++ [e] }

/-- Several events in order (R76). -/
def State.emits (s : State) (es : List Event) : State := { s with events := s.events ++ es }

/-- `respond(status, value, data)` on the port of the command being executed (R86). -/
def State.respond (s : State) (st : Status) (v : Word32) (d : List Byte) : State :=
  { s with resp := s.resp.set s.active (s.resp.get s.active ++ [{ status := st, value := v, data := d }]) }

/-- `respond(OK, value, [])`. -/
def State.ok (s : State) (v : Word32) : State := s.respond .ok v []

/-- An illegal command (R87, X13): no state changes, `EV_ILLEGAL_CMD(op)`, response `ILLEGAL`. The command word alone has
been consumed. -/
def State.illegalCommand (s : State) (op : Byte) : State := (s.emit (.illegalCmd op)).respond .illegal 0 []

/-- The numeric event codes (R222). -/
def Event.code : Event → Byte
  | .connected => 0x01
  | .disconnected => 0x02
  | .frame _ => 0x03
  | .rxDiscard => 0x04
  | .txByte _ => 0x05
  | .txFlush => 0x06
  | .lineTx => 0x07
  | .lineRx => 0x08
  | .baudSet _ => 0x09
  | .txDrop => 0x0A
  | .fifoFraming => 0x0B
  | .illegalCmd _ => 0x0C

/-- The numeric response statuses (R86). -/
def Status.code : Status → BitVec 2
  | .ok => 0
  | .illegal => 1
  | .refused => 2

/-! ### Free values -/

/-- `n` bytes of unspecified value (R115, U2, log 3): the next `n` draws of `Config.freeByte`. -/
def State.freeBytes (s : State) (n : Nat) : List Byte := (List.range n).map fun k => Config.freeByte (s.draws + k)

/-- `n` draws have been used. -/
def State.drawn (s : State) (n : Nat) : State := { s with draws := s.draws + n }

end Sys2Proof.Machine
end

