-- ==== Sys2Proof/Machine/Crc.lean ====
section
/-! DEFINITION. The CRC8 generator (41_crc8.md): the function of R130, bit by bit, and the two `CRC.*` commands. It has no state. -/

namespace Sys2Proof.Machine

/-- One shift step of R130: most significant bit first. -/
def crcShift (poly crc : Byte) : Byte := if crc.msb then (crc <<< 1) ^^^ poly else crc <<< 1

/-- `k` shift steps. -/
def crcShifts (poly : Byte) : Nat → Byte → Byte
  | 0, crc => crc
  | k + 1, crc => crcShifts poly k (crcShift poly crc)

/-- One byte of R130: exclusive-or into the register, then 8 shift steps. -/
def crcStep (poly crc b : Byte) : Byte := crcShifts poly 8 (crc ^^^ b)

/-- `crc8(seed, s)` (R130) for the generator polynomial `poly`. -/
def crc8 (poly seed : Byte) (s : List Byte) : Byte := s.foldl (crcStep poly) seed

/-- `CRC.BYTE` (R132). -/
def execCrcByte (b seed : Byte) (s : State) : Result :=
  .next (s.ok ((crc8 s.cfg.crcPoly seed [b]).zeroExtend 32))

/-- `CRC.BUF` (R133). -/
def execCrcBuf (seed : Byte) (d : List Byte) (s : State) : Result :=
  .next (s.ok ((crc8 s.cfg.crcPoly seed d).zeroExtend 32))

end Sys2Proof.Machine
end

