-- ==== Sys2Proof/Machine/Flags.lean ====
section
/-! DEFINITION. The one-bit flags `connected`, `lock`, `line_dir` (R46: there are no arithmetic condition codes): the operations
that write them, and the status word that shows them (R211). -/

namespace Sys2Proof.Machine

/-- `link_up()` (R148): edge-triggered, one `EV_CONNECTED` on `connected` going 0 to 1. -/
def State.linkUp (s : State) : State :=
  if s.link.connected then s
  else { s with link := { s.link with connected := true } }.emit .connected

/-- The first step of the failed check (R182): one `EV_DISCONNECTED` on `connected` going 1 to 0. -/
def State.linkDown (s : State) : State :=
  if s.link.connected then { s with link := { s.link with connected := false } }.emit .disconnected
  else s

/-- `duplex_to_tx()` (R196). -/
def State.duplexToTx (s : State) : State :=
  if s.cfg.halfDuplex then { s with lineDir := .tx }.emit .lineTx else s

/-- `duplex_to_rx()` (R197). -/
def State.duplexToRx (s : State) : State :=
  if s.cfg.halfDuplex then { s with lineDir := .rx }.emits [.lineRx, .rxDiscard] else s

/-- The encoding of `rx_state` (R30). -/
def RxState.code : RxState → BitVec 2
  | .waitSync => 0
  | .readLength => 1
  | .readBody => 2

/-- The encoding of `line_dir` (R44). -/
def LineDir.code : LineDir → BitVec 1
  | .rx => 0
  | .tx => 1

/-- The status word (R211): `{tx_off, tx_rem, rx_pos, baud_idx, rx_state, line_dir, lock, connected}`. -/
def State.statusWord (s : State) : Word32 :=
  s.drain.off ++ (s.drain.rem ++ (s.parser.pos ++ (s.wdt.baudIdx ++ (s.parser.state.code ++
    (s.lineDir.code ++ (BitVec.ofBool s.lock ++ BitVec.ofBool s.link.connected))))))

end Sys2Proof.Machine
end

