-- ==== Sys2Proof/Machine/Duplex.lean ====
section
/-! DEFINITION. The duplex scheduler's commands (45_duplex.md), over `duplex_to_tx` and `duplex_to_rx` of Machine/Flags.lean. -/

namespace Sys2Proof.Machine

/-- `DUPLEX.TX` (R198). -/
def execDuplexTx (s : State) : Result := .next (s.duplexToTx.ok 0)

/-- `DUPLEX.RX` (R199). -/
def execDuplexRx (s : State) : Result := .next (s.duplexToRx.ok 0)

end Sys2Proof.Machine
end

