-- ==== Sys2Proof/Machine/Fifo.lean ====
section
/-! DEFINITION. The ring buffer (40_fifo.md): its internal procedures (R111 to R118) over `Ring`, and the eight `FIFO.*`
commands (R120 to R127). `C` is the capacity `FIFO_CAP`; index arithmetic is modulo `C` (R8, R63). -/

namespace Sys2Proof.Machine

/-! ### Internal procedures -/

/-- `fifo_flush()` (R111): `FIFO` contents are not changed. -/
def Ring.flush (r : Ring) : Ring := { r with head := 0, tail := 0, count := 0 }

/-- One byte stored at `tail` (the loop body of R113, the else branch of R112). -/
def Ring.store (C : Nat) (b : Byte) (r : Ring) : Ring :=
  { r with
    mem := Memory.write r.mem (r.tail.toNat % C) b
    tail := BitVec.ofNat 8 ((r.tail.toNat + 1) % C)
    count := r.count + 1 }

/-- The loop of R113. -/
def Ring.storeBytes (C : Nat) : List Byte → Ring → Ring
  | [], r => r
  | b :: s, r => Ring.storeBytes C s (r.store C b)

/-- `fifo_push(b)` (R112): a push at `count = C` flushes and stores nothing. -/
def Ring.push (C : Nat) (b : Byte) (r : Ring) : Ring :=
  if r.count.toNat = C then r.flush else r.store C b

/-- `fifo_push_bytes(s)` (R113): one capacity test on the whole slice. -/
def Ring.pushBytes (C : Nat) (s : List Byte) (r : Ring) : Ring :=
  if C < r.count.toNat + s.length then r.flush else r.storeBytes C s

/-- `n` bytes from the head on: `[FIFO[(head + i) mod C] for i = 0 .. n-1]` (R27, R115). -/
def Ring.bytes (C n : Nat) (r : Ring) : List Byte :=
  (List.range n).map fun i => Memory.read r.mem ((r.head.toNat + i) % C)

/-- `Q` (R27): the queued bytes, oldest first. -/
def Ring.queue (C : Nat) (r : Ring) : List Byte := r.bytes C r.count.toNat

/-- `head <- (head + n) mod C; count <- count - n`: the `n` oldest bytes leave (R115, R118). -/
def Ring.drop (C n : Nat) (r : Ring) : Ring :=
  { r with
    head := BitVec.ofNat 8 ((r.head.toNat + n) % C)
    count := BitVec.ofNat 9 (r.count.toNat - n) }

/-- `fifo_peek()` (R116): 0x00 when empty. -/
def Ring.peek (C : Nat) (r : Ring) : Byte :=
  if r.count = 0 then 0x00 else Memory.read r.mem (r.head.toNat % C)

/-- `fifo_pop()` (R114): 0x00 and a flush when empty. -/
def Ring.pop (C : Nat) (r : Ring) : Byte × Ring :=
  if r.count = 0 then (0x00, r.flush) else (Memory.read r.mem (r.head.toNat % C), r.drop C 1)

/-- `fifo_pop_bytes(n)` (R115): on underrun no bytes of the buffer (`none`) and a flush. -/
def Ring.popBytes (C n : Nat) (r : Ring) : Option (List Byte) × Ring :=
  if r.count.toNat < n then (none, r.flush) else (some (r.bytes C n), r.drop C n)

/-- The loop of `fifo_ensure(n)` (R118) for `n <= C`. The test `C - count < n` is over the integers, so it is written
`C < n + count`. A pass lowers `count`, so `count` passes are enough fuel (`Ring.ensureLoop_spec` in Laws/Fifo.lean). -/
def Ring.ensureLoop (C n : Nat) : Nat → Ring → Ring × List Event
  | 0, r => (r, [])
  | fuel + 1, r =>
    if C < n + r.count.toNat then
      if (r.pop C).2.count.toNat < (r.pop C).1.toNat then
        let x := Ring.ensureLoop C n fuel (r.pop C).2.flush
        (x.1, Event.fifoFraming :: x.2)
      else Ring.ensureLoop C n fuel ((r.pop C).2.drop C (r.pop C).1.toNat)
    else (r, [])

/-- `fifo_ensure(n)` (R118): its answer, the ring afterwards, and the events emitted. -/
def Ring.ensure (C n : Nat) (r : Ring) : Bool × Ring × List Event :=
  if C < n then (false, r, []) else (true, Ring.ensureLoop C n r.count.toNat r)

/-! ### Commands -/

/-- `FIFO.PUSH` (R120). -/
def execFifoPush (b : Byte) (s : State) : Result :=
  .next ({ s with ring := s.ring.push s.cfg.fifoCap b }.ok 0)

/-- `FIFO.PUSH_BYTES` (R121). -/
def execFifoPushBytes (d : List Byte) (s : State) : Result :=
  .next ({ s with ring := s.ring.pushBytes s.cfg.fifoCap d }.ok 0)

/-- `FIFO.POP` (R122). -/
def execFifoPop (s : State) : Result :=
  .next ({ s with ring := (s.ring.pop s.cfg.fifoCap).2 }.ok ((s.ring.pop s.cfg.fifoCap).1.zeroExtend 32))

/-- `FIFO.POP_BYTES` (R123): on underrun the data are free bytes (U2, log 3). -/
def execFifoPopBytes (n : BitVec 16) (s : State) : Result :=
  match s.ring.popBytes s.cfg.fifoCap n.toNat with
  | (some d, r) => .next ({ s with ring := r }.respond .ok 0 d)
  | (none, r) => .next (({ s with ring := r }.drawn n.toNat).respond .ok 0 (s.freeBytes n.toNat))

/-- `FIFO.PEEK` (R124). -/
def execFifoPeek (s : State) : Result :=
  .next (s.ok ((s.ring.peek s.cfg.fifoCap).zeroExtend 32))

/-- `FIFO.SIZE` (R125). -/
def execFifoSize (s : State) : Result := .next (s.ok (s.ring.count.zeroExtend 32))

/-- `FIFO.FLUSH` (R126). -/
def execFifoFlush (s : State) : Result := .next ({ s with ring := s.ring.flush }.ok 0)

/-- `FIFO.ENSURE` (R127). -/
def execFifoEnsure (n : BitVec 16) (s : State) : Result :=
  let x := s.ring.ensure s.cfg.fifoCap n.toNat
  .next (({ s with ring := x.2.1 }.emits x.2.2).ok (if x.1 then 1 else 0))

end Sys2Proof.Machine
end

