-- ==== Sys2Proof/Machine/FrameRx.lean ====
section
/-! DEFINITION. The frame parser (42_frame_rx.md): one `RX.BYTE` command is one step of it (R140, R150). -/

namespace Sys2Proof.Machine

/-- `rx_reset()` (R149): `RXBUF` is not cleared. -/
def Parser.reset (p : Parser) : Parser := { p with state := .waitSync, pos := 0, len := 0 }

/-- The step in `WaitSync` (R142). -/
def Parser.waitSyncStep (c : Config) (b : Byte) (p : Parser) : Parser :=
  if b ∈ c.syncSet then { p with buf := Memory.write p.buf 0 b, pos := 1, state := .readLength } else p

/-- The step in `ReadLength` (R143). -/
def Parser.readLengthStep (c : Config) (b : Byte) (p : Parser) : Parser :=
  if c.maxPkt < b.toNat ∨ b.toNat < c.minLen then p.reset
  else { p with len := b, buf := Memory.write p.buf 1 b, pos := 2, state := .readBody }

/-- The store of a body byte (R145). -/
def Parser.store (b : Byte) (p : Parser) : Parser :=
  { p with buf := Memory.write p.buf p.pos.toNat b, pos := p.pos + 1 }

/-- The completion test (R146), made after the store. -/
def Parser.complete (p : Parser) : Bool := decide (p.len.toNat + 2 ≤ p.pos.toNat)

/-- `RXBUF[0 .. rx_pos - 1]`, the frame accumulated so far (R147). -/
def Parser.frame (p : Parser) : List Byte := Memory.slice p.buf 0 p.pos.toNat

/-- Whether the CRC over `RXBUF[2 .. rx_pos - 2]` equals `RXBUF[rx_pos - 1]` (R146). -/
def Parser.crcMatches (c : Config) (p : Parser) : Bool :=
  crc8 c.crcPoly 0x00 (Memory.slice p.buf 2 (p.pos.toNat - 3)) == Memory.read p.buf (p.pos.toNat - 1)

/-- The end of a completed frame (R146): counting, `link_up` and `EV_FRAME` on a match, `EV_RX_DISCARD` on a mismatch, then
`rx_reset()`; the response value is 1 or 2 (R141). -/
def State.finishFrame (s : State) : State :=
  if s.parser.crcMatches s.cfg then
    let t := ({ s with link := { s.link with good := s.link.good + 1 } }.linkUp).emit (.frame s.parser.frame)
    { t with parser := t.parser.reset }.ok 1
  else
    let t := { s with link := { s.link with bad := s.link.bad + 1 } }.emit .rxDiscard
    { t with parser := t.parser.reset }.ok 2

/-- The step in `ReadBody`: the overflow test before the store (R144), the store (R145), the completion test after it (R146).
An index outside `RXBUF`, which the invariants exclude (R63), is a fault. -/
def State.readBodyStep (b : Byte) (s : State) : Result :=
  if s.cfg.rxPosLimit ≤ s.parser.pos.toNat then .next ({ s with parser := s.parser.reset }.ok 0)
  else if s.cfg.rxBufSize ≤ s.parser.pos.toNat then .fault .rxIndexRange
  else
    let t := { s with parser := s.parser.store b }
    if t.parser.complete then .next t.finishFrame else .next (t.ok 0)

/-- `RX.BYTE` (R141, R150): while the line is turned to transmit the byte is dropped. -/
def execRxByte (b : Byte) (s : State) : Result :=
  if s.cfg.halfDuplex = true ∧ s.lineDir = .tx then .next (s.ok 0)
  else match s.parser.state with
    | .waitSync => .next ({ s with parser := s.parser.waitSyncStep s.cfg b }.ok 0)
    | .readLength => .next ({ s with parser := s.parser.readLengthStep s.cfg b }.ok 0)
    | .readBody => s.readBodyStep b

end Sys2Proof.Machine
end

