-- ==== Sys2Proof/Machine/FrameTx.lean ====
section
/-! DEFINITION. The frame builders and the outbound drain (43_frame_tx.md). -/

namespace Sys2Proof.Machine

/-! ### Builders -/

/-- The queue entry of a frame (R96, R161): its size as one byte, then the frame. -/
def queueEntry (f : List Byte) : List Byte := BitVec.ofNat 8 f.length :: f

/-- `tx_queue(f)` (R161): one slice push of `[N] ++ f`. -/
def State.txQueue (s : State) (f : List Byte) : State :=
  { s with ring := s.ring.pushBytes s.cfg.fifoCap (queueEntry f) }

/-- A simple frame (R92): `[addr, k + 2, type] ++ payload ++ [crc]`, the CRC over type and payload (R94). -/
def simpleFrame (poly addr typ : Byte) (d : List Byte) : List Byte :=
  [addr, BitVec.ofNat 8 (d.length + 2), typ] ++ d ++ [crc8 poly 0x00 (typ :: d)]

/-- An extended frame (R93): destination and origin after the type, destination first, both under the CRC (R94). -/
def extFrame (poly addr typ dest orig : Byte) (d : List Byte) : List Byte :=
  [addr, BitVec.ofNat 8 (d.length + 4), typ, dest, orig] ++ d ++ [crc8 poly 0x00 (typ :: dest :: orig :: d)]

/-- `emit EV_TX_DROP; respond(OK, 0, [])`: a frame that is not queued. -/
def State.txDropped (s : State) : State := (s.emit .txDrop).ok 0

/-- `TX.SEND_SIMPLE` (R162). -/
def execTxSendSimple (addr typ : Byte) (d : List Byte) (s : State) : Result :=
  if 255 < d.length + 4 then .next s.txDropped
  else .next ((s.txQueue (simpleFrame s.cfg.crcPoly addr typ d)).ok 1)

/-- `TX.SEND_EXT` (R163). -/
def execTxSendExt (addr typ dest orig : Byte) (d : List Byte) (s : State) : Result :=
  if 255 < d.length + 6 then .next s.txDropped
  else .next ((s.txQueue (extFrame s.cfg.crcPoly addr typ dest orig d)).ok 1)

/-- Whether the raw path queues `d` (R164): at least two bytes, the frame's length byte `d[1]` at most `PAYLOAD_MAX`, and the
size supplied the one the length byte says. -/
def rawAccepted (c : Config) : List Byte → Bool
  | d0 :: d1 :: d => decide (d1.toNat ≤ c.payloadMax) && decide ((d0 :: d1 :: d).length = d1.toNat + 2)
  | [] | [_] => false

/-- `TX.SEND_RAW` (R164): queued exactly as given, or dropped. -/
def execTxSendRaw (d : List Byte) (s : State) : Result :=
  if rawAccepted s.cfg d then .next ((s.txQueue d).ok 1) else .next s.txDropped

/-! ### Drain -/

/-- What starting the next piece of work finds (R166). -/
inductive DrainStart where
  /-- No entry is in progress and nothing is queued. -/
  | idle
  /-- The entry's prefix exceeds what is queued (X8): flushed and reported. -/
  | broken (s : State)
  /-- An entry is in progress, perhaps just popped, perhaps empty. -/
  | entry (s : State)

/-- The head of the loop of R166: with `tx_rem = 0`, pop the next entry into `TXBUF`. -/
def State.startEntry (s : State) : DrainStart :=
  if s.drain.rem ≠ 0 then .entry s
  else if s.ring.count = 0 then .idle
  else
    let C := s.cfg.fifoCap
    let L := (s.ring.pop C).1
    let r := (s.ring.pop C).2
    if r.count.toNat < L.toNat then .broken ({ s with ring := r.flush }.emit .fifoFraming)
    else .entry { s with
      ring := r.drop C L.toNat
      drain := { buf := Memory.writeBytes s.drain.buf 0 (r.bytes C L.toNat), off := 0, rem := L } }

/-- The writing of `w` bytes of the entry in progress (R166): the line is turned to transmit before the period's first byte. -/
def State.writeChunk (s : State) (w : Nat) (first : Bool) : State :=
  let t := if first then s.duplexToTx else s
  let bytes := Memory.slice s.drain.buf s.drain.off.toNat w
  let rem' := s.drain.rem.toNat - w
  { t.emits (bytes.map .txByte) with
    drain := { s.drain with
      off := if rem' = 0 then 0 else BitVec.ofNat 8 (s.drain.off.toNat + w)
      rem := BitVec.ofNat 8 rem' } }

/-- The loop of R166: `B` the full budget, `R` what is left of it, `written` the bytes written. A pass pops an entry or writes a
byte, so `count + B + 1` passes are enough fuel (`drainLoop_fuel` in Laws/FrameTx.lean). -/
def drainLoop (B : Nat) : Nat → Nat → Nat → State → State × Nat
  | 0, _, written, s => (s, written)
  | fuel + 1, R, written, s =>
    if R = 0 then (s, written)
    else match s.startEntry with
      | .idle => (s, written)
      | .broken t => (t, written)
      | .entry t =>
        if t.drain.rem = 0 then drainLoop B fuel R written t
        else if t.drain.off = 0 ∧ B < t.drain.rem.toNat ∧ R < B then (t, written)
        else
          let w := min t.drain.rem.toNat R
          drainLoop B fuel (R - w) (written + w) (t.writeChunk w (written == 0))

/-- The close of a period (R166): flush the transport and return the line to receive, if anything was written. -/
def State.closePeriod (s : State) (written : Nat) : State :=
  if written = 0 then s else (s.emit .txFlush).duplexToRx

/-- `TX.DRAIN` (R166), one period. Reading past the end of `TXBUF`, which the invariant of R37 excludes, is a fault. Only
the entry in progress at the start can ask for it: an entry popped later starts at 0 and has at most 255 bytes. -/
def execTxDrain (s : State) : Result :=
  let B := s.wdt.maxPeriod.toNat
  if Config.txBufSize < s.drain.off.toNat + min s.drain.rem.toNat B then .fault .txIndexRange
  else
    let x := drainLoop B (s.ring.count.toNat + B + 1) B 0 s
    .next ((x.1.closePeriod x.2).ok (BitVec.ofNat 32 x.2))

end Sys2Proof.Machine
end

