-- ==== Sys2Proof/Machine/Sys.lean ====
section
/-! DEFINITION. The guard, stop and status commands (46_system.md). -/

namespace Sys2Proof.Machine

/-- `SYS.LOCK` (R206): the guard does not nest. -/
def execSysLock (s : State) : Result := .next ({ s with lock := true }.ok 0)

/-- `SYS.UNLOCK` (R207). -/
def execSysUnlock (s : State) : Result := .next ({ s with lock := false }.ok 0)

/-- What `SYS.STOP` clears (R208): the queue, the parser, the drain's progress, the counters and the guard. -/
def State.stopped (s : State) : State :=
  { s with
    ring := s.ring.flush
    parser := s.parser.reset
    drain := { s.drain with off := 0, rem := 0 }
    link := { s.link with good := 0, bad := 0 }
    lock := false }

/-- `SYS.STOP` (R208): no event; connection, baud, budgets, timer and direction are kept. -/
def execSysStop (s : State) : Result := .next (s.stopped.ok 0)

/-- `SYS.RD_GOOD` (R209). -/
def execSysRdGood (s : State) : Result := .next (s.ok s.link.good)

/-- `SYS.RD_BAD` (R210). -/
def execSysRdBad (s : State) : Result := .next (s.ok s.link.bad)

/-- `SYS.RD_STATUS` (R211). -/
def execSysRdStatus (s : State) : Result := .next (s.ok s.statusWord)

end Sys2Proof.Machine
end

