-- ==== Sys2Proof/Machine/Wdt.lean ====
section
/-! DEFINITION. The link watchdog and the byte budgets (44_watchdog.md). -/

namespace Sys2Proof.Machine

/-- The three steps that re-arm reception after a rotation (R182): on a half-duplex line the direction, then the discard,
which is asked for on a full-duplex line as well (R197). -/
def State.rearmReceive (s : State) : State :=
  (if s.cfg.halfDuplex then { s with lineDir := .rx }.emit .lineRx else s).emit .rxDiscard

/-- `BAUD[i]` with the budgets it gives under interval `us` (R184). Outside the baud list, or outside the interval's range,
there is none. -/
def budgetAt (c : Config) (i us : Nat) : Except Fault (Word32 × Nat × Nat) :=
  match c.baud[i]? with
  | none => .error .baudIndexRange
  | some baud =>
    match budget c baud.toNat us with
    | none => .error .intervalRange
    | some b => .ok (baud, b)

/-- The watchdog at baud index `i` with the budgets `b`. -/
def Watchdog.withBudget (w : Watchdog) (i : Nat) (b : Nat × Nat) : Watchdog :=
  { w with baudIdx := BitVec.ofNat 3 i, maxPeriod := BitVec.ofNat 9 b.1, maxPacket := BitVec.ofNat 9 b.2 }

/-- `link_lost_and_rotate()` (R182) once the next index `i`, its baud and its budgets are known. -/
def State.rotate (s : State) (i : Nat) (baud : Word32) (b : Nat × Nat) : State :=
  let t := s.linkDown
  ({ t with wdt := t.wdt.withBudget i b, ring := t.ring.flush }.emits [.txFlush, .baudSet baud]).rearmReceive

/-- The clearing of both counters and the start of the next interval (R183). -/
def State.restartInterval (s : State) (last : Word32) : State :=
  { s with link := { s.link with good := 0, bad := 0 }, wdt := { s.wdt with last := last } }

/-- Whether a check is due at time `t` (R181): the wrap-safe difference. -/
def State.checkDue (s : State) (t : Word32) : Bool := decide (s.cfg.wdtIntervalMs ≤ (t - s.wdt.last).toNat)

/-- `WDT.TICK` (R181 to R183). -/
def execWdtTick (t : Word32) (s : State) : Result :=
  if s.checkDue t then
    if s.link.good.toNat ≤ s.link.bad.toNat then
      let i := (s.wdt.baudIdx.toNat + 1) % s.cfg.nbaud
      match budgetAt s.cfg i s.wdt.rcInterval.toNat with
      | .error f => .fault f
      | .ok (baud, b) =>
        .next (((s.rotate i baud b).restartInterval (t - BitVec.ofNat 32 (3 * (s.cfg.wdtIntervalMs / 4)))).ok 1)
    else .next ((s.restartInterval t).ok 0)
  else .next (s.ok 0)

/-- `WDT.SET_INTERVAL` (R187). -/
def execWdtSetInterval (t : Word32) (s : State) : Result :=
  if t = 0 ∨ 1000000 < t.toNat then .next (s.respond .refused 0 [])
  else match budgetAt s.cfg s.wdt.baudIdx.toNat t.toNat with
    | .error f => .fault f
    | .ok (_, b) =>
      .next ({ s with wdt := { s.wdt.withBudget s.wdt.baudIdx.toNat b with rcInterval := t } }.ok 0)

/-- `WDT.RD_BUDGET` (R188): `{zext_16(max_packet_bytes), zext_16(max_period_bytes)}`. -/
def execWdtRdBudget (s : State) : Result :=
  .next (s.ok (s.wdt.maxPacket.zeroExtend 16 ++ s.wdt.maxPeriod.zeroExtend 16))

/-- `WDT.RD_BAUD` (R189). -/
def execWdtRdBaud (s : State) : Result :=
  match s.cfg.baud[s.wdt.baudIdx.toNat]? with
  | none => .fault .baudIndexRange
  | some baud => .next (s.ok baud)

end Sys2Proof.Machine
end

