-- ==== Sys2Proof/Machine/Dispatch.lean ====
section
/-! DEFINITION. One arm for each command of the opcode map (R83). -/

namespace Sys2Proof.Machine

def exec (i : Instr) (s : State) : Host.Outcome State Fault Refusal :=
  match i with
  -- 40_fifo.md
  | .fifoPush b => Sys2Proof.Machine.execFifoPush b s
  | .fifoPushBytes d => Sys2Proof.Machine.execFifoPushBytes d s
  | .fifoPop => Sys2Proof.Machine.execFifoPop s
  | .fifoPopBytes n => Sys2Proof.Machine.execFifoPopBytes n s
  | .fifoPeek => Sys2Proof.Machine.execFifoPeek s
  | .fifoSize => Sys2Proof.Machine.execFifoSize s
  | .fifoFlush => Sys2Proof.Machine.execFifoFlush s
  | .fifoEnsure n => Sys2Proof.Machine.execFifoEnsure n s
  -- 41_crc8.md
  | .crcByte b seed => Sys2Proof.Machine.execCrcByte b seed s
  | .crcBuf seed d => Sys2Proof.Machine.execCrcBuf seed d s
  -- 42_frame_rx.md
  | .rxByte b => Sys2Proof.Machine.execRxByte b s
  -- 43_frame_tx.md
  | .txSendSimple addr typ d => Sys2Proof.Machine.execTxSendSimple addr typ d s
  | .txSendExt addr typ dest orig d => Sys2Proof.Machine.execTxSendExt addr typ dest orig d s
  | .txSendRaw d => Sys2Proof.Machine.execTxSendRaw d s
  | .txDrain => Sys2Proof.Machine.execTxDrain s
  -- 44_watchdog.md
  | .wdtTick t => Sys2Proof.Machine.execWdtTick t s
  | .wdtSetInterval t => Sys2Proof.Machine.execWdtSetInterval t s
  | .wdtRdBudget => Sys2Proof.Machine.execWdtRdBudget s
  | .wdtRdBaud => Sys2Proof.Machine.execWdtRdBaud s
  -- 45_duplex.md
  | .duplexTx => Sys2Proof.Machine.execDuplexTx s
  | .duplexRx => Sys2Proof.Machine.execDuplexRx s
  -- 46_system.md
  | .sysLock => Sys2Proof.Machine.execSysLock s
  | .sysUnlock => Sys2Proof.Machine.execSysUnlock s
  | .sysRdGood => Sys2Proof.Machine.execSysRdGood s
  | .sysRdBad => Sys2Proof.Machine.execSysRdBad s
  | .sysRdStatus => Sys2Proof.Machine.execSysRdStatus s
  | .sysStop => Sys2Proof.Machine.execSysStop s

end Sys2Proof.Machine
end

