-- ==== Sys2Proof/Machine/Operands.lean ====
section
/-! DEFINITION. The operand fields of a command word (R81, R82 of 30_encoding.md): how each is read from the word and how
each format's immediate is put together. `imm[k]` is `cw[k]`. Operands are unsigned and used as they stand (R81). -/

namespace Sys2Proof

/-- `op = cw[47:40]` (R81). -/
def CmdWord.op (w : CmdWord) : Byte := w.extractLsb' 40 8

/-- `imm[7:0]`: `b` of formats B and BS, `addr` of F1 and F2 (R82). -/
def CmdWord.byte0 (w : CmdWord) : Byte := w.extractLsb' 0 8

/-- `imm[15:8]`: `seed` of format BS, `type` of F1 and F2 (R82). -/
def CmdWord.byte1 (w : CmdWord) : Byte := w.extractLsb' 8 8

/-- `imm[23:16]`: `seed` of format SS, `dest` of F2 (R82). -/
def CmdWord.byte2 (w : CmdWord) : Byte := w.extractLsb' 16 8

/-- `imm[31:24]`: `orig` of F2 (R82). -/
def CmdWord.byte3 (w : CmdWord) : Byte := w.extractLsb' 24 8

/-- `imm[15:0]`: `n` of formats L, S and SS (R82). -/
def CmdWord.n16 (w : CmdWord) : BitVec 16 := w.extractLsb' 0 16

/-- `imm[39:32]`: `n` of formats F1 and F2 (R82). -/
def CmdWord.n8 (w : CmdWord) : Byte := w.extractLsb' 32 8

/-- `imm[31:0]`: `t` of format T (R82). -/
def CmdWord.t32 (w : CmdWord) : Word32 := w.extractLsb' 0 32

/-- The number of data beats a word of format `f` announces (R85). -/
def Format.beats (f : Format) (w : CmdWord) : Nat :=
  match f with
  | .s | .ss => (CmdWord.n16 w).toNat
  | .f1 | .f2 => (CmdWord.n8 w).toNat
  | .n | .b | .bs | .l | .t => 0

/-- The bits of the word a format names, the opcode among them (R82); the others are ignored on decode. -/
def Format.namedBits : Format → CmdWord
  | .n  => 0xFF0000000000
  | .b  => 0xFF00000000FF
  | .bs => 0xFF000000FFFF
  | .l  => 0xFF000000FFFF
  | .s  => 0xFF000000FFFF
  | .ss => 0xFF0000FFFFFF
  | .f1 => 0xFFFF0000FFFF
  | .f2 => 0xFFFFFFFFFFFF
  | .t  => 0xFF00FFFFFFFF

/-- The beats of a command: exactly `n` of them must stand next on the port (R85). `none` when a command word or the end
of what is presented comes first. -/
def takeBeats : Nat → List PortItem → Option (List Byte × List PortItem)
  | 0, rest => some ([], rest)
  | n + 1, .beat b :: rest => (takeBeats n rest).map fun (d, rest') => (b :: d, rest')
  | _ + 1, _ => none

end Sys2Proof
end

