-- ==== Sys2Proof/WellFormed.lean ====
section
/-! DEFINITION. Which commands can be written at all: the data beats fit the `n` field that announces them
(R82: 16 bits in formats S and SS, 8 bits in formats F1 and F2). Every other operand is a bit field of its own width. -/

namespace Sys2Proof

/-- The data beats of a command (R85), empty for a format without beats. -/
def Instr.data : Instr → List Byte
  | .fifoPushBytes d | .crcBuf _ d | .txSendSimple _ _ d | .txSendExt _ _ _ _ d | .txSendRaw d => d
  | .fifoPush _ | .fifoPop | .fifoPopBytes _ | .fifoPeek | .fifoSize | .fifoFlush | .fifoEnsure _
  | .crcByte _ _ | .rxByte _ | .txDrain | .wdtTick _ | .wdtSetInterval _ | .wdtRdBudget | .wdtRdBaud
  | .duplexTx | .duplexRx | .sysLock | .sysUnlock | .sysRdGood | .sysRdBad | .sysRdStatus | .sysStop => []

/-- The largest number of beats the command's `n` field can announce (R82). -/
def Instr.maxBeats : Instr → Nat
  | .fifoPushBytes _ | .crcBuf _ _ | .txSendRaw _ => 65535
  | .txSendSimple _ _ _ | .txSendExt _ _ _ _ _ => 255
  | .fifoPush _ | .fifoPop | .fifoPopBytes _ | .fifoPeek | .fifoSize | .fifoFlush | .fifoEnsure _
  | .crcByte _ _ | .rxByte _ | .txDrain | .wdtTick _ | .wdtSetInterval _ | .wdtRdBudget | .wdtRdBaud
  | .duplexTx | .duplexRx | .sysLock | .sysUnlock | .sysRdGood | .sysRdBad | .sysRdStatus | .sysStop => 0

/-- A command that a command word and its beats can carry. -/
abbrev Instr.wf (i : Instr) : Prop := i.data.length ≤ i.maxBeats

end Sys2Proof
end

