-- ==== Sys2Proof/Decode.lean ====
section
/-! DEFINITION. The opcode map (R83), the decoder, total on whatever a port presents and rejecting by name, and the encoder,
both from the tables of 30_encoding.md. Which port accepts which command (R80, R84) stands here too, beside the map. -/

namespace Sys2Proof

/-- The opcode of each command (R83). -/
def Op.code : Op → Byte
  | .fifoPush => 0x10 | .fifoPushBytes => 0x11 | .fifoPop => 0x12 | .fifoPopBytes => 0x13
  | .fifoPeek => 0x14 | .fifoSize => 0x15 | .fifoFlush => 0x16 | .fifoEnsure => 0x17
  | .crcByte => 0x20 | .crcBuf => 0x21
  | .rxByte => 0x30
  | .txSendSimple => 0x40 | .txSendExt => 0x41 | .txSendRaw => 0x42 | .txDrain => 0x43
  | .wdtTick => 0x50 | .wdtSetInterval => 0x51 | .wdtRdBudget => 0x52 | .wdtRdBaud => 0x53
  | .duplexTx => 0x60 | .duplexRx => 0x61
  | .sysLock => 0x70 | .sysUnlock => 0x71 | .sysRdGood => 0x72 | .sysRdBad => 0x73 | .sysRdStatus => 0x74
  | .sysStop => 0x7F

/-- The format of each command (R82, R83). -/
def Op.format : Op → Format
  | .fifoPush => .b | .fifoPushBytes => .s | .fifoPop => .n | .fifoPopBytes => .l
  | .fifoPeek => .n | .fifoSize => .n | .fifoFlush => .n | .fifoEnsure => .l
  | .crcByte => .bs | .crcBuf => .ss
  | .rxByte => .b
  | .txSendSimple => .f1 | .txSendExt => .f2 | .txSendRaw => .s | .txDrain => .n
  | .wdtTick => .t | .wdtSetInterval => .t | .wdtRdBudget => .n | .wdtRdBaud => .n
  | .duplexTx => .n | .duplexRx => .n
  | .sysLock => .n | .sysUnlock => .n | .sysRdGood => .n | .sysRdBad => .n | .sysRdStatus => .n
  | .sysStop => .n

/-- Every row of the opcode map, in its order (R83). -/
def Op.all : List Op :=
  [.fifoPush, .fifoPushBytes, .fifoPop, .fifoPopBytes, .fifoPeek, .fifoSize, .fifoFlush, .fifoEnsure,
   .crcByte, .crcBuf, .rxByte, .txSendSimple, .txSendExt, .txSendRaw, .txDrain,
   .wdtTick, .wdtSetInterval, .wdtRdBudget, .wdtRdBaud, .duplexTx, .duplexRx,
   .sysLock, .sysUnlock, .sysRdGood, .sysRdBad, .sysRdStatus, .sysStop]

/-- The command an opcode selects; `none` for a reserved opcode (R87). The opcode alone selects (R81). -/
def Op.ofCode (c : Byte) : Option Op := Op.all.find? fun o => o.code == c

/-- The ports a command is accepted on (R80, R84): port R takes `RX.BYTE` alone, port M everything else, port A the seven
commands the table of R80 lists for it. -/
def Op.accepts (o : Op) : Port → Bool
  | .m => match o with
    | .rxByte => false
    | _ => true
  | .a => match o with
    | .fifoPush | .fifoPushBytes | .txSendSimple | .txSendExt | .txSendRaw | .crcByte | .crcBuf => true
    | _ => false
  | .r => match o with
    | .rxByte => true
    | _ => false

/-- Whether port `p` accepts a command word with opcode `c` (R84); false for a reserved opcode. -/
def acceptsCode (p : Port) (c : Byte) : Bool :=
  match Op.ofCode c with
  | some o => o.accepts p
  | none => false

/-- The opcode of a command. -/
def Instr.op : Instr → Op
  | .fifoPush _ => .fifoPush | .fifoPushBytes _ => .fifoPushBytes | .fifoPop => .fifoPop
  | .fifoPopBytes _ => .fifoPopBytes | .fifoPeek => .fifoPeek | .fifoSize => .fifoSize
  | .fifoFlush => .fifoFlush | .fifoEnsure _ => .fifoEnsure
  | .crcByte _ _ => .crcByte | .crcBuf _ _ => .crcBuf
  | .rxByte _ => .rxByte
  | .txSendSimple _ _ _ => .txSendSimple | .txSendExt _ _ _ _ _ => .txSendExt | .txSendRaw _ => .txSendRaw
  | .txDrain => .txDrain
  | .wdtTick _ => .wdtTick | .wdtSetInterval _ => .wdtSetInterval | .wdtRdBudget => .wdtRdBudget
  | .wdtRdBaud => .wdtRdBaud
  | .duplexTx => .duplexTx | .duplexRx => .duplexRx
  | .sysLock => .sysLock | .sysUnlock => .sysUnlock | .sysRdGood => .sysRdGood | .sysRdBad => .sysRdBad
  | .sysRdStatus => .sysRdStatus | .sysStop => .sysStop

/-- The command of opcode `o` with the operands of word `w` and the beats `d` (R82). -/
def Op.build (o : Op) (w : CmdWord) (d : List Byte) : Instr :=
  match o with
  | .fifoPush => .fifoPush (CmdWord.byte0 w)
  | .fifoPushBytes => .fifoPushBytes d
  | .fifoPop => .fifoPop
  | .fifoPopBytes => .fifoPopBytes (CmdWord.n16 w)
  | .fifoPeek => .fifoPeek
  | .fifoSize => .fifoSize
  | .fifoFlush => .fifoFlush
  | .fifoEnsure => .fifoEnsure (CmdWord.n16 w)
  | .crcByte => .crcByte (CmdWord.byte0 w) (CmdWord.byte1 w)
  | .crcBuf => .crcBuf (CmdWord.byte2 w) d
  | .rxByte => .rxByte (CmdWord.byte0 w)
  | .txSendSimple => .txSendSimple (CmdWord.byte0 w) (CmdWord.byte1 w) d
  | .txSendExt => .txSendExt (CmdWord.byte0 w) (CmdWord.byte1 w) (CmdWord.byte2 w) (CmdWord.byte3 w) d
  | .txSendRaw => .txSendRaw d
  | .txDrain => .txDrain
  | .wdtTick => .wdtTick (CmdWord.t32 w)
  | .wdtSetInterval => .wdtSetInterval (CmdWord.t32 w)
  | .wdtRdBudget => .wdtRdBudget
  | .wdtRdBaud => .wdtRdBaud
  | .duplexTx => .duplexTx
  | .duplexRx => .duplexRx
  | .sysLock => .sysLock
  | .sysUnlock => .sysUnlock
  | .sysRdGood => .sysRdGood
  | .sysRdBad => .sysRdBad
  | .sysRdStatus => .sysRdStatus
  | .sysStop => .sysStop

/-- Why what a port presents is no command. -/
inductive DecodeError where
  /-- Nothing is presented. -/
  | nothingPresented
  /-- A data beat stands where a command word is due (R262). -/
  | beatForWord
  /-- The opcode is not in the map (R87). -/
  | reservedOpcode (c : Byte)
  /-- Fewer beats stand on the port than the word announces (R85). -/
  | missingBeats (o : Op)
  deriving DecidableEq, Repr

/-- The command at the head of what a port presents, and what is presented after it (R81, R82, R85). -/
def decode : List PortItem → Except DecodeError (Instr × List PortItem)
  | [] => .error .nothingPresented
  | .beat _ :: _ => .error .beatForWord
  | .word w :: rest =>
    match Op.ofCode (CmdWord.op w) with
    | none => .error (.reservedOpcode (CmdWord.op w))
    | some o =>
      match takeBeats (o.format.beats w) rest with
      | none => .error (.missingBeats o)
      | some (d, rest') => .ok (o.build w d, rest')

/-- The immediate field `imm[39:0]` of a command, the bits its format does not name being zero (R82). -/
def Instr.imm : Instr → BitVec 40
  | .fifoPush b | .rxByte b => (0 : BitVec 32) ++ b
  | .crcByte b seed => (0 : BitVec 24) ++ (seed ++ b)
  | .fifoPopBytes n | .fifoEnsure n => (0 : BitVec 24) ++ n
  | .fifoPushBytes d | .txSendRaw d => (0 : BitVec 24) ++ BitVec.ofNat 16 d.length
  | .crcBuf seed d => (0 : BitVec 16) ++ (seed ++ BitVec.ofNat 16 d.length)
  | .txSendSimple addr typ d => BitVec.ofNat 8 d.length ++ ((0 : BitVec 16) ++ (typ ++ addr))
  | .txSendExt addr typ dest orig d => BitVec.ofNat 8 d.length ++ (orig ++ (dest ++ (typ ++ addr)))
  | .wdtTick t | .wdtSetInterval t => (0 : BitVec 8) ++ t
  | .fifoPop | .fifoPeek | .fifoSize | .fifoFlush | .txDrain | .wdtRdBudget | .wdtRdBaud | .duplexTx | .duplexRx
  | .sysLock | .sysUnlock | .sysRdGood | .sysRdBad | .sysRdStatus | .sysStop => 0

/-- The command word of a command (R81): the opcode above the immediate. -/
def Instr.word (i : Instr) : CmdWord := i.op.code ++ i.imm

/-- What is presented on a port for a command: its word, then its beats in order (R85). -/
def encode (i : Instr) : List PortItem := .word i.word :: i.data.map .beat

/-- `n` data beats, the first one the low byte of `v`, as the opcode table numbers the bits after the command word. -/
def tableBeats : Nat → Nat → List PortItem
  | 0, _ => []
  | n + 1, v => .beat (BitVec.ofNat 8 v) :: tableBeats n (v / 256)

/-- The number of beats the word of a table row announces; none for a reserved opcode (R87). -/
def wordBeats (w : CmdWord) : Nat :=
  match Op.ofCode (CmdWord.op w) with
  | some o => o.format.beats w
  | none => 0

/-- The port items of an instruction whose bits are `w`, of which `nbits` are given: the command word is bits 47..0, data
beat `k` is bits 8k+55 .. 8k+48, and every bit above `nbits` is 0. -/
def tableItems (nbits w : Nat) : List PortItem :=
  let v := w % 2 ^ nbits
  .word (BitVec.ofNat 48 v) :: tableBeats (wordBeats (BitVec.ofNat 48 v)) (v / 2 ^ 48)

/-- The instruction the decoder reads from the bits of an opcode-table row. -/
def decodeTableWord (nbits w : Nat) : Option Instr :=
  match decode (tableItems nbits w) with
  | .ok (i, []) => some i
  | _ => none

end Sys2Proof
end

