-- ==== Sys2Proof/Machine/Ports.lean ====
section
/-! DEFINITION. The ports (R80 to R85, R87 of 30_encoding.md; R70, R71 of 20_memory.md): what a port presents, which ports may
execute next, and one step of the block for a given meaning of the commands. Machine/Step.lean only calls it. -/

namespace Sys2Proof.Machine

/-- What a port presents to the block. -/
inductive Presented where
  /-- No command word. -/
  | nothing
  /-- A command whose beats have not all come (R85): the command does not complete and the port does not advance. -/
  | waiting
  /-- An illegal command (R87): a reserved opcode, or one this port does not accept. The word alone is consumed. -/
  | illegal (op : Byte) (rest : List PortItem)
  /-- A command this port accepts, with all its beats. -/
  | command (i : Instr) (rest : List PortItem)
  /-- A data beat where a command word is due: the stream is misread from there on (R262). -/
  | stray
  deriving DecidableEq, Repr

/-- What port `p` presents. Acceptance is settled by the command word, before any beat is taken (R84, R87). -/
def presented (p : Port) (items : List PortItem) : Presented :=
  match items with
  | [] => .nothing
  | .beat _ :: _ => .stray
  | .word w :: rest =>
    if acceptsCode p (CmdWord.op w) then
      match decode items with
      | .ok (i, rest') => .command i rest'
      | .error _ => .waiting
    else .illegal (CmdWord.op w) rest

/-- The guard (R71): while `lock = 1`, ports A and R are held; port M never is. -/
def State.held (s : State) (p : Port) : Bool := s.lock && decide (p ≠ .m)

/-- Whether port `p` may execute next: it is not held and presents something to execute. -/
def State.ready (s : State) (p : Port) : Bool :=
  !s.held p && match presented p (s.pend.get p) with
    | .nothing | .waiting => false
    | .illegal _ _ | .command _ _ | .stray => true

/-- The ports that may execute next. -/
def State.readyPorts (s : State) : List Port := [.m, .a, .r].filter s.ready

/-- The port that executes next: any one of those that may (R70). Where there are several the choice is a free value
(U10, log 2). -/
def State.selectPort (s : State) : Option (Port × State) :=
  match s.readyPorts with
  | [] => none
  | [p] => some (p, s)
  | p :: q :: ps => some ((p :: q :: ps).getD (Config.portChoice s.draws % (ps.length + 2)) p, s.drawn 1)

/-- Port `p` is served: `rest` is what it presents afterwards, and responses go to its path. -/
def State.serve (s : State) (p : Port) (rest : List PortItem) : State :=
  { s with pend := s.pend.set p rest, active := p }

/-- What port `p` presents, a data beat at its head, is misread from there on (R262): it is taken for a command word, and for what
may stand after one, of which the spec says nothing more, so both are free values (log 11). -/
def State.misread (s : State) (p : Port) : State :=
  { s.drawn 1 with
    pend := s.pend.set p (.word (Config.misreadWord s.draws (s.pend.get p)) :: Config.misreadRest s.draws (s.pend.get p)) }

/-- What port `p` does with what it presents, for the meaning `ex` of the commands. -/
def State.runPresented (ex : Instr → State → Result) (s : State) (p : Port) : Result :=
  match presented p (s.pend.get p) with
  | .nothing | .waiting | .stray => .next s
  | .illegal op rest => .next ((s.serve p rest).illegalCommand op)
  | .command i rest => ex i (s.serve p rest)

/-- What serving port `p` does: a stray beat is first misread as a command word, which then counts as any other (R262). -/
def State.runPort (ex : Instr → State → Result) (s : State) (p : Port) : Result :=
  match presented p (s.pend.get p) with
  | .stray => (s.misread p).runPresented ex p
  | .nothing | .waiting | .illegal _ _ | .command _ _ => s.runPresented ex p

/-- One step of the block: one command of one port, atomically (R70). With nothing to execute the block does nothing (R250). -/
def State.runStep (ex : Instr → State → Result) (s : State) : Result :=
  match s.selectPort with
  | none => .next s
  | some (p, t) => t.runPort ex p

/-- The port on which `withFetchWord` presents a word: R for the command only R accepts, else M. -/
def tablePort (w : CmdWord) : Port := if acceptsCode .r (CmdWord.op w) then .r else .m

/-- `s` with `items` presented on port `p` alone, and the guard released if it would hold `p`. -/
def State.presentOnly (s : State) (p : Port) (items : List PortItem) : State :=
  { s with
    pend := PerPort.set { m := [], a := [], r := [] } p items
    lock := s.lock && decide (p = .m) }

end Sys2Proof.Machine
end

