-- ==== Sys2Proof/Machine/Step.lean ====
section
/-! DEFINITION. One step of the block (R70), and how the host places one instruction where the next step takes it from. -/

namespace Sys2Proof.Machine

/-- One step: a port that may execute next executes one command (R70). -/
def step (s : State) : Host.Outcome State Fault Refusal := s.runStep exec

/-- `s` with the instruction of an opcode-table word (and its beats, zeros above `nbits`) presented alone, on the port that
accepts it, so that the next step executes it (log 19). -/
def State.withFetchWord (s : State) (nbits w : Nat) : State :=
  s.presentOnly (tablePort (BitVec.ofNat 48 (w % 2 ^ nbits))) (tableItems nbits w)

end Sys2Proof.Machine
end

