-- ==== Sys2Proof/Machine/Environment.lean ====
section
/-! DEFINITION. What the outside world can do to the block between two steps: present more on a port (R80), drop received bytes it
has not presented yet (R225, U8), and apply the reset (R250). None of these is a step of the block; they are the moves
under which the invariants are also stated. -/

namespace Sys2Proof.Machine

/-- The environment presents `items` on port `p`, after what it presents already (R70: commands of one port keep their order). -/
def State.present (s : State) (p : Port) (items : List PortItem) : State :=
  { s with pend := s.pend.set p (s.pend.get p ++ items) }

/-- After an `EV_RX_DISCARD` the transport drops `k` of the items not yet presented on port R; the first `shown` items are
presented already and stay (R225, R71: a held command is not lost). How many are dropped is the environment's choice (U8, log 13). -/
def State.discardReceived (s : State) (shown k : Nat) : State :=
  { s with pend := s.pend.set .r ((s.pend.get .r).take shown ++ (s.pend.get .r).drop (shown + k)) }

/-- The reset, applied from outside (R250): every register as R49 says, no event, no response outstanding, no command in
progress. The parameters, and what the environment goes on presenting, are not the block's to change. -/
def State.hardReset (s : State) : State :=
  { State.resetWith s.cfg with pend := s.pend, draws := s.draws }

end Sys2Proof.Machine
end

