-- ==== Sys2Proof/Safety.lean ====
section
/-! DEFINITION. What counts as a safe run: the invariants the spec states of the block, and their conjunction `State.Inv`, kept by every
step. From a state that meets it no command and no step stops. -/

namespace Sys2Proof.Machine

/-- R27: `count <= C`, `head` and `tail` are indices, and `(head + count) mod C = tail`; the array is in canonical form. -/
abbrev Ring.ok (C : Nat) (r : Ring) : Prop :=
  r.count.toNat ≤ C ∧ r.head.toNat < C ∧ r.tail.toNat < C ∧ (r.head.toNat + r.count.toNat) % C = r.tail.toNat ∧
  r.mem.wf = true ∧ r.mem.within C = true

/-- R31: `rx_pos` is 0 in WaitSync, 1 in ReadLength, `2 .. min(rx_len + 1, RX_POS_LIMIT)` in ReadBody, where `rx_len` is a length
the parser accepts (R143); the array is in canonical form. -/
abbrev Parser.ok (c : Config) (p : Parser) : Prop :=
  (p.state = .waitSync → p.pos.toNat = 0) ∧
  (p.state = .readLength → p.pos.toNat = 1) ∧
  (p.state = .readBody → 2 ≤ p.pos.toNat ∧ p.pos.toNat ≤ min (p.len.toNat + 1) c.rxPosLimit ∧
    c.minLen ≤ p.len.toNat ∧ p.len.toNat ≤ c.maxPkt) ∧
  p.buf.wf = true ∧ p.buf.within c.rxBufSize = true

/-- R37: `tx_off + tx_rem <= 255`; the array is in canonical form. -/
abbrev Drain.ok (d : Drain) : Prop :=
  d.off.toNat + d.rem.toNat ≤ 255 ∧ d.buf.wf = true ∧ d.buf.within Config.txBufSize = true

/-- R39, R41, R185: the baud index lies in the list, the interval in `1 .. 1000000`, and the two budget registers are those of the
baud in force and the interval. -/
abbrev Watchdog.ok (c : Config) (w : Watchdog) : Prop :=
  w.baudIdx.toNat < c.nbaud ∧ 1 ≤ w.rcInterval.toNat ∧ w.rcInterval.toNat ≤ 1000000 ∧
  budget c (c.baud.getD w.baudIdx.toNat 0).toNat w.rcInterval.toNat = some (w.maxPeriod.toNat, w.maxPacket.toNat)

/-- R44: with `HALF_DUPLEX = 0`, `line_dir` stays `RX`. -/
abbrev State.lineOk (s : State) : Prop := s.cfg.halfDuplex = false → s.lineDir = .rx

/-- The invariant of the block: a legal configuration (R5) and the invariants of R27, R31, R37, R185 and R44. -/
structure State.Inv (s : State) : Prop where
  cfg : s.cfg.ok
  ring : s.ring.ok s.cfg.fifoCap
  parser : s.parser.ok s.cfg
  drain : s.drain.ok
  wdt : s.wdt.ok s.cfg
  line : s.lineOk

/-- The edges of the connection as an event sequence shows them, from a given connection state on (R224): `none` when
`EV_CONNECTED` and `EV_DISCONNECTED` do not alternate. -/
def linkEdges : Bool → List Event → Option Bool
  | c, [] => some c
  | c, .connected :: es => if c then none else linkEdges true es
  | c, .disconnected :: es => if c then linkEdges false es else none
  | c, _ :: es => linkEdges c es

/-- R224: from reset on, the edge events alternate starting with `EV_CONNECTED`, and the last of them is the state of the flag. -/
abbrev State.edgesOk (s : State) : Prop := linkEdges false s.events = some s.link.connected

/-- The queue entries `es` as the ring buffer holds them (R28): each its length as one byte, then its bytes. -/
def wireOf (es : List (List Byte)) : List Byte := es.flatMap fun e => BitVec.ofNat 8 e.length :: e

/-- The framing invariant (R28): the queued bytes are the length-prefixed entries `es`. -/
abbrev State.framedAs (s : State) (es : List (List Byte)) : Prop :=
  s.ring.queue s.cfg.fifoCap = wireOf es ∧ ∀ e ∈ es, e.length ≤ 255

/-- The bytes of the entry in progress still to be written (R36, R37). -/
def State.inProgress (s : State) : List Byte := Memory.slice s.drain.buf s.drain.off.toNat s.drain.rem.toNat

end Sys2Proof.Machine
end

