-- ==== Sys2Proof/Certificates/Slice0/Obligations.lean ====
section
/-! DEFINITION. The statements for the provers: what the numbered rules of the spec say the block does. Every statement about one
command gives the whole next state, so what the command leaves unchanged is said by the same equation; the arrays are
spoken of through the reading of one byte. -/

/-! ### Words the statements share -/

namespace Sys2Proof.Claims

open Sys2Proof.Machine

/-- A row of the opcode map (R82, R83): on every word with opcode `code`, whatever its other bits, followed by the `count` of beats the
word announces, the decoder reads the command `mk`; and exactly the ports `ports` accept the opcode (R80). -/
def Row (code : Byte) (count : CmdWord → Nat) (mk : CmdWord → List Byte → Instr) (ports : List Port) : Prop :=
  (∀ (w : CmdWord) (d : List Byte) (rest : List PortItem), w.extractLsb' 40 8 = code → d.length = count w →
    decode (.word w :: (d.map .beat ++ rest)) = .ok (mk w d, rest)) ∧
  ∀ p, acceptsCode p code = decide (p ∈ ports)

/-- A format without data beats. -/
def noBeats : CmdWord → Nat := fun _ => 0

/-- `n = imm[15:0]`. -/
def beats16 : CmdWord → Nat := fun w => (w.extractLsb' 0 16).toNat

/-- `n = imm[39:32]`. -/
def beats8 : CmdWord → Nat := fun w => (w.extractLsb' 32 8).toNat

/-- `zext_32`. -/
def zext32 {n : Nat} (b : BitVec n) : Word32 := BitVec.ofNat 32 b.toNat

/-- The ring buffer after `fifo_flush()` (R111): the array is not changed. -/
def emptied (q : Ring) : Ring := { q with head := 0, tail := 0, count := 0 }

/-- The ring buffer `r` is `q` with the bytes `d` stored at its tail (the loop of R113), every other byte of the array as it was. -/
def Stored (C : Nat) (q r : Ring) (d : List Byte) : Prop :=
  r.head = q.head ∧ r.tail.toNat = (q.tail.toNat + d.length) % C ∧ r.count.toNat = q.count.toNat + d.length ∧
  (∀ (i : Nat) (h : i < d.length), Memory.read r.mem ((q.tail.toNat + i) % C) = d[i]) ∧
  ∀ a, (∀ i, i < d.length → a ≠ (q.tail.toNat + i) % C) → Memory.read r.mem a = Memory.read q.mem a

/-- The ring buffer `r` is what `fifo_push_bytes(d)` makes of that of `s` (R113). -/
def Pushed (s : State) (d : List Byte) (r : Ring) : Prop :=
  (s.cfg.fifoCap < s.ring.count.toNat + d.length → r = emptied s.ring) ∧
  (s.ring.count.toNat + d.length ≤ s.cfg.fifoCap → Stored s.cfg.fifoCap s.ring r d)

/-- The ring buffer `r` is `q` with its `n` oldest bytes taken out. -/
def Removed (C : Nat) (q r : Ring) (n : Nat) : Prop :=
  r.mem = q.mem ∧ r.tail = q.tail ∧ r.head.toNat = (q.head.toNat + n) % C ∧ r.count.toNat + n = q.count.toNat

/-- The array `m'` is `m` with the byte `b` at index `i`. -/
def OneByte (m m' : Memory) (i : Nat) (b : Byte) : Prop :=
  Memory.read m' i = b ∧ ∀ a, a ≠ i → Memory.read m' a = Memory.read m a

/-- The line does not keep received bytes from the parser (R141). -/
def listening (s : State) : Prop := ¬(s.cfg.halfDuplex = true ∧ s.lineDir = .tx)

/-- The parser after `rx_reset()` (R149): `RXBUF` is not cleared. -/
def resetParser (p : Parser) : Parser := { p with state := .waitSync, pos := 0, len := 0 }

/-- One shift step of the CRC register, as R130 writes it. -/
def shiftStep (poly crc : Byte) : Byte := if crc.getLsbD 7 then (crc <<< 1) ^^^ poly else crc <<< 1

/-- Commands executed one after the other. -/
def runAll : List Instr → State → Result
  | [], s => .next s
  | i :: is, s =>
    match exec i s with
    | .next t => runAll is t
    | .fault f => .fault f
    | .refused r => .refused r

/-- How many checks fail when the commands are executed one after the other from `s` (R181, R182): a check is due, and no more good
than bad packets were counted. -/
def failedChecks : List Instr → State → Nat
  | [], _ => 0
  | i :: is, s =>
    (match i with
      | .wdtTick t => if s.cfg.wdtIntervalMs ≤ (t - s.wdt.last).toNat ∧ s.link.good.toNat ≤ s.link.bad.toNat then 1 else 0
      | _ => 0) +
    match exec i s with
    | .next t => failedChecks is t
    | .fault _ | .refused _ => 0

/-- The bytes a command pushes, for the two bare pushes. -/
def pushedBytes : Instr → List Byte
  | .fifoPush b => [b]
  | .fifoPushBytes d => d
  | _ => []

/-- A bare push. -/
def barePush (i : Instr) : Prop := (∃ b, i = .fifoPush b) ∨ ∃ d, i = .fifoPushBytes d

/-- The loop of R166, line by line: from remaining budget `R`, bytes written `w` and state `s` it ends with bytes written `w'` in state
`s'`; `B` is the full period budget. -/
inductive DrainLoop (B : Nat) : Nat → Nat → State → Nat → State → Prop where
  /-- `if R = 0 then exit loop` -/
  | spent (w : Nat) (s : State) : DrainLoop B 0 w s w s
  /-- `tx_rem = 0` and `count = 0`: exit loop -/
  | idle (R w : Nat) (s : State) : R ≠ 0 → s.drain.rem = 0 → s.ring.count = 0 → DrainLoop B R w s w s
  /-- `L > count` after the pop of the prefix `L`: flush, report, exit loop -/
  | broken (R w : Nat) (s : State) : R ≠ 0 → s.drain.rem = 0 → s.ring.count ≠ 0 →
      s.ring.count.toNat - 1 < (Memory.read s.ring.mem s.ring.head.toNat).toNat →
      DrainLoop B R w s w { s with ring := emptied s.ring, events := s.events ++ [Event.fifoFraming] }
  /-- a new entry is popped into `TXBUF`: its prefix and its `L` bytes leave the ring buffer -/
  | start (R w w' : Nat) (s s' : State) (L : Byte) (r : Ring) (buf : Memory) : R ≠ 0 → s.drain.rem = 0 → s.ring.count ≠ 0 →
      L = Memory.read s.ring.mem s.ring.head.toNat → L.toNat ≤ s.ring.count.toNat - 1 →
      Removed s.cfg.fifoCap s.ring r (L.toNat + 1) →
      (∀ i, Memory.read buf i = if i < L.toNat then Memory.read s.ring.mem ((s.ring.head.toNat + 1 + i) % s.cfg.fifoCap)
        else Memory.read s.drain.buf i) → buf.wf = true →
      DrainLoop B R w { s with ring := r, drain := { buf := buf, off := 0, rem := L } } w' s' → DrainLoop B R w s w' s'
  /-- a large entry and a budget that is not fresh: deferred to the next period -/
  | defer (R w : Nat) (s : State) : R ≠ 0 → s.drain.rem ≠ 0 → s.drain.off = 0 → B < s.drain.rem.toNat → R < B →
      DrainLoop B R w s w s
  /-- `n = min(tx_rem, R)` bytes are written, the line turned to transmit before the period's first -/
  | write (R w w' n : Nat) (s s' : State) (off : Byte) : R ≠ 0 → s.drain.rem ≠ 0 →
      ¬(s.drain.off = 0 ∧ B < s.drain.rem.toNat ∧ R < B) → n = min s.drain.rem.toNat R →
      off.toNat = (if s.drain.rem.toNat = n then 0 else s.drain.off.toNat + n) →
      DrainLoop B (R - n) (w + n)
        { s with
          events := s.events ++ (if w = 0 ∧ s.cfg.halfDuplex = true then [Event.lineTx] else []) ++
            (List.range n).map fun i => Event.txByte (Memory.read s.drain.buf (s.drain.off.toNat + i))
          lineDir := if w = 0 ∧ s.cfg.halfDuplex = true then .tx else s.lineDir
          drain := { s.drain with off := off, rem := s.drain.rem - BitVec.ofNat 8 n } } w' s' →
      DrainLoop B R w s w' s'

/-- The events that close a period in which bytes were written (R166, R197). -/
def closeEvents (halfDuplex : Bool) : List Event := .txFlush :: if halfDuplex then [Event.lineRx, .rxDiscard] else []

/-- The commands that emit an event (the column "emitted by" of R222). -/
def emitters : Event → List Op
  | .connected => [.rxByte]
  | .disconnected => [.wdtTick]
  | .frame _ => [.rxByte]
  | .rxDiscard => [.rxByte, .txDrain, .duplexRx, .wdtTick]
  | .txByte _ => [.txDrain]
  | .txFlush => [.txDrain, .wdtTick]
  | .lineTx => [.txDrain, .duplexTx]
  | .lineRx => [.txDrain, .duplexRx, .wdtTick]
  | .baudSet _ => [.wdtTick]
  | .txDrop => [.txSendSimple, .txSendExt, .txSendRaw]
  | .fifoFraming => [.fifoEnsure, .txDrain]
  | .illegalCmd _ => []

/-- The response values a command may give besides 0 (R86: zero unless the command's rule says otherwise). -/
def givesValue : Op → Bool
  | .fifoPop | .fifoPeek | .fifoSize | .fifoEnsure | .crcByte | .crcBuf | .rxByte | .txSendSimple | .txSendExt | .txSendRaw
  | .txDrain | .wdtTick | .wdtRdBudget | .wdtRdBaud | .sysRdGood | .sysRdBad | .sysRdStatus => true
  | .fifoPush | .fifoPushBytes | .fifoPopBytes | .fifoFlush | .wdtSetInterval | .duplexTx | .duplexRx
  | .sysLock | .sysUnlock | .sysStop => false

end Sys2Proof.Claims

section Statements

open Sys2Proof Sys2Proof.Machine Sys2Proof.Claims

/-! ### Reset -/

/-- R49 (and R42, R43 for the budgets, R250 for what a reset from outside leaves): every register's value after reset. -/
def Obligations.ResetState : Prop :=
  (∀ s : State, s.cfg.ok →
    let t := s.hardReset
    t.ring.head = 0 ∧ t.ring.tail = 0 ∧ t.ring.count = 0 ∧
    t.parser.state = .waitSync ∧ t.parser.pos = 0 ∧ t.parser.len = 0 ∧
    t.link = { good := 0, bad := 0, connected := false } ∧
    t.drain.off = 0 ∧ t.drain.rem = 0 ∧
    t.wdt.baudIdx = 0 ∧ t.wdt.last = 0 ∧ t.wdt.rcInterval = s.cfg.rcIntervalResetUs ∧
    budget s.cfg (s.cfg.baud.headD 0).toNat s.cfg.rcIntervalResetUs.toNat = some (t.wdt.maxPeriod.toNat, t.wdt.maxPacket.toNat) ∧
    t.lineDir = .rx ∧ t.lock = false ∧ t.events = [] ∧ t.resp = { m := [], a := [], r := [] } ∧ t.cfg = s.cfg) ∧
  State.reset = (State.reset).hardReset ∧ State.reset.cfg = Config.default ∧
  State.reset.wdt.maxPeriod = 80 ∧ State.reset.wdt.maxPacket = 64

/-- The invariants hold after reset, for every legal configuration, and for the reference system. -/
def Obligations.ResetMeetsInvariant : Prop :=
  (∀ c : Config, c.ok → (State.resetWith c).Inv ∧ (State.resetWith c).edgesOk) ∧ State.reset.Inv

/-! ### Commands as words and beats -/

/-- A few words written out in spec/95_test_vectors.md decode to the commands they stand for there (T1, T4, K14, W9, F15, Y6). -/
def Obligations.WordsDecode : Prop :=
  decode [.word 0x4002000014EA, .beat 0xAA, .beat 0xBB] = .ok (.txSendSimple 0xEA 0x14 [0xAA, 0xBB], []) ∧
  decode [.word 0x4102EAEE2DEA, .beat 0x05, .beat 0x01] = .ok (.txSendExt 0xEA 0x2D 0xEE 0xEA [0x05, 0x01], []) ∧
  decode [.word 0x210000AC0002, .beat 0xAA, .beat 0xBB] = .ok (.crcBuf 0xAC [0xAA, 0xBB], []) ∧
  decode [.word 0x20000000FF00] = .ok (.crcByte 0x00 0xFF, []) ∧
  decode [.word 0x510000000FA0] = .ok (.wdtSetInterval 4000, []) ∧
  decode [.word 0x170000000032] = .ok (.fifoEnsure 50, []) ∧
  decode [.word 0x3000000000C8] = .ok (.rxByte 0xC8, []) ∧
  decode [.word 0x7F0000000000] = .ok (.sysStop, [])

/-- Every well-formed command, at every value of every operand, is decoded back from its word and beats, whatever follows. -/
def Obligations.EncodeDecode : Prop :=
  ∀ (i : Instr) (rest : List PortItem), i.wf → decode (encode i ++ rest) = .ok (i, rest)

/-- What is decoded is well-formed, and was presented as the command's own word, but for bits its format does not name, and its own
beats (R82, R85). -/
def Obligations.DecodedIsWellFormed : Prop :=
  ∀ (items rest : List PortItem) (i : Instr), decode items = .ok (i, rest) →
    i.wf ∧ ∃ w, items = .word w :: (i.data.map .beat ++ rest) ∧ w &&& i.op.format.namedBits = i.word

/-- Bits of the immediate that a format does not name are ignored (R82). -/
def Obligations.UnnamedBitsIgnored : Prop :=
  ∀ (w w' : CmdWord) (o : Op) (rest : List PortItem), Op.ofCode (CmdWord.op w) = some o →
    w &&& o.format.namedBits = w' &&& o.format.namedBits → decode (.word w :: rest) = decode (.word w' :: rest)

/-- R87: the reserved opcodes are exactly those listed; a word with one, or with an opcode its port does not accept, changes no state,
is consumed alone, and answers `ILLEGAL`; on ports A and R it is held while `lock = 1`. -/
def Obligations.IllegalCommand : Prop :=
  (∀ c : Byte, (∀ p, acceptsCode p c = false) ↔
    c.toNat ≤ 0x0F ∨ (0x18 ≤ c.toNat ∧ c.toNat ≤ 0x1F) ∨ (0x22 ≤ c.toNat ∧ c.toNat ≤ 0x2F) ∨ (0x31 ≤ c.toNat ∧ c.toNat ≤ 0x3F) ∨
    (0x44 ≤ c.toNat ∧ c.toNat ≤ 0x4F) ∨ (0x54 ≤ c.toNat ∧ c.toNat ≤ 0x5F) ∨ (0x62 ≤ c.toNat ∧ c.toNat ≤ 0x6F) ∨
    (0x75 ≤ c.toNat ∧ c.toNat ≤ 0x7E) ∨ 0x80 ≤ c.toNat) ∧
  (∀ (s t : State) (p : Port) (w : CmdWord) (rest : List PortItem), s.selectPort = some (p, t) → s.pend.get p = .word w :: rest →
    acceptsCode p (w.extractLsb' 40 8) = false →
    step s = .next ({ t with
      pend := t.pend.set p rest, active := p, events := t.events ++ [Event.illegalCmd (w.extractLsb' 40 8)] }.respond .illegal 0 [])) ∧
  ∀ (s : State) (p : Port) (w : CmdWord) (rest : List PortItem), s.pend.get p = .word w :: rest →
    acceptsCode p (w.extractLsb' 40 8) = false → (s.ready p = true ↔ s.lock = false ∨ p = .m)

/-- A command whose beats have not all come does not execute and its port does not move; its word is what stands on the port after the
step too (R85). With all its beats it is ready, unless held. -/
def Obligations.BeatsAwaited : Prop :=
  (∀ (s : State) (p : Port) (w : CmdWord) (o : Op) (d : List Byte), Op.ofCode (w.extractLsb' 40 8) = some o →
    s.pend.get p = .word w :: d.map .beat → d.length < o.format.beats w → o.accepts p = true →
    s.ready p = false ∧ ∀ t, s.Inv → step s = .next t → t.pend.get p = s.pend.get p ∧ t.resp.get p = s.resp.get p) ∧
  ∀ (s : State) (p : Port) (i : Instr) (rest : List PortItem), i.wf → s.pend.get p = encode i ++ rest → i.op.accepts p = true →
    (s.ready p = true ↔ s.lock = false ∨ p = .m)

/-! ### Ports and steps -/

/-- Which port goes next (R70): none exactly when none is ready; one that is ready; where only one is, that one, with nothing drawn; where
several are, the entry of the list of ready ports at the next free value, modulo the list's length, and every ready port is such an entry.
The spec gives no choice between them (U10): drawing it from a free value is the model's form (log 2), and nothing is said of the value. -/
def Obligations.Arbitration : Prop :=
  (∀ s : State, s.selectPort = none ↔ ∀ p, s.ready p = false) ∧
  (∀ (s t : State) (p : Port), s.selectPort = some (p, t) → s.ready p = true ∧ (t = s ∨ t = { s with draws := s.draws + 1 })) ∧
  (∀ (s : State) (p : Port), s.ready p = true → (∀ q, q ≠ p → s.ready q = false) → s.selectPort = some (p, s)) ∧
  (∀ (s : State) (p : Port), s.ready p = true ↔ ∃ k, k < s.readyPorts.length ∧ s.readyPorts[k]? = some p) ∧
  ∀ s : State, 2 ≤ s.readyPorts.length → ∃ p : Port,
    s.readyPorts[Config.portChoice s.draws % s.readyPorts.length]? = some p ∧
    s.selectPort = some (p, { s with draws := s.draws + 1 })

/-- A step runs the decoded command: of the port that is selected, with what is presented after the command left on the port and the
response going to the port's path. -/
def Obligations.StepRunsDecoded : Prop :=
  (∀ (s t : State) (p : Port) (i : Instr) (rest : List PortItem), s.selectPort = some (p, t) →
    decode (s.pend.get p) = .ok (i, rest) → i.op.accepts p = true →
    step s = exec i { t with pend := t.pend.set p rest, active := p }) ∧
  ∀ (s : State) (p : Port) (i : Instr) (rest : List PortItem), decode (s.pend.get p) = .ok (i, rest) → i.op.accepts p = true →
    (s.lock = false ∨ p = .m) → (∀ q, q ≠ p → s.pend.get q = []) →
    step s = exec i { s with pend := s.pend.set p rest, active := p }

/-- With nothing ready the block does nothing. R250 says so of the time after a reset, until a command arrives. That a step with no ready
port, a held or a waiting one included, answers the same state is the model's choice (log 12). -/
def Obligations.IdleStep : Prop :=
  (∀ s : State, (∀ p, s.ready p = false) → step s = .next s) ∧ step State.reset = .next State.reset

/-- A beat where a command word is due, which R262 tells the environment not to present: the stream is misread from there on and the block
goes on. What it is misread as, a word `w` and `items` after it, are free values (log 11), of which nothing is said; `w` then counts as any
word of the port: illegal, a command, or a command whose beats are awaited. And so no step stops, whatever the ports present. -/
def Obligations.StrayBeatMisread : Prop :=
  (∀ (s t : State) (p : Port) (b : Byte) (rest : List PortItem), s.selectPort = some (p, t) → s.pend.get p = .beat b :: rest →
    ∃ (w : CmdWord) (items : List PortItem), let u := { t with draws := t.draws + 1 }
      (acceptsCode p (w.extractLsb' 40 8) = false → step s = .next ({ u with
        pend := s.pend.set p items, active := p
        events := s.events ++ [Event.illegalCmd (w.extractLsb' 40 8)] }.respond .illegal 0 [])) ∧
      (∀ (i : Instr) (items' : List PortItem), decode (.word w :: items) = .ok (i, items') → i.op.accepts p = true →
        step s = exec i { u with pend := s.pend.set p items', active := p }) ∧
      (acceptsCode p (w.extractLsb' 40 8) = true → (∀ x, decode (.word w :: items) ≠ .ok x) →
        step s = .next { u with pend := s.pend.set p (.word w :: items) })) ∧
  ∀ s : State, s.Inv → ∃ t, step s = .next t

/-- R71: while `lock = 1` no command of port A or R executes and what they present stays as it is; port M is never held; only
`SYS.UNLOCK` and `SYS.STOP` lift the hold, and a held command is eligible as soon as it is lifted. -/
def Obligations.GuardHoldsPorts : Prop :=
  (∀ (s t : State) (p : Port), s.Inv → s.lock = true → p ≠ .m → step s = .next t →
    t.pend.get p = s.pend.get p ∧ t.resp.get p = s.resp.get p) ∧
  (∀ (s : State) (p : Port), s.lock = true → p ≠ .m → s.ready p = false) ∧
  (∀ (s : State) (l : Bool), { s with lock := l }.ready .m = s.ready .m) ∧
  (∀ (i : Instr) (s t : State), s.Inv → s.lock = true → exec i s = .next t → t.lock = false → i = .sysUnlock ∨ i = .sysStop) ∧
  ∀ (s : State) (p : Port) (i : Instr) (rest : List PortItem), i.wf → s.pend.get p = encode i ++ rest → i.op.accepts p = true →
    s.lock = false → s.ready p = true

/-- Commands of one port execute in the order the port presents them (R70): a step takes at most one command, from the head of one port,
and answers there once; the other ports' items and responses stay. Where that port presented a beat for a word, what it presents is misread
(R262, log 11): of it nothing is said, but it answers at most once and the other ports are as little touched. -/
def Obligations.PortOrderKept : Prop :=
  ∀ s t : State, s.Inv → step s = .next t →
    t = s ∨ ∃ p : Port, s.ready p = true ∧ (∀ q, q ≠ p → t.pend.get q = s.pend.get q ∧ t.resp.get q = s.resp.get q) ∧
      ((∃ (w : CmdWord) (d : List Byte) (x : Response), s.pend.get p = .word w :: (d.map .beat ++ t.pend.get p) ∧
          t.resp.get p = s.resp.get p ++ [x]) ∨
        (∃ (b : Byte) (rest : List PortItem), s.pend.get p = .beat b :: rest) ∧
          ∃ xs : List Response, t.resp.get p = s.resp.get p ++ xs ∧ xs.length ≤ 1)

/-- Every step keeps the invariant: the legal configuration, the ring buffer's congruence (R27) and range, the parser's positions (R31), the
drain's bound (R37), the watchdog's ranges and budgets (R39, R41, R185), the direction on a full-duplex line (R44), and the canonical
form of the three arrays. -/
def Obligations.StepKeepsInvariant : Prop := ∀ s t : State, s.Inv → step s = .next t → t.Inv

/-- R220: no command raises a trap; every command completes with one response on the port it came from. -/
def Obligations.EveryCommandCompletes : Prop :=
  ∀ (i : Instr) (s : State), s.Inv → ∃ (t : State) (x : Response), exec i s = .next t ∧
    t.resp.get s.active = s.resp.get s.active ++ [x] ∧ ∀ p, p ≠ s.active → t.resp.get p = s.resp.get p

/-- R86: one response; data only from `FIFO.POP_BYTES`; `REFUSED` only from `WDT.SET_INTERVAL`, `ILLEGAL` from no command that executes;
the value zero unless the command's rule says otherwise; the numeric codes; and no response from a port that is held. -/
def Obligations.OneResponsePerCommand : Prop :=
  (∀ (i : Instr) (s t : State), s.Inv → exec i s = .next t →
    ∃ (st : Status) (v : Word32) (d : List Byte), t.resp = s.resp.set s.active (s.resp.get s.active ++ [⟨st, v, d⟩]) ∧
      (d ≠ [] → i.op = .fifoPopBytes) ∧ st ≠ .illegal ∧ (st = .refused → i.op = .wdtSetInterval) ∧
      (givesValue i.op = false → v = 0)) ∧
  (Status.code .ok = 0 ∧ Status.code .illegal = 1 ∧ Status.code .refused = 2) ∧
  ∀ (s t : State) (p : Port), s.Inv → s.lock = true → p ≠ .m → step s = .next t → t.resp.get p = s.resp.get p

/-- R221: a command appends its events to the sequence and never reads the sequence back: with another history it does the same. -/
def Obligations.HistoryOnlyAppended : Prop :=
  ∀ (i : Instr) (s t : State), s.Inv → exec i s = .next t →
    ∃ es : List Event, t.events = s.events ++ es ∧
      ∀ before : List Event, exec i { s with events := before } = .next { t with events := before ++ es }

/-- R222: which command emits which event, and the numeric codes; an illegal command's event comes from no command that executes. -/
def Obligations.EventTable : Prop :=
  (∀ (i : Instr) (s t : State), s.Inv → exec i s = .next t → ∀ e ∈ t.events.drop s.events.length, i.op ∈ emitters e) ∧
  (∀ (f : List Byte) (b c : Byte) (v : Word32),
    [Event.connected, .disconnected, .frame f, .rxDiscard, .txByte b, .txFlush, .lineTx, .lineRx, .baudSet v, .txDrop,
      .fifoFraming, .illegalCmd c].map Event.code = [0x01, 0x02, 0x03, 0x04, 0x05, 0x06, 0x07, 0x08, 0x09, 0x0A, 0x0B, 0x0C])

/-- `EV_CONNECTED` and `EV_DISCONNECTED` alternate, starting with `EV_CONNECTED`, and the last of them is the state of the flag (R224):
kept by every step, so it holds in every run from a reset. -/
def Obligations.ConnectionEdgesAlternate : Prop := ∀ s t : State, s.Inv → step s = .next t → s.edgesOk → t.edgesOk

/-- R72: what the commands of ports A and R can write. -/
def Obligations.ContextRights : Prop :=
  (∀ (i : Instr) (s t : State), i.op.accepts .a = true → exec i s = .next t →
    t = { s with ring := t.ring, events := t.events, resp := t.resp } ∧ (t.events = s.events ∨ t.events = s.events ++ [Event.txDrop])) ∧
  ∀ (i : Instr) (s t : State), i.op.accepts .r = true → exec i s = .next t →
    t = { s with parser := t.parser, link := t.link, events := t.events, resp := t.resp }

/-- Each register and array is written only by the commands whose rules write it (R23 to R45). The clauses on `cfg`, `pend`, `active` and
`draws` are about the model's own fields and so are the model's choice (log 5, log 1, log 8; the draws of `FIFO.POP_BYTES` log 3). -/
def Obligations.WritersOfRegisters : Prop :=
  ∀ (i : Instr) (s t : State), s.Inv → exec i s = .next t →
    t.cfg = s.cfg ∧ t.pend = s.pend ∧ t.active = s.active ∧
    (i.op ∉ [.sysLock, .sysUnlock, .sysStop] → t.lock = s.lock) ∧
    (i.op ∉ [.rxByte, .wdtTick] → t.link.connected = s.link.connected) ∧
    (i.op ∉ [.rxByte, .wdtTick, .sysStop] → t.link = s.link) ∧
    (i.op ≠ .wdtTick → t.wdt.baudIdx = s.wdt.baudIdx ∧ t.wdt.last = s.wdt.last) ∧
    (i.op ≠ .wdtSetInterval → t.wdt.rcInterval = s.wdt.rcInterval) ∧
    (i.op ∉ [.wdtTick, .wdtSetInterval] → t.wdt = s.wdt) ∧
    (i.op ∉ [.txDrain, .duplexTx, .duplexRx, .wdtTick] → t.lineDir = s.lineDir) ∧
    (i.op ≠ .txDrain → t.drain.buf = s.drain.buf) ∧
    (i.op ∉ [.txDrain, .sysStop] → t.drain = s.drain) ∧
    (i.op ≠ .rxByte → t.parser.buf = s.parser.buf) ∧
    (i.op ∉ [.rxByte, .sysStop] → t.parser = s.parser) ∧
    (i.op ∉ [.fifoPush, .fifoPushBytes, .txSendSimple, .txSendExt, .txSendRaw] → t.ring.mem = s.ring.mem) ∧
    (i.op ∉ [.fifoPush, .fifoPushBytes, .txSendSimple, .txSendExt, .txSendRaw, .fifoPop, .fifoPopBytes, .fifoFlush, .fifoEnsure,
      .txDrain, .wdtTick, .sysStop] → t.ring = s.ring) ∧
    (i.op ≠ .fifoPopBytes → t.draws = s.draws)

/-- What the environment does between two steps keeps the invariant, and dropping received bytes it has not presented (R225) changes
nothing else: the parser in particular. That the drop is an operation on `pend.r` beside the step is the model's choice (log 13), and so is
that a reset, of which R250 does not say it, leaves what the environment presents as it is (log 1). -/
def Obligations.EnvironmentMoves : Prop :=
  (∀ (s : State) (p : Port) (items : List PortItem), s.Inv → (s.present p items).Inv ∧
    (s.present p items).pend.get p = s.pend.get p ++ items) ∧
  (∀ (s : State) (shown k : Nat), s.Inv → (s.discardReceived shown k).Inv ∧
    s.discardReceived shown k = { s with pend := (s.discardReceived shown k).pend } ∧
    (s.discardReceived shown k).pend.m = s.pend.m ∧ (s.discardReceived shown k).pend.a = s.pend.a ∧
    ∃ dropped : List PortItem, s.pend.r = (s.pend.r.take shown) ++ (dropped ++ s.pend.r.drop (shown + k)) ∧ dropped.length ≤ k ∧
      (s.discardReceived shown k).pend.r = s.pend.r.take shown ++ s.pend.r.drop (shown + k)) ∧
  ∀ s : State, s.Inv → s.hardReset.Inv ∧ s.hardReset.pend = s.pend

/-! ### Ring buffer -/

/-- R120 with R112. -/
def Obligations.FifoPush : Prop :=
  Row 0x10 noBeats (fun w _ => .fifoPush (w.extractLsb' 0 8)) [.m, .a] ∧
  ∀ (s : State) (b : Byte), s.Inv → ∃ r : Ring, exec (.fifoPush b) s = .next ({ s with ring := r }.respond .ok 0 []) ∧
    (s.ring.count.toNat = s.cfg.fifoCap → r = emptied s.ring) ∧
    (s.ring.count.toNat < s.cfg.fifoCap → Stored s.cfg.fifoCap s.ring r [b])

/-- R121 with R113. -/
def Obligations.FifoPushBytes : Prop :=
  Row 0x11 beats16 (fun _ d => .fifoPushBytes d) [.m, .a] ∧
  ∀ (s : State) (d : List Byte), s.Inv → ∃ r : Ring,
    exec (.fifoPushBytes d) s = .next ({ s with ring := r }.respond .ok 0 []) ∧ Pushed s d r

/-- R122 with R114. -/
def Obligations.FifoPop : Prop :=
  Row 0x12 noBeats (fun _ _ => .fifoPop) [.m] ∧
  ∀ s : State, s.Inv →
    (s.ring.count = 0 → exec .fifoPop s = .next ({ s with ring := emptied s.ring }.respond .ok 0 [])) ∧
    (s.ring.count ≠ 0 → ∃ r : Ring, Removed s.cfg.fifoCap s.ring r 1 ∧
      exec .fifoPop s = .next ({ s with ring := r }.respond .ok (zext32 (Memory.read s.ring.mem s.ring.head.toNat)) []))

/-- R123 with R115. On underrun the data are bytes of which only the number is said: this holds whatever the free bytes are. That an
underrun advances the counter `draws` by `n` is the model's own (log 3, log 8), no rule's. -/
def Obligations.FifoPopBytes : Prop :=
  Row 0x13 noBeats (fun w _ => .fifoPopBytes (w.extractLsb' 0 16)) [.m] ∧
  ∀ (s : State) (n : BitVec 16), s.Inv →
    (s.ring.count.toNat < n.toNat → ∃ d : List Byte, d.length = n.toNat ∧
      exec (.fifoPopBytes n) s = .next ({ s with ring := emptied s.ring, draws := s.draws + n.toNat }.respond .ok 0 d)) ∧
    (n.toNat ≤ s.ring.count.toNat → ∃ r : Ring, Removed s.cfg.fifoCap s.ring r n.toNat ∧
      exec (.fifoPopBytes n) s = .next ({ s with ring := r }.respond .ok 0
        ((List.range n.toNat).map fun i => Memory.read s.ring.mem ((s.ring.head.toNat + i) % s.cfg.fifoCap))))

/-- R124 with R116, and R125. -/
def Obligations.FifoPeekAndSize : Prop :=
  Row 0x14 noBeats (fun _ _ => .fifoPeek) [.m] ∧ Row 0x15 noBeats (fun _ _ => .fifoSize) [.m] ∧
  ∀ s : State, s.Inv →
    (s.ring.count = 0 → exec .fifoPeek s = .next (s.respond .ok 0 [])) ∧
    (s.ring.count ≠ 0 → exec .fifoPeek s = .next (s.respond .ok (zext32 (Memory.read s.ring.mem s.ring.head.toNat)) [])) ∧
    exec .fifoSize s = .next (s.respond .ok (zext32 s.ring.count) []) ∧ s.ring.count.toNat ≤ s.cfg.fifoCap

/-- R126 with R111: an entry already popped by a drain is not cancelled. -/
def Obligations.FifoFlush : Prop :=
  Row 0x16 noBeats (fun _ _ => .fifoFlush) [.m] ∧
  ∀ s : State, exec .fifoFlush s = .next ({ s with ring := emptied s.ring }.respond .ok 0 [])

/-- R127 with R118: the loop said pass by pass. Each pass with too little room reads the head entry's prefix `L`; if more is claimed than is
queued the buffer is flushed and the violation reported, else the command goes on as from the buffer without that entry. -/
def Obligations.FifoEnsure : Prop :=
  Row 0x17 noBeats (fun w _ => .fifoEnsure (w.extractLsb' 0 16)) [.m] ∧
  ∀ (s : State) (n : BitVec 16), s.Inv →
    (s.cfg.fifoCap < n.toNat → exec (.fifoEnsure n) s = .next (s.respond .ok 0 [])) ∧
    (n.toNat + s.ring.count.toNat ≤ s.cfg.fifoCap → exec (.fifoEnsure n) s = .next (s.respond .ok 1 [])) ∧
    (n.toNat ≤ s.cfg.fifoCap → s.cfg.fifoCap < n.toNat + s.ring.count.toNat →
      s.ring.count.toNat - 1 < (Memory.read s.ring.mem s.ring.head.toNat).toNat →
      exec (.fifoEnsure n) s =
        .next ({ s with ring := emptied s.ring, events := s.events ++ [Event.fifoFraming] }.respond .ok 1 [])) ∧
    (n.toNat ≤ s.cfg.fifoCap → s.cfg.fifoCap < n.toNat + s.ring.count.toNat →
      (Memory.read s.ring.mem s.ring.head.toNat).toNat ≤ s.ring.count.toNat - 1 →
      ∃ r : Ring, Removed s.cfg.fifoCap s.ring r ((Memory.read s.ring.mem s.ring.head.toNat).toNat + 1) ∧
        exec (.fifoEnsure n) s = exec (.fifoEnsure n) { s with ring := r }) ∧
    ∃ (r : Ring) (es : List Event) (v : Word32),
      exec (.fifoEnsure n) s = .next ({ s with ring := r, events := s.events ++ es }.respond .ok v []) ∧ r.mem = s.ring.mem ∧
      (n.toNat ≤ s.cfg.fifoCap → v = 1 ∧ n.toNat + r.count.toNat ≤ s.cfg.fifoCap)

/-- R119 (a), the FIFO law: what any mix of bare pushes within capacity puts in is what pops return, after what was queued, in order. -/
def Obligations.FifoLaw : Prop :=
  ∀ (s : State) (pushes : List Instr), s.Inv → (∀ i ∈ pushes, barePush i) →
    s.ring.count.toNat + (pushes.flatMap pushedBytes).length ≤ s.cfg.fifoCap →
    ∃ t : State, runAll (pushes ++ List.replicate (s.ring.count.toNat + (pushes.flatMap pushedBytes).length) .fifoPop) s = .next t ∧
      t.ring.count = 0 ∧ t.events = s.events ∧
      t.resp.get s.active = s.resp.get s.active ++ pushes.map (fun _ => ⟨.ok, 0, []⟩) ++
        (s.ring.queue s.cfg.fifoCap ++ pushes.flatMap pushedBytes).map fun b => ⟨.ok, zext32 b, []⟩

/-- R119 (c), the ensure law: on a well-framed queue `FIFO.ENSURE` drops whole entries, the oldest first and no more than it must. -/
def Obligations.EnsureDropsWholeEntries : Prop :=
  ∀ (s : State) (n : BitVec 16) (es : List (List Byte)), s.Inv → s.framedAs es → n.toNat ≤ s.cfg.fifoCap →
    ∃ (k : Nat) (r : Ring), exec (.fifoEnsure n) s = .next ({ s with ring := r }.respond .ok 1 []) ∧
      r.queue s.cfg.fifoCap = wireOf (es.drop k) ∧ n.toNat + (wireOf (es.drop k)).length ≤ s.cfg.fifoCap ∧
      ∀ j, j < k → s.cfg.fifoCap < n.toNat + (wireOf (es.drop j)).length

/-- The framing invariant (R28) is kept by every command but the four bare ones: what stays queued are the youngest of the whole entries, or
none of them after an overflow or another flush, and a builder adds its frame, which holds its payload, as one entry. -/
def Obligations.FramingKept : Prop :=
  ∀ (s t : State) (es : List (List Byte)) (i : Instr), s.Inv → s.framedAs es → exec i s = .next t →
    i.op ∉ [.fifoPush, .fifoPushBytes, .fifoPop, .fifoPopBytes] →
    (∃ k, t.framedAs (es.drop k)) ∨
      ∃ f : List Byte, i.op ∈ [.txSendSimple, .txSendExt, .txSendRaw] ∧ i.data <:+: f ∧ t.framedAs (es ++ [f])

/-! ### CRC8 -/

/-- R130: the register starts at the seed; each byte is exclusive-ored in, then 8 shift steps follow, most significant bit first; a table of
256 entries computes the same. -/
def Obligations.CrcAlgorithm : Prop :=
  ∀ (poly seed b : Byte) (d : List Byte),
    crc8 poly seed [] = seed ∧
    crc8 poly seed (b :: d) = crc8 poly ((shiftStep poly)^[8] (seed ^^^ b)) d ∧
    crc8 poly seed (b :: d) = crc8 poly (crc8 poly 0 [seed ^^^ b]) d

/-- R132 and R133. -/
def Obligations.CrcCommands : Prop :=
  Row 0x20 noBeats (fun w _ => .crcByte (w.extractLsb' 0 8) (w.extractLsb' 8 8)) [.m, .a] ∧
  Row 0x21 beats16 (fun w d => .crcBuf (w.extractLsb' 16 8) d) [.m, .a] ∧
  (∀ (s : State) (b seed : Byte), exec (.crcByte b seed) s = .next (s.respond .ok (zext32 (crc8 s.cfg.crcPoly seed [b])) [])) ∧
  ∀ (s : State) (seed : Byte) (d : List Byte), exec (.crcBuf seed d) s = .next (s.respond .ok (zext32 (crc8 s.cfg.crcPoly seed d)) [])

/-- R131 (b) to (e), for every polynomial: chaining, leading zeros, the seed folded into the first byte, a message followed by its CRC. -/
def Obligations.CrcAlgebra : Prop :=
  ∀ (poly seed b : Byte) (d e : List Byte) (k : Nat),
    crc8 poly seed (d ++ e) = crc8 poly (crc8 poly seed d) e ∧
    crc8 poly 0 (List.replicate k 0 ++ d) = crc8 poly 0 d ∧
    crc8 poly seed [b] = crc8 poly 0 [seed ^^^ b] ∧
    crc8 poly 0 (d ++ [crc8 poly 0 d]) = 0

/-- Changing one byte changes the CRC, for every polynomial with bit 0 set (R151). -/
def Obligations.CrcDetectsOneByte : Prop :=
  ∀ (poly seed b b' : Byte) (d e : List Byte), poly.getLsbD 0 = true → b ≠ b' →
    crc8 poly seed (d ++ b :: e) ≠ crc8 poly seed (d ++ b' :: e)

/-! ### Frame parser -/

/-- R141 and R142: the line-direction test, and the hunt for a sync value. -/
def Obligations.RxWaitSync : Prop :=
  Row 0x30 noBeats (fun w _ => .rxByte (w.extractLsb' 0 8)) [.r] ∧
  (∀ (s : State) (b : Byte), ¬listening s → exec (.rxByte b) s = .next (s.respond .ok 0 [])) ∧
  (∀ (s : State) (b : Byte), listening s → s.parser.state = .waitSync → b ∉ s.cfg.syncSet →
    exec (.rxByte b) s = .next (s.respond .ok 0 [])) ∧
  ∀ (s : State) (b : Byte), s.Inv → listening s → s.parser.state = .waitSync → b ∈ s.cfg.syncSet →
    ∃ buf : Memory, OneByte s.parser.buf buf 0 b ∧
      exec (.rxByte b) s = .next ({ s with parser := { s.parser with buf := buf, pos := 1, state := .readLength } }.respond .ok 0 [])

/-- R143: a declared length outside `MIN_LEN .. MAX_PKT` aborts; one inside, both ends included, is stored. -/
def Obligations.RxReadLength : Prop :=
  ∀ (s : State) (b : Byte), s.Inv → listening s → s.parser.state = .readLength →
    (s.cfg.maxPkt < b.toNat ∨ b.toNat < s.cfg.minLen →
      exec (.rxByte b) s = .next ({ s with parser := resetParser s.parser }.respond .ok 0 [])) ∧
    (s.cfg.minLen ≤ b.toNat → b.toNat ≤ s.cfg.maxPkt → ∃ buf : Memory, OneByte s.parser.buf buf 1 b ∧
      exec (.rxByte b) s = .next ({ s with parser := { buf := buf, state := .readBody, pos := 2, len := b } }.respond .ok 0 []))

/-- R144 and R145: a body byte that meets the position limit resets the parser and is lost; one below it is stored. -/
def Obligations.RxReadBody : Prop :=
  ∀ (s : State) (b : Byte), s.Inv → listening s → s.parser.state = .readBody →
    (s.cfg.rxPosLimit ≤ s.parser.pos.toNat →
      exec (.rxByte b) s = .next ({ s with parser := resetParser s.parser }.respond .ok 0 [])) ∧
    (s.parser.pos.toNat < s.cfg.rxPosLimit → s.parser.pos.toNat + 1 < s.parser.len.toNat + 2 →
      ∃ (buf : Memory) (pos : Byte), OneByte s.parser.buf buf s.parser.pos.toNat b ∧ pos.toNat = s.parser.pos.toNat + 1 ∧
        exec (.rxByte b) s = .next ({ s with parser := { s.parser with buf := buf, pos := pos } }.respond .ok 0 []))

/-- R146 to R149: the byte that completes a frame. On a CRC match the frame is counted and handed out, after `EV_CONNECTED` if the link was
down; on a mismatch it is counted as bad and the transport asked to discard; then the parser is reset. -/
def Obligations.RxComplete : Prop :=
  ∀ (s : State) (b : Byte), s.Inv → listening s → s.parser.state = .readBody → s.parser.pos.toNat < s.cfg.rxPosLimit →
    s.parser.len.toNat + 2 ≤ s.parser.pos.toNat + 1 →
    ∃ buf : Memory, OneByte s.parser.buf buf s.parser.pos.toNat b ∧
      exec (.rxByte b) s =
        if crc8 s.cfg.crcPoly 0 ((List.range (s.parser.len.toNat - 1)).map fun k => Memory.read s.parser.buf (2 + k)) = b then
          .next ({ s with
            parser := { resetParser s.parser with buf := buf }
            link := { good := s.link.good + 1, bad := s.link.bad, connected := true }
            events := s.events ++ (if s.link.connected then [] else [Event.connected]) ++
              [Event.frame ((List.range (s.parser.len.toNat + 1)).map (fun k => Memory.read s.parser.buf k) ++ [b])] }.respond .ok 1 [])
        else
          .next ({ s with
            parser := { resetParser s.parser with buf := buf }
            link := { s.link with bad := s.link.bad + 1 }
            events := s.events ++ [Event.rxDiscard] }.respond .ok 2 [])

/-- R151: a byte-correct frame fed byte by byte to a waiting parser is dispatched exactly once, the very frame, and counted good; with a
CRC byte that is not the frame's it is not dispatched and only the bad counter moves. -/
def Obligations.RxWholeFrame : Prop :=
  ∀ (s : State) (sync typ crc : Byte) (d : List Byte), s.Inv → listening s → s.parser.state = .waitSync → sync ∈ s.cfg.syncSet →
    s.cfg.minLen ≤ d.length + 2 → d.length + 2 ≤ s.cfg.maxPkt → d.length + 4 ≤ s.cfg.rxPosLimit →
    ∃ buf : Memory,
      runAll (([sync, BitVec.ofNat 8 (d.length + 2), typ] ++ d ++ [crc]).map .rxByte) s =
        if crc8 s.cfg.crcPoly 0 (typ :: d) = crc then
          .next { s with
            parser := { buf := buf, state := .waitSync, pos := 0, len := 0 }
            link := { good := s.link.good + 1, bad := s.link.bad, connected := true }
            events := s.events ++ (if s.link.connected then [] else [Event.connected]) ++
              [Event.frame ([sync, BitVec.ofNat 8 (d.length + 2), typ] ++ d ++ [crc])]
            resp := s.resp.set s.active (s.resp.get s.active ++ List.replicate (d.length + 3) ⟨.ok, 0, []⟩ ++ [⟨.ok, 1, []⟩]) }
        else
          .next { s with
            parser := { buf := buf, state := .waitSync, pos := 0, len := 0 }
            link := { s.link with bad := s.link.bad + 1 }
            events := s.events ++ [Event.rxDiscard]
            resp := s.resp.set s.active (s.resp.get s.active ++ List.replicate (d.length + 3) ⟨.ok, 0, []⟩ ++ [⟨.ok, 2, []⟩]) }

/-! ### Frame builders and drain -/

/-- R162, with the frame of R92, the CRC of R94 and the entry of R161. -/
def Obligations.SendSimple : Prop :=
  Row 0x40 beats8 (fun w d => .txSendSimple (w.extractLsb' 0 8) (w.extractLsb' 8 8) d) [.m, .a] ∧
  ∀ (s : State) (addr typ : Byte) (d : List Byte), s.Inv →
    (255 < d.length + 4 →
      exec (.txSendSimple addr typ d) s = .next ({ s with events := s.events ++ [Event.txDrop] }.respond .ok 0 [])) ∧
    (d.length + 4 ≤ 255 → ∃ r : Ring,
      exec (.txSendSimple addr typ d) s = .next ({ s with ring := r }.respond .ok 1 []) ∧
      Pushed s ([BitVec.ofNat 8 (d.length + 4), addr, BitVec.ofNat 8 (d.length + 2), typ] ++ d ++
        [crc8 s.cfg.crcPoly 0 ([typ] ++ d)]) r)

/-- R163, with the frame of R93: destination and origin after the type, destination first, under the CRC. -/
def Obligations.SendExt : Prop :=
  Row 0x41 beats8 (fun w d => .txSendExt (w.extractLsb' 0 8) (w.extractLsb' 8 8) (w.extractLsb' 16 8) (w.extractLsb' 24 8) d)
    [.m, .a] ∧
  ∀ (s : State) (addr typ dest orig : Byte) (d : List Byte), s.Inv →
    (255 < d.length + 6 →
      exec (.txSendExt addr typ dest orig d) s = .next ({ s with events := s.events ++ [Event.txDrop] }.respond .ok 0 [])) ∧
    (d.length + 6 ≤ 255 → ∃ r : Ring,
      exec (.txSendExt addr typ dest orig d) s = .next ({ s with ring := r }.respond .ok 1 []) ∧
      Pushed s ([BitVec.ofNat 8 (d.length + 6), addr, BitVec.ofNat 8 (d.length + 4), typ, dest, orig] ++ d ++
        [crc8 s.cfg.crcPoly 0 ([typ, dest, orig] ++ d)]) r)

/-- R164: a raw frame is queued exactly as given, or dropped. -/
def Obligations.SendRaw : Prop :=
  Row 0x42 beats16 (fun _ d => .txSendRaw d) [.m, .a] ∧
  ∀ (s : State) (d : List Byte), s.Inv →
    (d.length < 2 ∨ s.cfg.payloadMax < (d.getD 1 0).toNat ∨ d.length ≠ (d.getD 1 0).toNat + 2 →
      exec (.txSendRaw d) s = .next ({ s with events := s.events ++ [Event.txDrop] }.respond .ok 0 [])) ∧
    (2 ≤ d.length → (d.getD 1 0).toNat ≤ s.cfg.payloadMax → d.length = (d.getD 1 0).toNat + 2 → ∃ r : Ring,
      exec (.txSendRaw d) s = .next ({ s with ring := r }.respond .ok 1 []) ∧ Pushed s (BitVec.ofNat 8 d.length :: d) r)

/-- R166: `TX.DRAIN` runs its loop, as `DrainLoop` writes it, from a fresh budget to the end, and closes the period if it wrote. -/
def Obligations.DrainFollowsLoop : Prop :=
  Row 0x43 noBeats (fun _ _ => .txDrain) [.m] ∧
  ∀ s : State, s.Inv → ∃ (w : Nat) (t : State), DrainLoop s.wdt.maxPeriod.toNat s.wdt.maxPeriod.toNat 0 s w t ∧
    exec .txDrain s = .next ((if w = 0 then t else { t with
      events := t.events ++ closeEvents s.cfg.halfDuplex
      lineDir := if s.cfg.halfDuplex then .rx else t.lineDir }).respond .ok (BitVec.ofNat 32 w) [])

/-- R167 (a) and (c), R201: what one period shows. At most `max_period_bytes` bytes are written; they lie between the turn to transmit and the
close; a period that writes nothing shows nothing of either; the line is left receiving if it was turned; all else is kept. -/
def Obligations.DrainPeriod : Prop :=
  ∀ s : State, s.Inv → ∃ (bytes : List Byte) (framing : List Event) (r : Ring) (dr : Drain),
    bytes.length ≤ s.wdt.maxPeriod.toNat ∧ (framing = [] ∨ framing = [Event.fifoFraming] ∧ r = emptied s.ring) ∧
    r.mem = s.ring.mem ∧
    exec .txDrain s = .next ({ s with
      ring := r
      drain := dr
      lineDir := if s.cfg.halfDuplex = true ∧ bytes ≠ [] then .rx else s.lineDir
      events := s.events ++ (if s.cfg.halfDuplex = true ∧ bytes ≠ [] then [Event.lineTx] else []) ++ bytes.map Event.txByte ++ framing ++
        (if bytes = [] then [] else closeEvents s.cfg.halfDuplex) }.respond .ok (BitVec.ofNat 32 bytes.length) [])

/-- R167 (b) and (d): on a well-framed queue a drain writes the queued frames in queue order, each whole and uninterrupted, the prefixes left
out: what it wrote, what is still in progress and what is still queued are together what was in progress and queued. If anything
waits and the budget is not 0, it writes something. -/
def Obligations.DrainSendsInOrder : Prop :=
  ∀ (s : State) (es : List (List Byte)), s.Inv → s.framedAs es →
    ∃ (t : State) (bytes : List Byte) (k : Nat), exec .txDrain s = .next t ∧ t.framedAs (es.drop k) ∧
      s.inProgress ++ es.flatten = bytes ++ (t.inProgress ++ (es.drop k).flatten) ∧
      t.events.filterMap (fun e => match e with | .txByte b => some b | _ => none) =
        s.events.filterMap (fun e => match e with | .txByte b => some b | _ => none) ++ bytes ∧
      (bytes = [] → s.wdt.maxPeriod = 0 ∨ s.inProgress ++ es.flatten = [])

/-! ### Watchdog -/

/-- R184: the budget formula, by floor divisions left to right. That it has no value at an interval of 0 or above 1000000 is the model's
reading (log 15) of R186, by which it is never evaluated there. -/
def Obligations.BudgetFormula : Prop :=
  (∀ (c : Config) (baud us : Nat), 1 ≤ us → us ≤ 1000000 →
    budget c baud us =
      some (max c.budgetMin (min (((baud / 10) / 2) / (1000000 / us) * 80 / 100) c.fifoCap),
        min (max c.budgetMin (min (((baud / 10) / 2) / (1000000 / us) * 80 / 100) c.fifoCap)) c.absMaxPkt) ∧
    1 ≤ 1000000 / us) ∧
  (∀ (c : Config) (baud us : Nat), us = 0 ∨ 1000000 < us → budget c baud us = none) ∧
  Config.default.baud.map (fun b => budget Config.default b.toNat 5000) =
    [some (80, 64), some (22, 22), some (256, 64), some (256, 64), some (256, 64), some (184, 64)] ∧
  budget Config.default 115200 2000 = some (10, 10)

/-- R181, R182, R183. -/
def Obligations.WdtTick : Prop :=
  Row 0x50 noBeats (fun w _ => .wdtTick (w.extractLsb' 0 32)) [.m] ∧
  ∀ (s : State) (t : Word32), s.Inv →
    ((t - s.wdt.last).toNat < s.cfg.wdtIntervalMs → exec (.wdtTick t) s = .next (s.respond .ok 0 [])) ∧
    (s.cfg.wdtIntervalMs ≤ (t - s.wdt.last).toNat → s.link.bad.toNat < s.link.good.toNat →
      exec (.wdtTick t) s = .next ({ s with
        link := { s.link with good := 0, bad := 0 }, wdt := { s.wdt with last := t } }.respond .ok 0 [])) ∧
    (s.cfg.wdtIntervalMs ≤ (t - s.wdt.last).toNat → s.link.good.toNat ≤ s.link.bad.toNat →
      ∃ (i : BitVec 3) (baud : Word32) (p k : BitVec 9), i.toNat = (s.wdt.baudIdx.toNat + 1) % s.cfg.nbaud ∧
        s.cfg.baud[i.toNat]? = some baud ∧ budget s.cfg baud.toNat s.wdt.rcInterval.toNat = some (p.toNat, k.toNat) ∧
        exec (.wdtTick t) s = .next ({ s with
          link := { good := 0, bad := 0, connected := false }
          wdt := { baudIdx := i, last := t - BitVec.ofNat 32 (3 * (s.cfg.wdtIntervalMs / 4)), rcInterval := s.wdt.rcInterval,
                   maxPeriod := p, maxPacket := k }
          ring := emptied s.ring
          lineDir := if s.cfg.halfDuplex then .rx else s.lineDir
          events := s.events ++ (if s.link.connected then [Event.disconnected] else []) ++ [Event.txFlush, .baudSet baud] ++
            (if s.cfg.halfDuplex then [Event.lineRx] else []) ++ [Event.rxDiscard] }.respond .ok 1 []))

/-- R187. -/
def Obligations.WdtSetInterval : Prop :=
  Row 0x51 noBeats (fun w _ => .wdtSetInterval (w.extractLsb' 0 32)) [.m] ∧
  ∀ (s : State) (t : Word32), s.Inv →
    (t.toNat = 0 ∨ 1000000 < t.toNat → exec (.wdtSetInterval t) s = .next (s.respond .refused 0 [])) ∧
    (1 ≤ t.toNat → t.toNat ≤ 1000000 → ∃ (baud : Word32) (p k : BitVec 9), s.cfg.baud[s.wdt.baudIdx.toNat]? = some baud ∧
      budget s.cfg baud.toNat t.toNat = some (p.toNat, k.toNat) ∧
      exec (.wdtSetInterval t) s =
        .next ({ s with wdt := { s.wdt with rcInterval := t, maxPeriod := p, maxPacket := k } }.respond .ok 0 []))

/-- R188 and R189. -/
def Obligations.WdtReads : Prop :=
  Row 0x52 noBeats (fun _ _ => .wdtRdBudget) [.m] ∧ Row 0x53 noBeats (fun _ _ => .wdtRdBaud) [.m] ∧
  (∀ s : State, ∃ v : Word32, exec .wdtRdBudget s = .next (s.respond .ok v []) ∧
    (v.extractLsb' 0 16).toNat = s.wdt.maxPeriod.toNat ∧ (v.extractLsb' 16 16).toNat = s.wdt.maxPacket.toNat) ∧
  ∀ s : State, s.Inv → ∃ baud : Word32, s.cfg.baud[s.wdt.baudIdx.toNat]? = some baud ∧
    exec .wdtRdBaud s = .next (s.respond .ok baud [])

/-- R190: over any run of commands the baud index advances by exactly the number of failed checks, modulo the length of the list. -/
def Obligations.BaudIndexCountsFailures : Prop :=
  ∀ (is : List Instr) (s t : State), s.Inv → runAll is s = .next t →
    t.wdt.baudIdx.toNat = (s.wdt.baudIdx.toNat + failedChecks is s) % s.cfg.nbaud

/-! ### Duplex -/

/-- R198 and R199, with R196 and R197. -/
def Obligations.DuplexCommands : Prop :=
  Row 0x60 noBeats (fun _ _ => .duplexTx) [.m] ∧ Row 0x61 noBeats (fun _ _ => .duplexRx) [.m] ∧
  ∀ s : State,
    exec .duplexTx s = .next ((if s.cfg.halfDuplex then
      { s with lineDir := .tx, events := s.events ++ [Event.lineTx] } else s).respond .ok 0 []) ∧
    exec .duplexRx s = .next ((if s.cfg.halfDuplex then
      { s with lineDir := .rx, events := s.events ++ [Event.lineRx, .rxDiscard] } else s).respond .ok 0 [])

/-- R200: on a full-duplex line no command writes the direction, none turns the line, and none drops a received byte for it. -/
def Obligations.FullDuplexNeverTurns : Prop :=
  ∀ (i : Instr) (s t : State), s.Inv → s.cfg.halfDuplex = false → exec i s = .next t →
    listening s ∧ t.lineDir = .rx ∧ ∀ e ∈ t.events.drop s.events.length, e ≠ .lineTx ∧ e ≠ .lineRx ∧
      (i.op = .txDrain → e ≠ .rxDiscard)

/-- R201: between commands the line is turned to transmit only where the last command that wrote the direction was `DUPLEX.TX`. -/
def Obligations.OnlyDuplexTxTurns : Prop :=
  ∀ (i : Instr) (s t : State), s.Inv → exec i s = .next t → t.lineDir = .tx → i = .duplexTx ∨ s.lineDir = .tx

/-! ### Guard, stop and status -/

/-- R206 and R207: the guard does not nest. -/
def Obligations.LockAndUnlock : Prop :=
  Row 0x70 noBeats (fun _ _ => .sysLock) [.m] ∧ Row 0x71 noBeats (fun _ _ => .sysUnlock) [.m] ∧
  ∀ s : State, exec .sysLock s = .next ({ s with lock := true }.respond .ok 0 []) ∧
    exec .sysUnlock s = .next ({ s with lock := false }.respond .ok 0 [])

/-- R208: what `SYS.STOP` clears and what it keeps; no event. -/
def Obligations.Stop : Prop :=
  Row 0x7F noBeats (fun _ _ => .sysStop) [.m] ∧
  ∀ s : State, exec .sysStop s = .next ({ s with
    ring := emptied s.ring, parser := resetParser s.parser, drain := { s.drain with off := 0, rem := 0 }
    link := { s.link with good := 0, bad := 0 }, lock := false }.respond .ok 0 [])

/-- R209 and R210. -/
def Obligations.CounterReads : Prop :=
  Row 0x72 noBeats (fun _ _ => .sysRdGood) [.m] ∧ Row 0x73 noBeats (fun _ _ => .sysRdBad) [.m] ∧
  ∀ s : State, exec .sysRdGood s = .next (s.respond .ok s.link.good []) ∧ exec .sysRdBad s = .next (s.respond .ok s.link.bad [])

/-- R211: the layout of the status word, field by field. -/
def Obligations.StatusRead : Prop :=
  Row 0x74 noBeats (fun _ _ => .sysRdStatus) [.m] ∧
  ∀ s : State, ∃ v : Word32, exec .sysRdStatus s = .next (s.respond .ok v []) ∧
    v.getLsbD 0 = s.link.connected ∧ v.getLsbD 1 = s.lock ∧ (v.getLsbD 2 = true ↔ s.lineDir = .tx) ∧
    v.extractLsb' 3 2 = (match s.parser.state with | .waitSync => 0 | .readLength => 1 | .readBody => 2) ∧
    v.extractLsb' 5 3 = s.wdt.baudIdx ∧ v.extractLsb' 8 8 = s.parser.pos ∧ v.extractLsb' 16 8 = s.drain.rem ∧
    v.extractLsb' 24 8 = s.drain.off

end Statements
end

