-- ==== Sys2Proof/Laws/Crc.lean ====
section
/-! SUPPORT. The laws of the CRC8 function: its recursion over the bytes, and that its shift register is linear. -/

namespace Sys2Proof.Machine

@[simp] theorem crc8_nil (poly seed : Byte) : crc8 poly seed [] = seed := rfl

@[simp] theorem crc8_cons (poly seed b : Byte) (s : List Byte) :
    crc8 poly seed (b :: s) = crc8 poly (crcShifts poly 8 (seed ^^^ b)) s := rfl

theorem crc8_append (poly seed : Byte) (s t : List Byte) : crc8 poly seed (s ++ t) = crc8 poly (crc8 poly seed s) t :=
  List.foldl_append ..

theorem crcShift_xor (poly a b : Byte) : crcShift poly (a ^^^ b) = crcShift poly a ^^^ crcShift poly b := by
  unfold crcShift
  rw [BitVec.msb_xor, BitVec.shiftLeft_xor_distrib]
  cases a.msb <;> cases b.msb <;>
    simp only [Bool.false_xor, Bool.true_xor, Bool.not_true, Bool.not_false, if_true, if_false, Bool.false_eq_true]
  · exact BitVec.xor_assoc ..
  · rw [BitVec.xor_assoc, BitVec.xor_assoc, BitVec.xor_comm poly]
  · rw [show a <<< 1 ^^^ poly ^^^ (b <<< 1 ^^^ poly) = a <<< 1 ^^^ b <<< 1 ^^^ (poly ^^^ poly) by ac_rfl,
      BitVec.xor_self, BitVec.xor_zero]

theorem crcShifts_xor (poly : Byte) (k : Nat) (a b : Byte) :
    crcShifts poly k (a ^^^ b) = crcShifts poly k a ^^^ crcShifts poly k b := by
  induction k generalizing a b with
  | zero => rfl
  | succ k ih => simp only [crcShifts, crcShift_xor, ih]

@[simp] theorem crcShifts_zero (poly : Byte) (k : Nat) : crcShifts poly k 0 = 0 := by
  induction k with
  | zero => rfl
  | succ k ih => simpa [crcShifts, crcShift] using ih

end Sys2Proof.Machine
end

