-- ==== Sys2Proof/Laws/Decode.lean ====
section
/-! SUPPORT. The laws of the opcode map and of the data beats. -/

namespace Sys2Proof

/-- No two rows of the map share an opcode. -/
theorem Op.ofCode_code (o : Op) : Op.ofCode o.code = some o := by cases o <;> decide

theorem Op.code_of_ofCode {c : Byte} {o : Op} (h : Op.ofCode c = some o) : o.code = c := by
  have := List.find?_some h
  simpa using this

theorem takeBeats_map (d : List Byte) (rest : List PortItem) : takeBeats d.length (d.map .beat ++ rest) = some (d, rest) := by
  induction d with
  | nil => rfl
  | cons b d ih => simp [takeBeats, ih]

theorem takeBeats_some {n : Nat} {items : List PortItem} {d : List Byte} {rest : List PortItem}
    (h : takeBeats n items = some (d, rest)) : items = d.map .beat ++ rest ∧ d.length = n := by
  induction n generalizing items d with
  | zero =>
    simp only [takeBeats, Option.some.injEq, Prod.mk.injEq] at h
    obtain ⟨rfl, rfl⟩ := h
    exact ⟨rfl, rfl⟩
  | succ n ih =>
    cases items with
    | nil => simp [takeBeats] at h
    | cons x items =>
      cases x with
      | word w => simp [takeBeats] at h
      | beat b =>
        simp only [takeBeats, Option.map_eq_some_iff, Prod.exists, Prod.mk.injEq] at h
        obtain ⟨d', r', h1, rfl, rfl⟩ := h
        obtain ⟨rfl, rfl⟩ := ih h1
        exact ⟨rfl, rfl⟩

/-- What a decoded command was decoded from. -/
theorem decode_ok {items rest : List PortItem} {i : Instr} (h : decode items = .ok (i, rest)) :
    ∃ w o d, items = .word w :: (d.map .beat ++ rest) ∧ Op.ofCode (CmdWord.op w) = some o ∧
      d.length = o.format.beats w ∧ i = o.build w d := by
  cases items with
  | nil => simp [decode] at h
  | cons x items =>
    cases x with
    | beat b => simp [decode] at h
    | word w =>
      simp only [decode] at h
      split at h
      · simp at h
      · rename_i o ho
        split at h
        · simp at h
        · rename_i d r hb
          simp only [Except.ok.injEq, Prod.mk.injEq] at h
          obtain ⟨rfl, rfl⟩ := h
          obtain ⟨rfl, hl⟩ := takeBeats_some hb
          exact ⟨w, o, d, rfl, ho, hl, rfl⟩

@[simp] theorem Op.build_op (o : Op) (w : CmdWord) (d : List Byte) : (o.build w d).op = o := by cases o <;> rfl

/-- The opcode field of a command's word. -/
@[simp] theorem Instr.word_op (i : Instr) : CmdWord.op i.word = i.op.code := by
  unfold CmdWord.op Instr.word
  exact BitVec.extractLsb'_append_eq_left

/-- A field below the opcode is a field of the immediate. -/
theorem Instr.word_field (i : Instr) (k n : Nat) (h : k + n ≤ 40) : i.word.extractLsb' k n = i.imm.extractLsb' k n := by
  unfold Instr.word
  exact BitVec.extractLsb'_append_eq_of_add_le h

end Sys2Proof
end

