-- ==== Sys2Proof/Laws/Memory.lean ====
section
/-! SUPPORT. The laws of the byte arrays: a read after a write, the canonical form kept by every operation, and that canonical
arrays with equal reads are equal data. -/

namespace Sys2Proof.Machine

theorem Memory.canonicalFrom_mono {m : Memory} {lo lo' : Nat} (h : Memory.canonicalFrom lo m = true) (hl : lo' ≤ lo) :
    Memory.canonicalFrom lo' m = true := by
  cases m with
  | nil => rfl
  | cons c m =>
    obtain ⟨a, b⟩ := c
    simp only [Memory.canonicalFrom, Bool.and_eq_true, decide_eq_true_eq] at h ⊢
    exact ⟨⟨by omega, h.1.2⟩, h.2⟩

theorem Memory.canonicalFrom_wf {m : Memory} {lo : Nat} (h : Memory.canonicalFrom lo m = true) : m.wf = true :=
  Memory.canonicalFrom_mono h (Nat.zero_le lo)

/-- An index below every listed one reads as unlisted. -/
theorem Memory.read_below {m : Memory} {lo i : Nat} (h : Memory.canonicalFrom lo m = true) (hi : i < lo) :
    Memory.read m i = Memory.unlisted := by
  induction m generalizing lo with
  | nil => rfl
  | cons c m ih =>
    obtain ⟨a, b⟩ := c
    simp only [Memory.canonicalFrom, Bool.and_eq_true, decide_eq_true_eq] at h
    have hne : a ≠ i := by omega
    simpa [Memory.read, hne] using ih h.2 (by omega)

theorem Memory.canonicalFrom_write {m : Memory} {lo i : Nat} (b : Byte) (h : Memory.canonicalFrom lo m = true) (hi : lo ≤ i) :
    Memory.canonicalFrom lo (Memory.write m i b) = true := by
  induction m generalizing lo with
  | nil =>
    unfold Memory.write
    split
    · rfl
    · simp_all [Memory.canonicalFrom]
  | cons c m ih =>
    obtain ⟨a, c⟩ := c
    simp only [Memory.canonicalFrom, Bool.and_eq_true, decide_eq_true_eq] at h
    obtain ⟨⟨h1, h2⟩, h3⟩ := h
    simp only [Memory.write]
    split_ifs with hb hlt heq hb'
    · simp [Memory.canonicalFrom, h1, h2, h3]
    · simp [Memory.canonicalFrom, hi, hlt, h2, h3, Nat.succ_le_of_lt hb]
    · exact Memory.canonicalFrom_mono h3 (by omega)
    · subst heq; simp [Memory.canonicalFrom, hi, hb', h3]
    · simp [Memory.canonicalFrom, h1, h2, ih h3 (by omega)]

/-- Every write keeps the canonical form. -/
theorem Memory.wf_write {m : Memory} (i : Nat) (b : Byte) (h : m.wf = true) : (Memory.write m i b).wf = true :=
  Memory.canonicalFrom_write b h (Nat.zero_le i)

theorem Memory.within_write {m : Memory} {size i : Nat} (b : Byte) (h : m.within size = true) (hi : i < size) :
    (Memory.write m i b).within size = true := by
  induction m with
  | nil => unfold Memory.write; split <;> simp [Memory.within, hi]
  | cons c m ih =>
    obtain ⟨a, c⟩ := c
    simp only [Memory.within, List.all_cons, Bool.and_eq_true, decide_eq_true_eq] at h ih ⊢
    simp only [Memory.write]
    have hm := h.2
    have hw := ih hm
    split_ifs <;> (try simp only [List.all_cons, Bool.and_eq_true, decide_eq_true_eq]) <;> first | exact hm | exact ⟨by omega, hm⟩ | exact ⟨by omega, h⟩ | exact ⟨h.1, hw⟩

theorem Memory.read_write_from {m : Memory} {lo : Nat} (i : Nat) (b : Byte) (j : Nat) (h : Memory.canonicalFrom lo m = true) :
    Memory.read (Memory.write m i b) j = if j = i then b else Memory.read m j := by
  induction m generalizing lo with
  | nil =>
    unfold Memory.write
    split <;> rename_i hb
    · simp [Memory.read, hb]
    · simp only [Memory.read, eq_comm (a := i)]
  | cons c m ih =>
    obtain ⟨a, c⟩ := c
    simp only [Memory.canonicalFrom, Bool.and_eq_true, decide_eq_true_eq] at h
    obtain ⟨⟨h1, h2⟩, h3⟩ := h
    simp only [Memory.write]
    split_ifs with hlt hb hji hji heq hb' hji hji hji
    all_goals try subst hji
    all_goals try subst heq
    · have : a ≠ j := by omega
      simp [Memory.read, this, Memory.read_below h3 (show j < a + 1 by omega), hb]
    · rfl
    · simp [Memory.read]
    · simp [Memory.read, Ne.symm hji]
    · rw [Memory.read_below h3 (Nat.lt_succ_self _), hb']
    · simp [Memory.read, Ne.symm hji]
    · simp [Memory.read]
    · simp [Memory.read, Ne.symm hji]
    · have := ih h3
      by_cases ha : a = j
      · omega
      · simp [Memory.read, ha, this]
    · have := ih h3
      by_cases ha : a = j
      · simp [Memory.read, ha]
      · simp [Memory.read, ha, this, hji]

/-- A read after a write gives the byte written, and every other index as before. -/
theorem Memory.read_write {m : Memory} (i : Nat) (b : Byte) (j : Nat) (h : m.wf = true) :
    Memory.read (Memory.write m i b) j = if j = i then b else Memory.read m j :=
  Memory.read_write_from i b j h

@[simp] theorem Memory.read_write_self {m : Memory} (i : Nat) (b : Byte) (h : m.wf = true) :
    Memory.read (Memory.write m i b) i = b := by simp [Memory.read_write i b i h]

theorem Memory.read_write_ne {m : Memory} {i j : Nat} (b : Byte) (h : m.wf = true) (hj : j ≠ i) :
    Memory.read (Memory.write m i b) j = Memory.read m j := by simp [Memory.read_write i b j h, hj]

theorem Memory.wf_writeBytes {m : Memory} (i : Nat) (s : List Byte) (h : m.wf = true) : (Memory.writeBytes m i s).wf = true := by
  induction s generalizing m i with
  | nil => exact h
  | cons b s ih => exact ih (i + 1) (Memory.wf_write i b h)

theorem Memory.within_writeBytes {m : Memory} {size : Nat} (i : Nat) (s : List Byte) (h : m.within size = true)
    (hi : i + s.length ≤ size) : (Memory.writeBytes m i s).within size = true := by
  induction s generalizing m i with
  | nil => exact h
  | cons b s ih =>
    simp only [List.length_cons] at hi
    exact ih (i + 1) (Memory.within_write b h (by omega)) (by omega)

/-- What a run of stores leaves at each index. -/
theorem Memory.read_writeBytes {m : Memory} (i : Nat) (s : List Byte) (j : Nat) (h : m.wf = true) :
    Memory.read (Memory.writeBytes m i s) j = if i ≤ j ∧ j < i + s.length then s.getD (j - i) 0 else Memory.read m j := by
  induction s generalizing m i with
  | nil => simp [Memory.writeBytes]
  | cons b s ih =>
    rw [Memory.writeBytes, ih (i + 1) (Memory.wf_write i b h), Memory.read_write i b j h]
    by_cases hj : j = i
    · subst hj; simp
    · by_cases hr : i + 1 ≤ j ∧ j < i + 1 + s.length
      · have h1 : i ≤ j ∧ j < i + (b :: s).length := by simp only [List.length_cons]; omega
        have h2 : j - i = (j - (i + 1)) + 1 := by omega
        rw [if_pos hr, if_pos h1, h2, List.getD_cons_succ]
      · have h1 : ¬ (i ≤ j ∧ j < i + (b :: s).length) := by simp only [List.length_cons]; omega
        rw [if_neg hr, if_neg hj, if_neg h1]

@[simp] theorem Memory.length_slice (m : Memory) (i n : Nat) : (Memory.slice m i n).length = n := by simp [Memory.slice]

theorem Memory.getElem_slice (m : Memory) (i n k : Nat) (h : k < (Memory.slice m i n).length) :
    (Memory.slice m i n)[k] = Memory.read m (i + k) := by simp [Memory.slice]

@[simp] theorem Memory.slice_zero (m : Memory) (i : Nat) : Memory.slice m i 0 = [] := rfl

theorem Memory.slice_succ (m : Memory) (i n : Nat) : Memory.slice m i (n + 1) = Memory.slice m i n ++ [Memory.read m (i + n)] := by
  simp [Memory.slice, List.range_succ]

theorem Memory.slice_append (m : Memory) (i n k : Nat) :
    Memory.slice m i (n + k) = Memory.slice m i n ++ Memory.slice m (i + n) k := by
  induction k with
  | zero => simp
  | succ k ih => rw [← Nat.add_assoc, Memory.slice_succ, ih, Memory.slice_succ, List.append_assoc, Nat.add_assoc]

/-- Two arrays that read alike over a range have the same slice there. -/
theorem Memory.slice_congr {m m' : Memory} {i n : Nat} (h : ∀ k, i ≤ k → k < i + n → Memory.read m k = Memory.read m' k) :
    Memory.slice m i n = Memory.slice m' i n := by
  refine List.map_congr_left fun k hk => h _ (by omega) ?_
  have := List.mem_range.1 hk
  omega

/-- A slice of what was just stored. -/
theorem Memory.slice_writeBytes {m : Memory} (i : Nat) (s : List Byte) (h : m.wf = true) :
    Memory.slice (Memory.writeBytes m i s) i s.length = s := by
  refine List.ext_getElem (by simp) fun k h1 h2 => ?_
  rw [Memory.getElem_slice, Memory.read_writeBytes i s _ h, if_pos (by omega), Nat.add_sub_cancel_left,
    List.getD_eq_getElem _ _ h2]

theorem Memory.ext_from {m m' : Memory} {lo : Nat} (h : Memory.canonicalFrom lo m = true)
    (h' : Memory.canonicalFrom lo m' = true) (hr : ∀ j, Memory.read m j = Memory.read m' j) : m = m' := by
  induction m generalizing m' lo with
  | nil =>
    cases m' with
    | nil => rfl
    | cons c m' =>
      obtain ⟨a, b⟩ := c
      simp only [Memory.canonicalFrom, Bool.and_eq_true, decide_eq_true_eq] at h'
      exact absurd (by simpa [Memory.read] using (hr a).symm) h'.1.2
  | cons c m ih =>
    obtain ⟨a, b⟩ := c
    simp only [Memory.canonicalFrom, Bool.and_eq_true, decide_eq_true_eq] at h
    obtain ⟨⟨h1, h2⟩, h3⟩ := h
    cases m' with
    | nil => exact absurd (by simpa [Memory.read] using hr a) h2
    | cons c' m' =>
      obtain ⟨a', b'⟩ := c'
      simp only [Memory.canonicalFrom, Bool.and_eq_true, decide_eq_true_eq] at h'
      obtain ⟨⟨h1', h2'⟩, h3'⟩ := h'
      have haa : a = a' := by
        by_contra hne
        rcases Nat.lt_or_gt_of_ne hne with hlt | hgt
        · have := hr a
          simp only [Memory.read, if_true, Ne.symm hne, if_false, Memory.read_below h3' (show a < a' + 1 by omega)] at this
          exact h2 this
        · have := hr a'
          simp only [Memory.read, if_true, hne, if_false, Memory.read_below h3 (show a' < a + 1 by omega)] at this
          exact h2' this.symm
      subst haa
      have hb : b = b' := by simpa [Memory.read] using hr a
      subst hb
      refine congrArg _ (ih h3 h3' fun j => ?_)
      have := hr j
      by_cases hj : a = j
      · subst hj
        rw [Memory.read_below h3 (Nat.lt_succ_self _), Memory.read_below h3' (Nat.lt_succ_self _)]
      · simpa [Memory.read, hj] using this

/-- The canonical form is canonical: arrays that read alike are equal data. -/
theorem Memory.ext_read {m m' : Memory} (h : m.wf = true) (h' : m'.wf = true)
    (hr : ∀ j, Memory.read m j = Memory.read m' j) : m = m' := Memory.ext_from h h' hr

end Sys2Proof.Machine
end

