-- ==== Sys2Proof/Laws/Fifo.lean ====
section
/-! SUPPORT. The laws of the ring buffer: what each procedure of 40_fifo.md does to the queue `Q`, to the registers and to each byte of
`FIFO`, that each keeps the invariant of R27, and that the loop of `fifo_ensure` has fuel enough. -/

namespace Sys2Proof.Machine

/-! ### Indices modulo the capacity -/

theorem mod_eq_iff_of_lt {a b C : Nat} (h1 : a ≤ b) (h2 : b < a + C) : a % C = b % C ↔ a = b := by
  refine ⟨fun h => ?_, fun h => by rw [h]⟩
  have := Nat.sub_mod_eq_zero_of_mod_eq h.symm
  rw [Nat.mod_eq_of_lt (by omega)] at this
  omega

theorem add_mod_ne {h i k C : Nat} (hi : i < k) (hk : k < i + C) : (h + i) % C ≠ (h + k) % C := fun he => by
  have := (mod_eq_iff_of_lt (a := h + i) (b := h + k) (by omega) (by omega)).1 he
  omega

theorem toNat_ofNat8_mod {x C : Nat} (h0 : 0 < C) (hC : C ≤ 256) : (BitVec.ofNat 8 (x % C)).toNat = x % C := by
  have := Nat.mod_lt x h0
  rw [BitVec.toNat_ofNat]
  exact Nat.mod_eq_of_lt (by omega)

theorem toNat_ofNat9 {x : Nat} (h : x < 512) : (BitVec.ofNat 9 x).toNat = x := by
  rw [BitVec.toNat_ofNat]; exact Nat.mod_eq_of_lt (by omega)

/-! ### Flush -/

@[simp] theorem Ring.flush_mem (r : Ring) : r.flush.mem = r.mem := rfl
@[simp] theorem Ring.flush_head (r : Ring) : r.flush.head = 0 := rfl
@[simp] theorem Ring.flush_tail (r : Ring) : r.flush.tail = 0 := rfl
@[simp] theorem Ring.flush_count (r : Ring) : r.flush.count = 0 := rfl
@[simp] theorem Ring.queue_flush (C : Nat) (r : Ring) : r.flush.queue C = [] := rfl

theorem Ring.ok_flush {C : Nat} {r : Ring} (h : r.ok C) : r.flush.ok C := by
  obtain ⟨h1, h2, h3, h4, h5, h6⟩ := h
  exact ⟨Nat.zero_le _, Nat.lt_of_le_of_lt (Nat.zero_le _) h2, Nat.lt_of_le_of_lt (Nat.zero_le _) h2, Nat.zero_mod _, h5, h6⟩

/-! ### Reading from the head -/

@[simp] theorem Ring.length_bytes (C n : Nat) (r : Ring) : (r.bytes C n).length = n := by simp [Ring.bytes]

@[simp] theorem Ring.length_queue (C : Nat) (r : Ring) : (r.queue C).length = r.count.toNat := by simp [Ring.queue]

theorem Ring.getElem_bytes (C n k : Nat) (r : Ring) (h : k < (r.bytes C n).length) :
    (r.bytes C n)[k] = Memory.read r.mem ((r.head.toNat + k) % C) := by simp [Ring.bytes]

theorem Ring.bytes_succ (C n : Nat) (r : Ring) :
    r.bytes C (n + 1) = Memory.read r.mem (r.head.toNat % C) :: (r.bytes C (n + 1)).drop 1 := by
  simp [Ring.bytes, List.range_succ_eq_map]

theorem Ring.bytes_eq_take (C : Nat) {n : Nat} {r : Ring} (h : n ≤ r.count.toNat) : r.bytes C n = (r.queue C).take n := by
  refine List.ext_getElem (by simp; omega) fun k h1 h2 => ?_
  rw [List.getElem_take]
  simp [Ring.bytes, Ring.queue]

/-! ### Storing at the tail -/

@[simp] theorem Ring.store_mem (C : Nat) (b : Byte) (r : Ring) : (r.store C b).mem = Memory.write r.mem (r.tail.toNat % C) b := rfl
@[simp] theorem Ring.store_head (C : Nat) (b : Byte) (r : Ring) : (r.store C b).head = r.head := rfl
@[simp] theorem Ring.store_tail (C : Nat) (b : Byte) (r : Ring) : (r.store C b).tail = BitVec.ofNat 8 ((r.tail.toNat + 1) % C) := rfl
@[simp] theorem Ring.store_count (C : Nat) (b : Byte) (r : Ring) : (r.store C b).count = r.count + 1 := rfl

theorem Ring.store_count_toNat {C : Nat} (b : Byte) {r : Ring} (hC : C ≤ 256) (h : r.count.toNat < C) :
    (r.store C b).count.toNat = r.count.toNat + 1 := by
  have h1 : (1 : BitVec 9).toNat = 1 := rfl
  rw [Ring.store_count, BitVec.toNat_add, h1]
  omega

theorem Ring.ok_store {C : Nat} (b : Byte) {r : Ring} (hC : C ≤ 256) (h : r.ok C) (hc : r.count.toNat < C) :
    (r.store C b).ok C := by
  obtain ⟨h1, h2, h3, h4, h5, h6⟩ := h
  have h0 : 0 < C := by omega
  refine ⟨?_, h2, ?_, ?_, Memory.wf_write _ _ h5, Memory.within_write _ h6 (Nat.mod_lt _ h0)⟩
  · rw [Ring.store_count_toNat b hC hc]; omega
  · rw [Ring.store_tail, toNat_ofNat8_mod h0 hC]; exact Nat.mod_lt _ h0
  · rw [Ring.store_count_toNat b hC hc, Ring.store_tail, Ring.store_head, toNat_ofNat8_mod h0 hC, ← h4, ← Nat.add_assoc,
      Nat.mod_add_mod]

theorem Ring.queue_store {C : Nat} (b : Byte) {r : Ring} (hC : C ≤ 256) (h : r.ok C) (hc : r.count.toNat < C) :
    (r.store C b).queue C = r.queue C ++ [b] := by
  obtain ⟨h1, h2, h3, h4, h5, h6⟩ := h
  simp only [Ring.queue, Ring.bytes, Ring.store_count_toNat b hC hc, List.range_succ, List.map_append, List.map_cons, List.map_nil]
  rw [Ring.store_mem, Ring.store_head, Nat.mod_eq_of_lt h3]
  congr 1
  · refine List.map_congr_left fun i hi => ?_
    have hi' := List.mem_range.1 hi
    refine Memory.read_write_ne b h5 ?_
    rw [← h4]
    exact add_mod_ne hi' (by omega)
  · rw [h4, Memory.read_write_self _ _ h5]

theorem Ring.storeBytes_head (C : Nat) (s : List Byte) (r : Ring) : (r.storeBytes C s).head = r.head := by
  induction s generalizing r with
  | nil => rfl
  | cons b s ih => exact ih (r.store C b)

/-- What the loop of R113 does when the slice fits. -/
theorem Ring.storeBytes_spec {C : Nat} (s : List Byte) {r : Ring} (hC : C ≤ 256) (h : r.ok C)
    (hc : r.count.toNat + s.length ≤ C) :
    (r.storeBytes C s).ok C ∧ (r.storeBytes C s).queue C = r.queue C ++ s ∧
    (r.storeBytes C s).count.toNat = r.count.toNat + s.length ∧
    (r.storeBytes C s).tail.toNat = (r.tail.toNat + s.length) % C := by
  induction s generalizing r with
  | nil => exact ⟨h, by simp [Ring.storeBytes], rfl, (Nat.mod_eq_of_lt h.2.2.1).symm⟩
  | cons b s ih =>
    simp only [List.length_cons] at hc ⊢
    have hlt : r.count.toNat < C := by omega
    have hn := Ring.store_count_toNat b hC hlt
    obtain ⟨a1, a2, a3, a4⟩ := ih (Ring.ok_store b hC h hlt) (by omega)
    refine ⟨a1, ?_, ?_, ?_⟩
    · rw [Ring.storeBytes, a2, Ring.queue_store b hC h hlt]; simp
    · rw [Ring.storeBytes, a3, hn]; omega
    · rw [Ring.storeBytes, a4, Ring.store_tail, toNat_ofNat8_mod (by omega) hC, Nat.mod_add_mod]
      congr 1; omega

/-- Which bytes of `FIFO` the loop of R113 stores, and that it stores no other. -/
theorem Ring.storeBytes_read {C : Nat} (s : List Byte) {r : Ring} (hC : C ≤ 256) (h : r.mem.wf = true) (h0 : 0 < C)
    (hl : s.length ≤ C) :
    (∀ i (hi : i < s.length), Memory.read (r.storeBytes C s).mem ((r.tail.toNat + i) % C) = s[i]) ∧
    (∀ j, (∀ i, i < s.length → j ≠ (r.tail.toNat + i) % C) → Memory.read (r.storeBytes C s).mem j = Memory.read r.mem j) := by
  induction s generalizing r with
  | nil => exact ⟨fun i hi => absurd hi (Nat.not_lt_zero _), fun j _ => rfl⟩
  | cons b s ih =>
    simp only [List.length_cons] at hl
    have ht : (r.store C b).tail.toNat = (r.tail.toNat + 1) % C := by rw [Ring.store_tail, toNat_ofNat8_mod h0 hC]
    obtain ⟨a1, a2⟩ := ih (r := r.store C b) (Memory.wf_write _ _ h) (by omega)
    rw [ht] at a1 a2
    refine ⟨fun i hi => ?_, fun j hj => ?_⟩
    · cases i with
      | zero =>
        rw [Ring.storeBytes, a2]
        · simp [Memory.read_write_self _ _ h]
        · intro i hi
          rw [Nat.mod_add_mod, Nat.add_zero, Nat.add_assoc]
          have hi' : i < s.length := by simpa using hi
          exact add_mod_ne (h := r.tail.toNat) (i := 0) (k := 1 + i) (by omega) (by omega)
      | succ i =>
        simp only [List.length_cons] at hi
        have := a1 i (by omega)
        rw [Nat.mod_add_mod] at this
        rw [Ring.storeBytes, show r.tail.toNat + (i + 1) = r.tail.toNat + 1 + i by omega, this]
        simp
    · rw [Ring.storeBytes, a2]
      · refine Memory.read_write_ne b h ?_
        simpa using hj 0 (by simp)
      · intro i hi
        rw [Nat.mod_add_mod, show r.tail.toNat + 1 + i = r.tail.toNat + (i + 1) by omega]
        exact hj (i + 1) (by simpa using hi)

/-! ### Taking from the head -/

@[simp] theorem Ring.drop_mem (C n : Nat) (r : Ring) : (r.drop C n).mem = r.mem := rfl
@[simp] theorem Ring.drop_tail (C n : Nat) (r : Ring) : (r.drop C n).tail = r.tail := rfl
@[simp] theorem Ring.drop_head (C n : Nat) (r : Ring) : (r.drop C n).head = BitVec.ofNat 8 ((r.head.toNat + n) % C) := rfl

theorem Ring.drop_count_toNat (C n : Nat) (r : Ring) : (r.drop C n).count.toNat = r.count.toNat - n := by
  have := r.count.isLt
  exact toNat_ofNat9 (by omega)

theorem Ring.ok_drop {C n : Nat} {r : Ring} (hC : C ≤ 256) (h : r.ok C) (hn : n ≤ r.count.toNat) : (r.drop C n).ok C := by
  obtain ⟨h1, h2, h3, h4, h5, h6⟩ := h
  have h0 : 0 < C := by omega
  have hh : (r.drop C n).head.toNat = (r.head.toNat + n) % C := by rw [Ring.drop_head, toNat_ofNat8_mod h0 hC]
  refine ⟨?_, ?_, h3, ?_, h5, h6⟩
  · rw [Ring.drop_count_toNat]; omega
  · rw [hh]; exact Nat.mod_lt _ h0
  · rw [hh, Ring.drop_count_toNat, Nat.mod_add_mod, Ring.drop_tail, ← h4]
    congr 1; omega

theorem Ring.queue_drop {C n : Nat} {r : Ring} (hC : C ≤ 256) (h : r.ok C) :
    (r.drop C n).queue C = (r.queue C).drop n := by
  have h0 : 0 < C := by have := h.2.1; omega
  refine List.ext_getElem (by simp [Ring.drop_count_toNat]) fun k h1 h2 => ?_
  rw [List.getElem_drop]
  simp only [Ring.queue, Ring.getElem_bytes, Ring.drop_mem, Ring.drop_head, toNat_ofNat8_mod h0 hC, Nat.mod_add_mod, Nat.add_assoc]

theorem Ring.pop_empty {C : Nat} {r : Ring} (h : r.count = 0) : r.pop C = (0x00, r.flush) := by simp [Ring.pop, h]

theorem Ring.pop_nonempty {C : Nat} {r : Ring} (h : r.count ≠ 0) :
    r.pop C = (Memory.read r.mem (r.head.toNat % C), r.drop C 1) := by rw [Ring.pop, if_neg h]

theorem Ring.count_ne_zero {r : Ring} : r.count ≠ 0 ↔ 0 < r.count.toNat := by
  have h0 : (0 : BitVec 9).toNat = 0 := rfl
  rw [ne_eq, ← BitVec.toNat_inj, h0]; omega

/-- The head of the queue is what a pop gives. -/
theorem Ring.queue_eq_cons {C : Nat} {r : Ring} (hC : C ≤ 256) (h : r.ok C) (hc : r.count ≠ 0) :
    r.queue C = (r.pop C).1 :: (r.pop C).2.queue C := by
  have hpos := Ring.count_ne_zero.1 hc
  rw [Ring.pop_nonempty hc, Ring.queue_drop hC h]
  obtain ⟨n, hn⟩ : ∃ n, r.count.toNat = n + 1 := ⟨r.count.toNat - 1, by omega⟩
  simp only [Ring.queue, hn]
  exact Ring.bytes_succ C n r

theorem Ring.ok_pop {C : Nat} {r : Ring} (hC : C ≤ 256) (h : r.ok C) : (r.pop C).2.ok C := by
  by_cases hc : r.count = 0
  · rw [Ring.pop_empty hc]; exact Ring.ok_flush h
  · rw [Ring.pop_nonempty hc]; exact Ring.ok_drop hC h (Ring.count_ne_zero.1 hc)

@[simp] theorem Ring.pop_mem (C : Nat) (r : Ring) : (r.pop C).2.mem = r.mem := by unfold Ring.pop; split <;> rfl

theorem Ring.pop_count_toNat {C : Nat} (r : Ring) : (r.pop C).2.count.toNat = r.count.toNat - 1 := by
  by_cases hc : r.count = 0
  · rw [Ring.pop_empty hc]; simp [hc]
  · rw [Ring.pop_nonempty hc]; exact Ring.drop_count_toNat C 1 r

theorem Ring.peek_eq_pop (C : Nat) (r : Ring) : r.peek C = (r.pop C).1 := by unfold Ring.peek Ring.pop; split <;> rfl

/-! ### Pushing -/

theorem Ring.ok_push {C : Nat} (b : Byte) {r : Ring} (hC : C ≤ 256) (h : r.ok C) : (r.push C b).ok C := by
  unfold Ring.push
  split
  · exact Ring.ok_flush h
  · exact Ring.ok_store b hC h (by have := h.1; omega)

theorem Ring.ok_pushBytes {C : Nat} (s : List Byte) {r : Ring} (hC : C ≤ 256) (h : r.ok C) : (r.pushBytes C s).ok C := by
  unfold Ring.pushBytes
  split
  · exact Ring.ok_flush h
  · exact (Ring.storeBytes_spec s hC h (by omega)).1

/-- A slice that does not fit empties the queue; one that fits follows it (R113). -/
theorem Ring.queue_pushBytes {C : Nat} (s : List Byte) {r : Ring} (hC : C ≤ 256) (h : r.ok C) :
    (r.pushBytes C s).queue C = if C < r.count.toNat + s.length then [] else r.queue C ++ s := by
  unfold Ring.pushBytes
  split
  · rfl
  · exact (Ring.storeBytes_spec s hC h (by omega)).2.1

theorem Ring.queue_push {C : Nat} (b : Byte) {r : Ring} (hC : C ≤ 256) (h : r.ok C) :
    (r.push C b).queue C = if r.count.toNat = C then [] else r.queue C ++ [b] := by
  unfold Ring.push
  split
  · rfl
  · exact Ring.queue_store b hC h (by have := h.1; omega)

/-! ### `fifo_ensure` -/

/-- One pass of the loop of R118: what is left after the head entry is dropped, or `none` when its prefix claims more than is queued. -/
def Ring.skipEntry (C : Nat) (r : Ring) : Option Ring :=
  if (r.pop C).2.count.toNat < (r.pop C).1.toNat then none else some ((r.pop C).2.drop C (r.pop C).1.toNat)

theorem Ring.ensureLoop_done {C n fuel : Nat} {r : Ring} (h : n + r.count.toNat ≤ C) : Ring.ensureLoop C n fuel r = (r, []) := by
  cases fuel with
  | zero => rfl
  | succ fuel => rw [Ring.ensureLoop, if_neg (by omega)]

theorem Ring.skipEntry_count {C : Nat} {r r' : Ring} (h : r.skipEntry C = some r') (hc : r.count ≠ 0) :
    r'.count.toNat < r.count.toNat := by
  have hpos := Ring.count_ne_zero.1 hc
  unfold Ring.skipEntry at h
  split at h
  · exact absurd h (by simp)
  · rw [← Option.some.inj h, Ring.drop_count_toNat, Ring.pop_count_toNat]; omega

/-- More fuel than there are bytes queued changes nothing. -/
theorem Ring.ensureLoop_fuel {C n fuel : Nat} {r : Ring} (hn : n ≤ C) (hf : r.count.toNat ≤ fuel) :
    Ring.ensureLoop C n fuel r = Ring.ensureLoop C n r.count.toNat r := by
  induction fuel using Nat.strong_induction_on generalizing r with
  | _ fuel ih =>
    by_cases hd : n + r.count.toNat ≤ C
    · rw [Ring.ensureLoop_done hd, Ring.ensureLoop_done hd]
    · have hc : 0 < r.count.toNat := by omega
      obtain ⟨k, hk⟩ : ∃ k, r.count.toNat = k + 1 := ⟨r.count.toNat - 1, by omega⟩
      obtain ⟨g, hg⟩ : ∃ g, fuel = g + 1 := ⟨fuel - 1, by omega⟩
      subst hg
      rw [hk]
      have hpc : (r.pop C).2.count.toNat = k := by rw [Ring.pop_count_toNat]; omega
      simp only [Ring.ensureLoop, if_pos (show C < n + r.count.toNat by omega)]
      split
      · rw [Ring.ensureLoop_done (by simpa using hn), Ring.ensureLoop_done (by simpa using hn)]
      · have hdc : ((r.pop C).2.drop C (r.pop C).1.toNat).count.toNat ≤ k := by rw [Ring.drop_count_toNat]; omega
        rw [ih g (by omega) (by omega), ih k (by omega) hdc]

/-- The loop of R118, pass by pass. -/
theorem Ring.ensureLoop_spec {C n : Nat} {r : Ring} (hn : n ≤ C) :
    Ring.ensureLoop C n r.count.toNat r =
      if C < n + r.count.toNat then
        match r.skipEntry C with
        | none => (r.flush, [Event.fifoFraming])
        | some r' => Ring.ensureLoop C n r'.count.toNat r'
      else (r, []) := by
  by_cases hd : n + r.count.toNat ≤ C
  · rw [Ring.ensureLoop_done hd, if_neg (by omega)]
  · obtain ⟨k, hk⟩ : ∃ k, r.count.toNat = k + 1 := ⟨r.count.toNat - 1, by omega⟩
    rw [hk, if_pos (by omega)]
    simp only [Ring.ensureLoop, if_pos (show C < n + r.count.toNat by omega), Ring.skipEntry]
    split
    · rw [Ring.ensureLoop_done (by simpa using hn)]
      have : (r.pop C).2.flush = r.flush := by unfold Ring.pop; split <;> rfl
      simp [this]
    · exact Ring.ensureLoop_fuel hn (by rw [Ring.drop_count_toNat, Ring.pop_count_toNat]; omega)

theorem Ring.ok_skipEntry {C : Nat} {r r' : Ring} (hC : C ≤ 256) (h : r.ok C) (hs : r.skipEntry C = some r') : r'.ok C := by
  unfold Ring.skipEntry at hs
  split at hs
  · exact absurd hs (by simp)
  · rw [← Option.some.inj hs]; exact Ring.ok_drop hC (Ring.ok_pop hC h) (by omega)

theorem Ring.skipEntry_mem {C : Nat} {r r' : Ring} (hs : r.skipEntry C = some r') : r'.mem = r.mem := by
  unfold Ring.skipEntry at hs
  split at hs
  · exact absurd hs (by simp)
  · rw [← Option.some.inj hs]; simp

/-- Everything `fifo_ensure` can do (R118): room is made, the invariant and every byte of `FIFO` are kept, and at most one framing
event is emitted, with the buffer flushed. -/
theorem Ring.ensureLoop_post {C n : Nat} {r : Ring} (hC : C ≤ 256) (hn : n ≤ C) (h : r.ok C) :
    (Ring.ensureLoop C n r.count.toNat r).1.ok C ∧
    n + (Ring.ensureLoop C n r.count.toNat r).1.count.toNat ≤ C ∧
    (Ring.ensureLoop C n r.count.toNat r).1.mem = r.mem ∧
    ((Ring.ensureLoop C n r.count.toNat r).2 = [] ∨
      (Ring.ensureLoop C n r.count.toNat r).2 = [Event.fifoFraming] ∧
      (Ring.ensureLoop C n r.count.toNat r).1 = r.flush) := by
  generalize hk : r.count.toNat = k
  induction k using Nat.strong_induction_on generalizing r with
  | _ k ih =>
    subst hk
    rw [Ring.ensureLoop_spec hn]
    split
    · rename_i hlt
      have hc : r.count ≠ 0 := Ring.count_ne_zero.2 (by omega)
      cases hs : r.skipEntry C with
      | none => exact ⟨Ring.ok_flush h, by simpa using hn, rfl, .inr ⟨rfl, rfl⟩⟩
      | some r' =>
        obtain ⟨a1, a2, a3, a4⟩ := ih _ (Ring.skipEntry_count hs hc) (Ring.ok_skipEntry hC h hs) rfl
        have hm := Ring.skipEntry_mem hs
        refine ⟨a1, a2, a3.trans hm, a4.imp_right fun ⟨e1, e2⟩ => ⟨e1, e2.trans ?_⟩⟩
        simp [Ring.flush, hm]
    · exact ⟨h, by simp only; omega, rfl, .inl rfl⟩

theorem Ring.ok_ensure {C n : Nat} {r : Ring} (hC : C ≤ 256) (h : r.ok C) : (r.ensure C n).2.1.ok C := by
  unfold Ring.ensure
  split
  · exact h
  · exact (Ring.ensureLoop_post hC (by omega) h).1

end Sys2Proof.Machine
end

