-- ==== Sys2Proof/Laws/State.lean ====
section
/-! SUPPORT. What each update of the state leaves in each field: one lemma per field per update, by which later proofs never unfold a
record update. An update that depends on a test has a lemma for each field it never touches. -/

namespace Sys2Proof.Machine

/-- Writing the flag it already has leaves the link as it is. -/
theorem Link.ext_connected (l : Link) (b : Bool) (h : l.connected = b) : ({ l with connected := b } : Link) = l := by
  cases l; subst h; rfl


/-! ### `emit` -/

@[simp] theorem State.emit_cfg (s : State) (e : Event) : (s.emit e).cfg = s.cfg := rfl
@[simp] theorem State.emit_ring (s : State) (e : Event) : (s.emit e).ring = s.ring := rfl
@[simp] theorem State.emit_parser (s : State) (e : Event) : (s.emit e).parser = s.parser := rfl
@[simp] theorem State.emit_link (s : State) (e : Event) : (s.emit e).link = s.link := rfl
@[simp] theorem State.emit_drain (s : State) (e : Event) : (s.emit e).drain = s.drain := rfl
@[simp] theorem State.emit_wdt (s : State) (e : Event) : (s.emit e).wdt = s.wdt := rfl
@[simp] theorem State.emit_lineDir (s : State) (e : Event) : (s.emit e).lineDir = s.lineDir := rfl
@[simp] theorem State.emit_lock (s : State) (e : Event) : (s.emit e).lock = s.lock := rfl
@[simp] theorem State.emit_events (s : State) (e : Event) : (s.emit e).events = s.events ++ [e] := rfl
@[simp] theorem State.emit_resp (s : State) (e : Event) : (s.emit e).resp = s.resp := rfl
@[simp] theorem State.emit_pend (s : State) (e : Event) : (s.emit e).pend = s.pend := rfl
@[simp] theorem State.emit_active (s : State) (e : Event) : (s.emit e).active = s.active := rfl
@[simp] theorem State.emit_draws (s : State) (e : Event) : (s.emit e).draws = s.draws := rfl

/-! ### `emits` -/

@[simp] theorem State.emits_cfg (s : State) (es : List Event) : (s.emits es).cfg = s.cfg := rfl
@[simp] theorem State.emits_ring (s : State) (es : List Event) : (s.emits es).ring = s.ring := rfl
@[simp] theorem State.emits_parser (s : State) (es : List Event) : (s.emits es).parser = s.parser := rfl
@[simp] theorem State.emits_link (s : State) (es : List Event) : (s.emits es).link = s.link := rfl
@[simp] theorem State.emits_drain (s : State) (es : List Event) : (s.emits es).drain = s.drain := rfl
@[simp] theorem State.emits_wdt (s : State) (es : List Event) : (s.emits es).wdt = s.wdt := rfl
@[simp] theorem State.emits_lineDir (s : State) (es : List Event) : (s.emits es).lineDir = s.lineDir := rfl
@[simp] theorem State.emits_lock (s : State) (es : List Event) : (s.emits es).lock = s.lock := rfl
@[simp] theorem State.emits_events (s : State) (es : List Event) : (s.emits es).events = s.events ++ es := rfl
@[simp] theorem State.emits_resp (s : State) (es : List Event) : (s.emits es).resp = s.resp := rfl
@[simp] theorem State.emits_pend (s : State) (es : List Event) : (s.emits es).pend = s.pend := rfl
@[simp] theorem State.emits_active (s : State) (es : List Event) : (s.emits es).active = s.active := rfl
@[simp] theorem State.emits_draws (s : State) (es : List Event) : (s.emits es).draws = s.draws := rfl

/-! ### `respond` -/

@[simp] theorem State.respond_cfg (s : State) (st : Status) (v : Word32) (d : List Byte) : (s.respond st v d).cfg = s.cfg := rfl
@[simp] theorem State.respond_ring (s : State) (st : Status) (v : Word32) (d : List Byte) : (s.respond st v d).ring = s.ring := rfl
@[simp] theorem State.respond_parser (s : State) (st : Status) (v : Word32) (d : List Byte) : (s.respond st v d).parser = s.parser := rfl
@[simp] theorem State.respond_link (s : State) (st : Status) (v : Word32) (d : List Byte) : (s.respond st v d).link = s.link := rfl
@[simp] theorem State.respond_drain (s : State) (st : Status) (v : Word32) (d : List Byte) : (s.respond st v d).drain = s.drain := rfl
@[simp] theorem State.respond_wdt (s : State) (st : Status) (v : Word32) (d : List Byte) : (s.respond st v d).wdt = s.wdt := rfl
@[simp] theorem State.respond_lineDir (s : State) (st : Status) (v : Word32) (d : List Byte) : (s.respond st v d).lineDir = s.lineDir := rfl
@[simp] theorem State.respond_lock (s : State) (st : Status) (v : Word32) (d : List Byte) : (s.respond st v d).lock = s.lock := rfl
@[simp] theorem State.respond_events (s : State) (st : Status) (v : Word32) (d : List Byte) : (s.respond st v d).events = s.events := rfl
@[simp] theorem State.respond_resp (s : State) (st : Status) (v : Word32) (d : List Byte) : (s.respond st v d).resp = s.resp.set s.active (s.resp.get s.active ++ [⟨st, v, d⟩]) := rfl
@[simp] theorem State.respond_pend (s : State) (st : Status) (v : Word32) (d : List Byte) : (s.respond st v d).pend = s.pend := rfl
@[simp] theorem State.respond_active (s : State) (st : Status) (v : Word32) (d : List Byte) : (s.respond st v d).active = s.active := rfl
@[simp] theorem State.respond_draws (s : State) (st : Status) (v : Word32) (d : List Byte) : (s.respond st v d).draws = s.draws := rfl

/-! ### `ok` -/

@[simp] theorem State.ok_cfg (s : State) (v : Word32) : (s.ok v).cfg = s.cfg := rfl
@[simp] theorem State.ok_ring (s : State) (v : Word32) : (s.ok v).ring = s.ring := rfl
@[simp] theorem State.ok_parser (s : State) (v : Word32) : (s.ok v).parser = s.parser := rfl
@[simp] theorem State.ok_link (s : State) (v : Word32) : (s.ok v).link = s.link := rfl
@[simp] theorem State.ok_drain (s : State) (v : Word32) : (s.ok v).drain = s.drain := rfl
@[simp] theorem State.ok_wdt (s : State) (v : Word32) : (s.ok v).wdt = s.wdt := rfl
@[simp] theorem State.ok_lineDir (s : State) (v : Word32) : (s.ok v).lineDir = s.lineDir := rfl
@[simp] theorem State.ok_lock (s : State) (v : Word32) : (s.ok v).lock = s.lock := rfl
@[simp] theorem State.ok_events (s : State) (v : Word32) : (s.ok v).events = s.events := rfl
@[simp] theorem State.ok_resp (s : State) (v : Word32) : (s.ok v).resp = s.resp.set s.active (s.resp.get s.active ++ [⟨.ok, v, []⟩]) := rfl
@[simp] theorem State.ok_pend (s : State) (v : Word32) : (s.ok v).pend = s.pend := rfl
@[simp] theorem State.ok_active (s : State) (v : Word32) : (s.ok v).active = s.active := rfl
@[simp] theorem State.ok_draws (s : State) (v : Word32) : (s.ok v).draws = s.draws := rfl

/-! ### `illegalCommand` -/

@[simp] theorem State.illegalCommand_cfg (s : State) (op : Byte) : (s.illegalCommand op).cfg = s.cfg := rfl
@[simp] theorem State.illegalCommand_ring (s : State) (op : Byte) : (s.illegalCommand op).ring = s.ring := rfl
@[simp] theorem State.illegalCommand_parser (s : State) (op : Byte) : (s.illegalCommand op).parser = s.parser := rfl
@[simp] theorem State.illegalCommand_link (s : State) (op : Byte) : (s.illegalCommand op).link = s.link := rfl
@[simp] theorem State.illegalCommand_drain (s : State) (op : Byte) : (s.illegalCommand op).drain = s.drain := rfl
@[simp] theorem State.illegalCommand_wdt (s : State) (op : Byte) : (s.illegalCommand op).wdt = s.wdt := rfl
@[simp] theorem State.illegalCommand_lineDir (s : State) (op : Byte) : (s.illegalCommand op).lineDir = s.lineDir := rfl
@[simp] theorem State.illegalCommand_lock (s : State) (op : Byte) : (s.illegalCommand op).lock = s.lock := rfl
@[simp] theorem State.illegalCommand_events (s : State) (op : Byte) : (s.illegalCommand op).events = s.events ++ [.illegalCmd op] := rfl
@[simp] theorem State.illegalCommand_resp (s : State) (op : Byte) : (s.illegalCommand op).resp = s.resp.set s.active (s.resp.get s.active ++ [⟨.illegal, 0, []⟩]) := rfl
@[simp] theorem State.illegalCommand_pend (s : State) (op : Byte) : (s.illegalCommand op).pend = s.pend := rfl
@[simp] theorem State.illegalCommand_active (s : State) (op : Byte) : (s.illegalCommand op).active = s.active := rfl
@[simp] theorem State.illegalCommand_draws (s : State) (op : Byte) : (s.illegalCommand op).draws = s.draws := rfl

/-! ### `drawn` -/

@[simp] theorem State.drawn_cfg (s : State) (n : Nat) : (s.drawn n).cfg = s.cfg := rfl
@[simp] theorem State.drawn_ring (s : State) (n : Nat) : (s.drawn n).ring = s.ring := rfl
@[simp] theorem State.drawn_parser (s : State) (n : Nat) : (s.drawn n).parser = s.parser := rfl
@[simp] theorem State.drawn_link (s : State) (n : Nat) : (s.drawn n).link = s.link := rfl
@[simp] theorem State.drawn_drain (s : State) (n : Nat) : (s.drawn n).drain = s.drain := rfl
@[simp] theorem State.drawn_wdt (s : State) (n : Nat) : (s.drawn n).wdt = s.wdt := rfl
@[simp] theorem State.drawn_lineDir (s : State) (n : Nat) : (s.drawn n).lineDir = s.lineDir := rfl
@[simp] theorem State.drawn_lock (s : State) (n : Nat) : (s.drawn n).lock = s.lock := rfl
@[simp] theorem State.drawn_events (s : State) (n : Nat) : (s.drawn n).events = s.events := rfl
@[simp] theorem State.drawn_resp (s : State) (n : Nat) : (s.drawn n).resp = s.resp := rfl
@[simp] theorem State.drawn_pend (s : State) (n : Nat) : (s.drawn n).pend = s.pend := rfl
@[simp] theorem State.drawn_active (s : State) (n : Nat) : (s.drawn n).active = s.active := rfl
@[simp] theorem State.drawn_draws (s : State) (n : Nat) : (s.drawn n).draws = s.draws + n := rfl

/-! ### `misread` -/

@[simp] theorem State.misread_cfg (s : State) (p : Port) : (s.misread p).cfg = s.cfg := rfl
@[simp] theorem State.misread_ring (s : State) (p : Port) : (s.misread p).ring = s.ring := rfl
@[simp] theorem State.misread_parser (s : State) (p : Port) : (s.misread p).parser = s.parser := rfl
@[simp] theorem State.misread_link (s : State) (p : Port) : (s.misread p).link = s.link := rfl
@[simp] theorem State.misread_drain (s : State) (p : Port) : (s.misread p).drain = s.drain := rfl
@[simp] theorem State.misread_wdt (s : State) (p : Port) : (s.misread p).wdt = s.wdt := rfl
@[simp] theorem State.misread_lineDir (s : State) (p : Port) : (s.misread p).lineDir = s.lineDir := rfl
@[simp] theorem State.misread_lock (s : State) (p : Port) : (s.misread p).lock = s.lock := rfl
@[simp] theorem State.misread_events (s : State) (p : Port) : (s.misread p).events = s.events := rfl
@[simp] theorem State.misread_resp (s : State) (p : Port) : (s.misread p).resp = s.resp := rfl
@[simp] theorem State.misread_active (s : State) (p : Port) : (s.misread p).active = s.active := rfl
@[simp] theorem State.misread_draws (s : State) (p : Port) : (s.misread p).draws = s.draws + 1 := rfl

/-! ### `serve` -/

@[simp] theorem State.serve_cfg (s : State) (p : Port) (rest : List PortItem) : (s.serve p rest).cfg = s.cfg := rfl
@[simp] theorem State.serve_ring (s : State) (p : Port) (rest : List PortItem) : (s.serve p rest).ring = s.ring := rfl
@[simp] theorem State.serve_parser (s : State) (p : Port) (rest : List PortItem) : (s.serve p rest).parser = s.parser := rfl
@[simp] theorem State.serve_link (s : State) (p : Port) (rest : List PortItem) : (s.serve p rest).link = s.link := rfl
@[simp] theorem State.serve_drain (s : State) (p : Port) (rest : List PortItem) : (s.serve p rest).drain = s.drain := rfl
@[simp] theorem State.serve_wdt (s : State) (p : Port) (rest : List PortItem) : (s.serve p rest).wdt = s.wdt := rfl
@[simp] theorem State.serve_lineDir (s : State) (p : Port) (rest : List PortItem) : (s.serve p rest).lineDir = s.lineDir := rfl
@[simp] theorem State.serve_lock (s : State) (p : Port) (rest : List PortItem) : (s.serve p rest).lock = s.lock := rfl
@[simp] theorem State.serve_events (s : State) (p : Port) (rest : List PortItem) : (s.serve p rest).events = s.events := rfl
@[simp] theorem State.serve_resp (s : State) (p : Port) (rest : List PortItem) : (s.serve p rest).resp = s.resp := rfl
@[simp] theorem State.serve_pend (s : State) (p : Port) (rest : List PortItem) : (s.serve p rest).pend = s.pend.set p rest := rfl
@[simp] theorem State.serve_active (s : State) (p : Port) (rest : List PortItem) : (s.serve p rest).active = p := rfl
@[simp] theorem State.serve_draws (s : State) (p : Port) (rest : List PortItem) : (s.serve p rest).draws = s.draws := rfl

/-! ### `txQueue` -/

@[simp] theorem State.txQueue_cfg (s : State) (f : List Byte) : (s.txQueue f).cfg = s.cfg := rfl
@[simp] theorem State.txQueue_ring (s : State) (f : List Byte) : (s.txQueue f).ring = s.ring.pushBytes s.cfg.fifoCap (queueEntry f) := rfl
@[simp] theorem State.txQueue_parser (s : State) (f : List Byte) : (s.txQueue f).parser = s.parser := rfl
@[simp] theorem State.txQueue_link (s : State) (f : List Byte) : (s.txQueue f).link = s.link := rfl
@[simp] theorem State.txQueue_drain (s : State) (f : List Byte) : (s.txQueue f).drain = s.drain := rfl
@[simp] theorem State.txQueue_wdt (s : State) (f : List Byte) : (s.txQueue f).wdt = s.wdt := rfl
@[simp] theorem State.txQueue_lineDir (s : State) (f : List Byte) : (s.txQueue f).lineDir = s.lineDir := rfl
@[simp] theorem State.txQueue_lock (s : State) (f : List Byte) : (s.txQueue f).lock = s.lock := rfl
@[simp] theorem State.txQueue_events (s : State) (f : List Byte) : (s.txQueue f).events = s.events := rfl
@[simp] theorem State.txQueue_resp (s : State) (f : List Byte) : (s.txQueue f).resp = s.resp := rfl
@[simp] theorem State.txQueue_pend (s : State) (f : List Byte) : (s.txQueue f).pend = s.pend := rfl
@[simp] theorem State.txQueue_active (s : State) (f : List Byte) : (s.txQueue f).active = s.active := rfl
@[simp] theorem State.txQueue_draws (s : State) (f : List Byte) : (s.txQueue f).draws = s.draws := rfl

/-! ### `txDropped` -/

@[simp] theorem State.txDropped_cfg (s : State) : s.txDropped.cfg = s.cfg := rfl
@[simp] theorem State.txDropped_ring (s : State) : s.txDropped.ring = s.ring := rfl
@[simp] theorem State.txDropped_parser (s : State) : s.txDropped.parser = s.parser := rfl
@[simp] theorem State.txDropped_link (s : State) : s.txDropped.link = s.link := rfl
@[simp] theorem State.txDropped_drain (s : State) : s.txDropped.drain = s.drain := rfl
@[simp] theorem State.txDropped_wdt (s : State) : s.txDropped.wdt = s.wdt := rfl
@[simp] theorem State.txDropped_lineDir (s : State) : s.txDropped.lineDir = s.lineDir := rfl
@[simp] theorem State.txDropped_lock (s : State) : s.txDropped.lock = s.lock := rfl
@[simp] theorem State.txDropped_events (s : State) : s.txDropped.events = s.events ++ [.txDrop] := rfl
@[simp] theorem State.txDropped_resp (s : State) : s.txDropped.resp = s.resp.set s.active (s.resp.get s.active ++ [⟨.ok, 0, []⟩]) := rfl
@[simp] theorem State.txDropped_pend (s : State) : s.txDropped.pend = s.pend := rfl
@[simp] theorem State.txDropped_active (s : State) : s.txDropped.active = s.active := rfl
@[simp] theorem State.txDropped_draws (s : State) : s.txDropped.draws = s.draws := rfl

/-! ### `stopped` -/

@[simp] theorem State.stopped_cfg (s : State) : s.stopped.cfg = s.cfg := rfl
@[simp] theorem State.stopped_ring (s : State) : s.stopped.ring = s.ring.flush := rfl
@[simp] theorem State.stopped_parser (s : State) : s.stopped.parser = s.parser.reset := rfl
@[simp] theorem State.stopped_link (s : State) : s.stopped.link = { s.link with good := 0, bad := 0 } := rfl
@[simp] theorem State.stopped_drain (s : State) : s.stopped.drain = { s.drain with off := 0, rem := 0 } := rfl
@[simp] theorem State.stopped_wdt (s : State) : s.stopped.wdt = s.wdt := rfl
@[simp] theorem State.stopped_lineDir (s : State) : s.stopped.lineDir = s.lineDir := rfl
@[simp] theorem State.stopped_lock (s : State) : s.stopped.lock = false := rfl
@[simp] theorem State.stopped_events (s : State) : s.stopped.events = s.events := rfl
@[simp] theorem State.stopped_resp (s : State) : s.stopped.resp = s.resp := rfl
@[simp] theorem State.stopped_pend (s : State) : s.stopped.pend = s.pend := rfl
@[simp] theorem State.stopped_active (s : State) : s.stopped.active = s.active := rfl
@[simp] theorem State.stopped_draws (s : State) : s.stopped.draws = s.draws := rfl

/-! ### `restartInterval` -/

@[simp] theorem State.restartInterval_cfg (s : State) (last : Word32) : (s.restartInterval last).cfg = s.cfg := rfl
@[simp] theorem State.restartInterval_ring (s : State) (last : Word32) : (s.restartInterval last).ring = s.ring := rfl
@[simp] theorem State.restartInterval_parser (s : State) (last : Word32) : (s.restartInterval last).parser = s.parser := rfl
@[simp] theorem State.restartInterval_link (s : State) (last : Word32) : (s.restartInterval last).link = { s.link with good := 0, bad := 0 } := rfl
@[simp] theorem State.restartInterval_drain (s : State) (last : Word32) : (s.restartInterval last).drain = s.drain := rfl
@[simp] theorem State.restartInterval_wdt (s : State) (last : Word32) : (s.restartInterval last).wdt = { s.wdt with last := last } := rfl
@[simp] theorem State.restartInterval_lineDir (s : State) (last : Word32) : (s.restartInterval last).lineDir = s.lineDir := rfl
@[simp] theorem State.restartInterval_lock (s : State) (last : Word32) : (s.restartInterval last).lock = s.lock := rfl
@[simp] theorem State.restartInterval_events (s : State) (last : Word32) : (s.restartInterval last).events = s.events := rfl
@[simp] theorem State.restartInterval_resp (s : State) (last : Word32) : (s.restartInterval last).resp = s.resp := rfl
@[simp] theorem State.restartInterval_pend (s : State) (last : Word32) : (s.restartInterval last).pend = s.pend := rfl
@[simp] theorem State.restartInterval_active (s : State) (last : Word32) : (s.restartInterval last).active = s.active := rfl
@[simp] theorem State.restartInterval_draws (s : State) (last : Word32) : (s.restartInterval last).draws = s.draws := rfl

/-! ### `linkUp` -/

@[simp] theorem State.linkUp_cfg (s : State) : s.linkUp.cfg = s.cfg := by
  unfold State.linkUp; split <;> rfl
@[simp] theorem State.linkUp_ring (s : State) : s.linkUp.ring = s.ring := by
  unfold State.linkUp; split <;> rfl
@[simp] theorem State.linkUp_parser (s : State) : s.linkUp.parser = s.parser := by
  unfold State.linkUp; split <;> rfl
@[simp] theorem State.linkUp_link (s : State) :
    s.linkUp.link = { s.link with connected := true } := by
  cases h : s.link.connected <;> simp [State.linkUp, h, Link.ext_connected]
@[simp] theorem State.linkUp_drain (s : State) : s.linkUp.drain = s.drain := by
  unfold State.linkUp; split <;> rfl
@[simp] theorem State.linkUp_wdt (s : State) : s.linkUp.wdt = s.wdt := by
  unfold State.linkUp; split <;> rfl
@[simp] theorem State.linkUp_lineDir (s : State) : s.linkUp.lineDir = s.lineDir := by
  unfold State.linkUp; split <;> rfl
@[simp] theorem State.linkUp_lock (s : State) : s.linkUp.lock = s.lock := by
  unfold State.linkUp; split <;> rfl
@[simp] theorem State.linkUp_events (s : State) :
    s.linkUp.events = s.events ++ (if s.link.connected then [] else [.connected]) := by
  cases h : s.link.connected <;> simp [State.linkUp, h]
@[simp] theorem State.linkUp_resp (s : State) : s.linkUp.resp = s.resp := by
  unfold State.linkUp; split <;> rfl
@[simp] theorem State.linkUp_pend (s : State) : s.linkUp.pend = s.pend := by
  unfold State.linkUp; split <;> rfl
@[simp] theorem State.linkUp_active (s : State) : s.linkUp.active = s.active := by
  unfold State.linkUp; split <;> rfl
@[simp] theorem State.linkUp_draws (s : State) : s.linkUp.draws = s.draws := by
  unfold State.linkUp; split <;> rfl

/-! ### `linkDown` -/

@[simp] theorem State.linkDown_cfg (s : State) : s.linkDown.cfg = s.cfg := by
  unfold State.linkDown; split <;> rfl
@[simp] theorem State.linkDown_ring (s : State) : s.linkDown.ring = s.ring := by
  unfold State.linkDown; split <;> rfl
@[simp] theorem State.linkDown_parser (s : State) : s.linkDown.parser = s.parser := by
  unfold State.linkDown; split <;> rfl
@[simp] theorem State.linkDown_link (s : State) :
    s.linkDown.link = { s.link with connected := false } := by
  cases h : s.link.connected <;> simp [State.linkDown, h, Link.ext_connected]
@[simp] theorem State.linkDown_drain (s : State) : s.linkDown.drain = s.drain := by
  unfold State.linkDown; split <;> rfl
@[simp] theorem State.linkDown_wdt (s : State) : s.linkDown.wdt = s.wdt := by
  unfold State.linkDown; split <;> rfl
@[simp] theorem State.linkDown_lineDir (s : State) : s.linkDown.lineDir = s.lineDir := by
  unfold State.linkDown; split <;> rfl
@[simp] theorem State.linkDown_lock (s : State) : s.linkDown.lock = s.lock := by
  unfold State.linkDown; split <;> rfl
@[simp] theorem State.linkDown_events (s : State) :
    s.linkDown.events = s.events ++ (if s.link.connected then [.disconnected] else []) := by
  cases h : s.link.connected <;> simp [State.linkDown, h]
@[simp] theorem State.linkDown_resp (s : State) : s.linkDown.resp = s.resp := by
  unfold State.linkDown; split <;> rfl
@[simp] theorem State.linkDown_pend (s : State) : s.linkDown.pend = s.pend := by
  unfold State.linkDown; split <;> rfl
@[simp] theorem State.linkDown_active (s : State) : s.linkDown.active = s.active := by
  unfold State.linkDown; split <;> rfl
@[simp] theorem State.linkDown_draws (s : State) : s.linkDown.draws = s.draws := by
  unfold State.linkDown; split <;> rfl

/-! ### `duplexToTx` -/

@[simp] theorem State.duplexToTx_cfg (s : State) : s.duplexToTx.cfg = s.cfg := by
  unfold State.duplexToTx; split <;> rfl
@[simp] theorem State.duplexToTx_ring (s : State) : s.duplexToTx.ring = s.ring := by
  unfold State.duplexToTx; split <;> rfl
@[simp] theorem State.duplexToTx_parser (s : State) : s.duplexToTx.parser = s.parser := by
  unfold State.duplexToTx; split <;> rfl
@[simp] theorem State.duplexToTx_link (s : State) : s.duplexToTx.link = s.link := by
  unfold State.duplexToTx; split <;> rfl
@[simp] theorem State.duplexToTx_drain (s : State) : s.duplexToTx.drain = s.drain := by
  unfold State.duplexToTx; split <;> rfl
@[simp] theorem State.duplexToTx_wdt (s : State) : s.duplexToTx.wdt = s.wdt := by
  unfold State.duplexToTx; split <;> rfl
@[simp] theorem State.duplexToTx_lineDir (s : State) :
    s.duplexToTx.lineDir = if s.cfg.halfDuplex then .tx else s.lineDir := by
  unfold State.duplexToTx; split <;> simp_all
@[simp] theorem State.duplexToTx_lock (s : State) : s.duplexToTx.lock = s.lock := by
  unfold State.duplexToTx; split <;> rfl
@[simp] theorem State.duplexToTx_events (s : State) :
    s.duplexToTx.events = s.events ++ (if s.cfg.halfDuplex then [.lineTx] else []) := by
  unfold State.duplexToTx; split <;> simp_all
@[simp] theorem State.duplexToTx_resp (s : State) : s.duplexToTx.resp = s.resp := by
  unfold State.duplexToTx; split <;> rfl
@[simp] theorem State.duplexToTx_pend (s : State) : s.duplexToTx.pend = s.pend := by
  unfold State.duplexToTx; split <;> rfl
@[simp] theorem State.duplexToTx_active (s : State) : s.duplexToTx.active = s.active := by
  unfold State.duplexToTx; split <;> rfl
@[simp] theorem State.duplexToTx_draws (s : State) : s.duplexToTx.draws = s.draws := by
  unfold State.duplexToTx; split <;> rfl

/-! ### `duplexToRx` -/

@[simp] theorem State.duplexToRx_cfg (s : State) : s.duplexToRx.cfg = s.cfg := by
  unfold State.duplexToRx; split <;> rfl
@[simp] theorem State.duplexToRx_ring (s : State) : s.duplexToRx.ring = s.ring := by
  unfold State.duplexToRx; split <;> rfl
@[simp] theorem State.duplexToRx_parser (s : State) : s.duplexToRx.parser = s.parser := by
  unfold State.duplexToRx; split <;> rfl
@[simp] theorem State.duplexToRx_link (s : State) : s.duplexToRx.link = s.link := by
  unfold State.duplexToRx; split <;> rfl
@[simp] theorem State.duplexToRx_drain (s : State) : s.duplexToRx.drain = s.drain := by
  unfold State.duplexToRx; split <;> rfl
@[simp] theorem State.duplexToRx_wdt (s : State) : s.duplexToRx.wdt = s.wdt := by
  unfold State.duplexToRx; split <;> rfl
@[simp] theorem State.duplexToRx_lineDir (s : State) :
    s.duplexToRx.lineDir = if s.cfg.halfDuplex then .rx else s.lineDir := by
  unfold State.duplexToRx; split <;> simp_all
@[simp] theorem State.duplexToRx_lock (s : State) : s.duplexToRx.lock = s.lock := by
  unfold State.duplexToRx; split <;> rfl
@[simp] theorem State.duplexToRx_events (s : State) :
    s.duplexToRx.events = s.events ++ (if s.cfg.halfDuplex then [.lineRx, .rxDiscard] else []) := by
  unfold State.duplexToRx; split <;> simp_all
@[simp] theorem State.duplexToRx_resp (s : State) : s.duplexToRx.resp = s.resp := by
  unfold State.duplexToRx; split <;> rfl
@[simp] theorem State.duplexToRx_pend (s : State) : s.duplexToRx.pend = s.pend := by
  unfold State.duplexToRx; split <;> rfl
@[simp] theorem State.duplexToRx_active (s : State) : s.duplexToRx.active = s.active := by
  unfold State.duplexToRx; split <;> rfl
@[simp] theorem State.duplexToRx_draws (s : State) : s.duplexToRx.draws = s.draws := by
  unfold State.duplexToRx; split <;> rfl

/-! ### `rearmReceive` -/

@[simp] theorem State.rearmReceive_cfg (s : State) : s.rearmReceive.cfg = s.cfg := by
  unfold State.rearmReceive; split <;> rfl
@[simp] theorem State.rearmReceive_ring (s : State) : s.rearmReceive.ring = s.ring := by
  unfold State.rearmReceive; split <;> rfl
@[simp] theorem State.rearmReceive_parser (s : State) : s.rearmReceive.parser = s.parser := by
  unfold State.rearmReceive; split <;> rfl
@[simp] theorem State.rearmReceive_link (s : State) : s.rearmReceive.link = s.link := by
  unfold State.rearmReceive; split <;> rfl
@[simp] theorem State.rearmReceive_drain (s : State) : s.rearmReceive.drain = s.drain := by
  unfold State.rearmReceive; split <;> rfl
@[simp] theorem State.rearmReceive_wdt (s : State) : s.rearmReceive.wdt = s.wdt := by
  unfold State.rearmReceive; split <;> rfl
@[simp] theorem State.rearmReceive_lineDir (s : State) :
    s.rearmReceive.lineDir = if s.cfg.halfDuplex then .rx else s.lineDir := by
  by_cases h : s.cfg.halfDuplex = true <;> simp [State.rearmReceive, h]
@[simp] theorem State.rearmReceive_lock (s : State) : s.rearmReceive.lock = s.lock := by
  unfold State.rearmReceive; split <;> rfl
@[simp] theorem State.rearmReceive_events (s : State) :
    s.rearmReceive.events = s.events ++ ((if s.cfg.halfDuplex then [.lineRx] else []) ++ [.rxDiscard]) := by
  by_cases h : s.cfg.halfDuplex = true <;> simp [State.rearmReceive, h]
@[simp] theorem State.rearmReceive_resp (s : State) : s.rearmReceive.resp = s.resp := by
  unfold State.rearmReceive; split <;> rfl
@[simp] theorem State.rearmReceive_pend (s : State) : s.rearmReceive.pend = s.pend := by
  unfold State.rearmReceive; split <;> rfl
@[simp] theorem State.rearmReceive_active (s : State) : s.rearmReceive.active = s.active := by
  unfold State.rearmReceive; split <;> rfl
@[simp] theorem State.rearmReceive_draws (s : State) : s.rearmReceive.draws = s.draws := by
  unfold State.rearmReceive; split <;> rfl

/-! ### `closePeriod` -/

@[simp] theorem State.closePeriod_cfg (s : State) (w : Nat) : (s.closePeriod w).cfg = s.cfg := by
  unfold State.closePeriod; split <;> simp
@[simp] theorem State.closePeriod_ring (s : State) (w : Nat) : (s.closePeriod w).ring = s.ring := by
  unfold State.closePeriod; split <;> simp
@[simp] theorem State.closePeriod_parser (s : State) (w : Nat) : (s.closePeriod w).parser = s.parser := by
  unfold State.closePeriod; split <;> simp
@[simp] theorem State.closePeriod_link (s : State) (w : Nat) : (s.closePeriod w).link = s.link := by
  unfold State.closePeriod; split <;> simp
@[simp] theorem State.closePeriod_drain (s : State) (w : Nat) : (s.closePeriod w).drain = s.drain := by
  unfold State.closePeriod; split <;> simp
@[simp] theorem State.closePeriod_wdt (s : State) (w : Nat) : (s.closePeriod w).wdt = s.wdt := by
  unfold State.closePeriod; split <;> simp
@[simp] theorem State.closePeriod_lineDir (s : State) (w : Nat) :
    (s.closePeriod w).lineDir = if w = 0 then s.lineDir else if s.cfg.halfDuplex then .rx else s.lineDir := by
  by_cases h : s.cfg.halfDuplex = true <;> by_cases hw : w = 0 <;> simp [State.closePeriod, State.duplexToRx, h, hw]
@[simp] theorem State.closePeriod_lock (s : State) (w : Nat) : (s.closePeriod w).lock = s.lock := by
  unfold State.closePeriod; split <;> simp
@[simp] theorem State.closePeriod_events (s : State) (w : Nat) :
    (s.closePeriod w).events = s.events ++ (if w = 0 then [] else .txFlush :: (if s.cfg.halfDuplex then [.lineRx, .rxDiscard] else [])) := by
  by_cases h : s.cfg.halfDuplex = true <;> by_cases hw : w = 0 <;> simp [State.closePeriod, State.duplexToRx, h, hw]
@[simp] theorem State.closePeriod_resp (s : State) (w : Nat) : (s.closePeriod w).resp = s.resp := by
  unfold State.closePeriod; split <;> simp
@[simp] theorem State.closePeriod_pend (s : State) (w : Nat) : (s.closePeriod w).pend = s.pend := by
  unfold State.closePeriod; split <;> simp
@[simp] theorem State.closePeriod_active (s : State) (w : Nat) : (s.closePeriod w).active = s.active := by
  unfold State.closePeriod; split <;> simp
@[simp] theorem State.closePeriod_draws (s : State) (w : Nat) : (s.closePeriod w).draws = s.draws := by
  unfold State.closePeriod; split <;> simp

/-! ### `rotate` -/

@[simp] theorem State.rotate_cfg (s : State) (i : Nat) (baud : Word32) (b : Nat × Nat) : (s.rotate i baud b).cfg = s.cfg := by
  simp [State.rotate]
@[simp] theorem State.rotate_ring (s : State) (i : Nat) (baud : Word32) (b : Nat × Nat) :
    (s.rotate i baud b).ring = s.ring.flush := by
  simp [State.rotate]
@[simp] theorem State.rotate_parser (s : State) (i : Nat) (baud : Word32) (b : Nat × Nat) : (s.rotate i baud b).parser = s.parser := by
  simp [State.rotate]
@[simp] theorem State.rotate_link (s : State) (i : Nat) (baud : Word32) (b : Nat × Nat) :
    (s.rotate i baud b).link = { s.link with connected := false } := by
  simp [State.rotate]
@[simp] theorem State.rotate_drain (s : State) (i : Nat) (baud : Word32) (b : Nat × Nat) : (s.rotate i baud b).drain = s.drain := by
  simp [State.rotate]
@[simp] theorem State.rotate_wdt (s : State) (i : Nat) (baud : Word32) (b : Nat × Nat) :
    (s.rotate i baud b).wdt = s.wdt.withBudget i b := by
  simp [State.rotate]
@[simp] theorem State.rotate_lineDir (s : State) (i : Nat) (baud : Word32) (b : Nat × Nat) :
    (s.rotate i baud b).lineDir = if s.cfg.halfDuplex then .rx else s.lineDir := by
  by_cases h : s.cfg.halfDuplex = true <;> simp [State.rotate, h]
@[simp] theorem State.rotate_lock (s : State) (i : Nat) (baud : Word32) (b : Nat × Nat) : (s.rotate i baud b).lock = s.lock := by
  simp [State.rotate]
@[simp] theorem State.rotate_events (s : State) (i : Nat) (baud : Word32) (b : Nat × Nat) :
    (s.rotate i baud b).events = s.events ++ ((if s.link.connected then [.disconnected] else []) ++ ([.txFlush, .baudSet baud] ++
      ((if s.cfg.halfDuplex then [.lineRx] else []) ++ [.rxDiscard]))) := by
  by_cases h : s.cfg.halfDuplex = true <;> simp [State.rotate, h]
@[simp] theorem State.rotate_resp (s : State) (i : Nat) (baud : Word32) (b : Nat × Nat) : (s.rotate i baud b).resp = s.resp := by
  simp [State.rotate]
@[simp] theorem State.rotate_pend (s : State) (i : Nat) (baud : Word32) (b : Nat × Nat) : (s.rotate i baud b).pend = s.pend := by
  simp [State.rotate]
@[simp] theorem State.rotate_active (s : State) (i : Nat) (baud : Word32) (b : Nat × Nat) : (s.rotate i baud b).active = s.active := by
  simp [State.rotate]
@[simp] theorem State.rotate_draws (s : State) (i : Nat) (baud : Word32) (b : Nat × Nat) : (s.rotate i baud b).draws = s.draws := by
  simp [State.rotate]

/-! ### `writeChunk` -/

@[simp] theorem State.writeChunk_cfg (s : State) (w : Nat) (first : Bool) : (s.writeChunk w first).cfg = s.cfg := by
  cases first <;> by_cases h : s.cfg.halfDuplex = true <;> simp [State.writeChunk, h]
@[simp] theorem State.writeChunk_ring (s : State) (w : Nat) (first : Bool) : (s.writeChunk w first).ring = s.ring := by
  cases first <;> by_cases h : s.cfg.halfDuplex = true <;> simp [State.writeChunk, h]
@[simp] theorem State.writeChunk_parser (s : State) (w : Nat) (first : Bool) : (s.writeChunk w first).parser = s.parser := by
  cases first <;> by_cases h : s.cfg.halfDuplex = true <;> simp [State.writeChunk, h]
@[simp] theorem State.writeChunk_link (s : State) (w : Nat) (first : Bool) : (s.writeChunk w first).link = s.link := by
  cases first <;> by_cases h : s.cfg.halfDuplex = true <;> simp [State.writeChunk, h]
@[simp] theorem State.writeChunk_wdt (s : State) (w : Nat) (first : Bool) : (s.writeChunk w first).wdt = s.wdt := by
  cases first <;> by_cases h : s.cfg.halfDuplex = true <;> simp [State.writeChunk, h]
@[simp] theorem State.writeChunk_lineDir (s : State) (w : Nat) (first : Bool) :
    (s.writeChunk w first).lineDir = if first = true ∧ s.cfg.halfDuplex = true then .tx else s.lineDir := by
  cases first <;> by_cases h : s.cfg.halfDuplex = true <;> simp [State.writeChunk, h]
@[simp] theorem State.writeChunk_lock (s : State) (w : Nat) (first : Bool) : (s.writeChunk w first).lock = s.lock := by
  cases first <;> by_cases h : s.cfg.halfDuplex = true <;> simp [State.writeChunk, h]
@[simp] theorem State.writeChunk_events (s : State) (w : Nat) (first : Bool) :
    (s.writeChunk w first).events = s.events ++ ((if first = true ∧ s.cfg.halfDuplex = true then [.lineTx] else []) ++
      (Memory.slice s.drain.buf s.drain.off.toNat w).map .txByte) := by
  cases first <;> by_cases h : s.cfg.halfDuplex = true <;> simp [State.writeChunk, h]
@[simp] theorem State.writeChunk_resp (s : State) (w : Nat) (first : Bool) : (s.writeChunk w first).resp = s.resp := by
  cases first <;> by_cases h : s.cfg.halfDuplex = true <;> simp [State.writeChunk, h]
@[simp] theorem State.writeChunk_pend (s : State) (w : Nat) (first : Bool) : (s.writeChunk w first).pend = s.pend := by
  cases first <;> by_cases h : s.cfg.halfDuplex = true <;> simp [State.writeChunk, h]
@[simp] theorem State.writeChunk_active (s : State) (w : Nat) (first : Bool) : (s.writeChunk w first).active = s.active := by
  cases first <;> by_cases h : s.cfg.halfDuplex = true <;> simp [State.writeChunk, h]
@[simp] theorem State.writeChunk_draws (s : State) (w : Nat) (first : Bool) : (s.writeChunk w first).draws = s.draws := by
  cases first <;> by_cases h : s.cfg.halfDuplex = true <;> simp [State.writeChunk, h]

theorem State.writeChunk_drain (s : State) (w : Nat) (first : Bool) :
    (s.writeChunk w first).drain = { s.drain with
      off := if s.drain.rem.toNat - w = 0 then 0 else BitVec.ofNat 8 (s.drain.off.toNat + w)
      rem := BitVec.ofNat 8 (s.drain.rem.toNat - w) } := rfl

/-! ### Ports -/

@[simp] theorem PerPort.get_set_self {α : Type} (x : PerPort α) (p : Port) (v : α) : (x.set p v).get p = v := by
  cases p <;> rfl

@[simp] theorem PerPort.get_set_ne {α : Type} (x : PerPort α) (p q : Port) (v : α) (h : q ≠ p) :
    (x.set p v).get q = x.get q := by
  cases p <;> cases q <;> first | rfl | exact absurd rfl h

@[simp] theorem PerPort.set_set {α : Type} (x : PerPort α) (p : Port) (v w : α) : (x.set p v).set p w = x.set p w := by
  cases p <;> rfl

@[simp] theorem PerPort.set_get {α : Type} (x : PerPort α) (p : Port) : x.set p (x.get p) = x := by
  cases p <;> rfl

end Sys2Proof.Machine
end

