-- ==== Sys2Proof/Laws/FrameRx.lean ====
section
/-! SUPPORT. The laws of the frame parser: each step of 42_frame_rx.md keeps the invariant of R31, and everything `RX.BYTE` can do. -/

namespace Sys2Proof.Machine

@[simp] theorem Parser.reset_buf (p : Parser) : p.reset.buf = p.buf := rfl
@[simp] theorem Parser.reset_state (p : Parser) : p.reset.state = .waitSync := rfl
@[simp] theorem Parser.reset_pos (p : Parser) : p.reset.pos = 0 := rfl
@[simp] theorem Parser.reset_len (p : Parser) : p.reset.len = 0 := rfl

/-- `RXBUF` holds more than its first two bytes. -/
theorem Config.two_lt_rxBufSize {c : Config} (h : c.ok) : 2 < c.rxBufSize := by
  obtain ⟨_, h1, h2, h3, h4, _⟩ := h
  unfold Config.rxBufSize
  omega

theorem Config.fifoCap_bounds {c : Config} (h : c.ok) : 2 ≤ c.fifoCap ∧ c.fifoCap ≤ 256 := by
  have := h.1
  simp only [List.mem_cons, List.not_mem_nil, or_false] at this
  omega

theorem Parser.ok_reset {c : Config} {p : Parser} (h : p.ok c) : p.reset.ok c :=
  ⟨fun _ => rfl, fun h => by simp at h, fun h => by simp at h, h.2.2.2.1, h.2.2.2.2⟩

theorem Parser.ok_waitSyncStep {c : Config} {p : Parser} (b : Byte) (hc : c.ok) (h : p.ok c) : (p.waitSyncStep c b).ok c := by
  unfold Parser.waitSyncStep
  split
  · exact ⟨fun h => by simp at h, fun _ => rfl, fun h => by simp at h, Memory.wf_write _ _ h.2.2.2.1,
      Memory.within_write _ h.2.2.2.2 (by have := Config.two_lt_rxBufSize hc; omega)⟩
  · exact h

theorem Parser.ok_readLengthStep {c : Config} {p : Parser} (b : Byte) (hc : c.ok) (h : p.ok c) :
    (p.readLengthStep c b).ok c := by
  unfold Parser.readLengthStep
  split
  · exact Parser.ok_reset h
  · refine ⟨fun h => by simp at h, fun h => by simp at h, fun _ => ?_, Memory.wf_write _ _ h.2.2.2.1,
      Memory.within_write _ h.2.2.2.2 (by have := Config.two_lt_rxBufSize hc; omega)⟩
    obtain ⟨_, h1, h2, h3, h4, _⟩ := hc
    have hp : (2 : BitVec 8).toNat = 2 := rfl
    simp only [hp]
    omega

@[simp] theorem Parser.store_state (p : Parser) (b : Byte) : (p.store b).state = p.state := rfl
@[simp] theorem Parser.store_len (p : Parser) (b : Byte) : (p.store b).len = p.len := rfl
@[simp] theorem Parser.store_buf (p : Parser) (b : Byte) : (p.store b).buf = Memory.write p.buf p.pos.toNat b := rfl

theorem Parser.store_pos_toNat {p : Parser} (b : Byte) (h : p.pos.toNat < 255) : (p.store b).pos.toNat = p.pos.toNat + 1 := by
  have h1 : (1 : BitVec 8).toNat = 1 := rfl
  rw [Parser.store, BitVec.toNat_add, h1]
  omega

/-- In `ReadBody` a position below `RX_POS_LIMIT` is an index of `RXBUF` (R63), and storing there does not wrap `rx_pos`. -/
theorem Parser.ok_index {c : Config} {p : Parser} (hc : c.ok) (h : p.ok c) (hb : p.state = .readBody)
    (hl : p.pos.toNat < c.rxPosLimit) : p.pos.toNat < c.rxBufSize ∧ p.pos.toNat < 255 := by
  obtain ⟨_, h2, h3, h4⟩ := h.2.2.1 hb
  obtain ⟨_, _, _, h5, _⟩ := hc
  unfold Config.rxBufSize
  omega

/-- A stored byte that does not complete the frame keeps the invariant of R31. -/
theorem Parser.ok_store {c : Config} {p : Parser} (b : Byte) (hc : c.ok) (h : p.ok c) (hb : p.state = .readBody)
    (hl : p.pos.toNat < c.rxPosLimit) (hn : (p.store b).complete = false) : (p.store b).ok c := by
  obtain ⟨hi, h255⟩ := Parser.ok_index hc h hb hl
  have hp := Parser.store_pos_toNat b h255
  obtain ⟨h2, h3, h4, h5⟩ := h.2.2.1 hb
  have hn' : ¬ p.len.toNat + 2 ≤ (p.store b).pos.toNat := of_decide_eq_false hn
  refine ⟨fun h => by simp [hb] at h, fun h => by simp [hb] at h, fun _ => ?_, Memory.wf_write _ _ h.2.2.2.1,
    Memory.within_write _ h.2.2.2.2 hi⟩
  rw [hp, Parser.store_len]
  omega

theorem Parser.reset_store_ok {c : Config} {p : Parser} (b : Byte) (hc : c.ok) (h : p.ok c) (hb : p.state = .readBody)
    (hl : p.pos.toNat < c.rxPosLimit) : (p.store b).reset.ok c :=
  ⟨fun _ => rfl, fun h => by simp at h, fun h => by simp at h, Memory.wf_write _ _ h.2.2.2.1,
    Memory.within_write _ h.2.2.2.2 (Parser.ok_index hc h hb hl).1⟩

/-- What the end of a frame does (R146 to R149), in both cases. -/
theorem State.finishFrame_spec (s : State) :
    s.finishFrame = if s.parser.crcMatches s.cfg then
      { s with
        parser := s.parser.reset
        link := { good := s.link.good + 1, bad := s.link.bad, connected := true }
        events := s.events ++ ((if s.link.connected then [] else [.connected]) ++ [.frame s.parser.frame])
        resp := s.resp.set s.active (s.resp.get s.active ++ [⟨.ok, 1, []⟩]) }
    else
      { s with
        parser := s.parser.reset
        link := { s.link with bad := s.link.bad + 1 }
        events := s.events ++ [.rxDiscard]
        resp := s.resp.set s.active (s.resp.get s.active ++ [⟨.ok, 2, []⟩]) } := by
  unfold State.finishFrame
  split
  · cases h : s.link.connected <;> simp [State.linkUp, h, State.emit, State.ok, State.respond]
  · rfl

/-- Everything `RX.BYTE` can do in a state that meets the invariants: no case stops. -/
theorem execRxByte_cases (b : Byte) {s : State} (hc : s.cfg.ok) (hp : s.parser.ok s.cfg) :
    (execRxByte b s = .next (s.ok 0)) ∨
    (∃ p, p.ok s.cfg ∧ execRxByte b s = .next ({ s with parser := p }.ok 0)) ∨
    (s.parser.state = .readBody ∧ s.parser.pos.toNat < s.cfg.rxPosLimit ∧ (s.parser.store b).complete = true ∧
      execRxByte b s = .next { s with parser := s.parser.store b }.finishFrame) := by
  unfold execRxByte
  split
  · exact .inl rfl
  · split
    · exact .inr (.inl ⟨_, Parser.ok_waitSyncStep b hc hp, rfl⟩)
    · exact .inr (.inl ⟨_, Parser.ok_readLengthStep b hc hp, rfl⟩)
    · rename_i hb
      unfold State.readBodyStep
      split
      · exact .inr (.inl ⟨_, Parser.ok_reset hp, rfl⟩)
      · rename_i hl
        have hl' : s.parser.pos.toNat < s.cfg.rxPosLimit := by omega
        rw [if_neg (by have := (Parser.ok_index hc hp hb hl').1; omega)]
        cases hcm : (s.parser.store b).complete with
        | true => exact .inr (.inr ⟨hb, hl', rfl, by simp [hcm]⟩)
        | false => exact .inr (.inl ⟨_, Parser.ok_store b hc hp hb hl' hcm, by simp [hcm]⟩)

end Sys2Proof.Machine
end

