-- ==== Sys2Proof/Laws/FrameTx.lean ====
section
/-! SUPPORT. The laws of the outbound drain (R166): what starting an entry finds, what writing a chunk does, everything the loop can do,
that its fuel is enough, and in what condition it ends. -/

namespace Sys2Proof.Machine

/-! ### The pieces of the loop -/

/-- Everything the head of the loop can find. A popped entry leaves the queue as its prefix and its body, and stands whole in `TXBUF`. -/
theorem State.startEntry_cases {s : State} (hC : s.cfg.fifoCap ≤ 256) (hr : s.ring.ok s.cfg.fifoCap) (hd : s.drain.ok) :
    (s.drain.rem ≠ 0 ∧ s.startEntry = .entry s) ∨
    (s.drain.rem = 0 ∧ s.ring.count = 0 ∧ s.startEntry = .idle) ∨
    (s.drain.rem = 0 ∧ s.ring.count ≠ 0 ∧ s.ring.skipEntry s.cfg.fifoCap = none ∧
      s.startEntry = .broken ({ s with ring := s.ring.flush }.emit .fifoFraming)) ∨
    (s.drain.rem = 0 ∧ s.ring.count ≠ 0 ∧ ∃ r d, s.startEntry = .entry { s with ring := r, drain := d } ∧
      s.ring.skipEntry s.cfg.fifoCap = some r ∧ d.ok ∧ d.off = 0 ∧ d.rem = (s.ring.pop s.cfg.fifoCap).1 ∧
      s.ring.queue s.cfg.fifoCap = d.rem :: (Memory.slice d.buf 0 d.rem.toNat ++ r.queue s.cfg.fifoCap)) := by
  unfold State.startEntry
  by_cases h1 : s.drain.rem = 0
  · rw [if_neg (by simpa using h1)]
    by_cases h2 : s.ring.count = 0
    · exact .inr (.inl ⟨h1, h2, by rw [if_pos h2]⟩)
    · rw [if_neg h2]
      by_cases h3 : (s.ring.pop s.cfg.fifoCap).2.count.toNat < (s.ring.pop s.cfg.fifoCap).1.toNat
      · refine .inr (.inr (.inl ⟨h1, h2, by rw [Ring.skipEntry, if_pos h3], ?_⟩))
        rw [if_pos h3]
        have : (s.ring.pop s.cfg.fifoCap).2.flush = s.ring.flush := by unfold Ring.pop; split <;> rfl
        rw [this]
      · refine .inr (.inr (.inr ⟨h1, h2, _, _, by rw [if_neg h3], by rw [Ring.skipEntry, if_neg h3], ?_, rfl, rfl, ?_⟩))
        · have hL := (s.ring.pop s.cfg.fifoCap).1.isLt
          refine ⟨?_, Memory.wf_writeBytes _ _ hd.2.1, Memory.within_writeBytes _ _ hd.2.2 ?_⟩
          · change 0 + (s.ring.pop s.cfg.fifoCap).1.toNat ≤ 255; omega
          · rw [Ring.length_bytes, Config.txBufSize]; omega
        · have hlen := Ring.length_bytes s.cfg.fifoCap (s.ring.pop s.cfg.fifoCap).1.toNat (s.ring.pop s.cfg.fifoCap).2
          have hsl := Memory.slice_writeBytes (m := s.drain.buf) 0
            ((s.ring.pop s.cfg.fifoCap).2.bytes s.cfg.fifoCap (s.ring.pop s.cfg.fifoCap).1.toNat) hd.2.1
          rw [hlen] at hsl
          rw [Ring.queue_eq_cons hC hr h2]
          simp only [hsl]
          rw [Ring.bytes_eq_take _ (by omega), Ring.queue_drop hC (Ring.ok_pop hC hr), List.take_append_drop]
  · exact .inl ⟨h1, by rw [if_pos (by simpa using h1)]⟩

/-- A chunk no longer than the entry leaves the rest of the entry in progress. -/
theorem State.writeChunk_inProgress {s : State} {w : Nat} (first : Bool) (hd : s.drain.ok) (hw : w ≤ s.drain.rem.toNat) :
    s.inProgress = Memory.slice s.drain.buf s.drain.off.toNat w ++ (s.writeChunk w first).inProgress ∧
    (s.writeChunk w first).drain.ok ∧ (s.writeChunk w first).drain.rem.toNat = s.drain.rem.toNat - w := by
  have hrem : (BitVec.ofNat 8 (s.drain.rem.toNat - w)).toNat = s.drain.rem.toNat - w := by
    rw [BitVec.toNat_ofNat]; exact Nat.mod_eq_of_lt (by have := s.drain.rem.isLt; omega)
  obtain ⟨h1, h2, h3⟩ := hd
  unfold State.inProgress
  rw [State.writeChunk_drain]
  simp only [hrem]
  split
  · rename_i h0
    have : s.drain.rem.toNat = w := by omega
    refine ⟨?_, ⟨?_, h2, h3⟩, trivial⟩
    · rw [this, Nat.sub_self, Memory.slice_zero, List.append_nil]
    · simp only [hrem]; change 0 + _ ≤ 255; omega
  · have hoff : (BitVec.ofNat 8 (s.drain.off.toNat + w)).toNat = s.drain.off.toNat + w := by
      rw [BitVec.toNat_ofNat]; exact Nat.mod_eq_of_lt (by omega)
    refine ⟨?_, ⟨?_, h2, h3⟩, trivial⟩
    · rw [hoff, ← Memory.slice_append]; congr 1; omega
    · simp only [hrem, hoff]; omega

/-! ### Everything the loop can do -/

/-- The events of a stretch of the loop: the turnaround before the period's first byte, the bytes, and a framing violation at most
at the end. -/
def drainEvents (turn : Bool) (bytes : List Byte) (broken : Bool) : List Event :=
  (if turn then [.lineTx] else []) ++ bytes.map .txByte ++ (if broken then [.fifoFraming] else [])

/-- The line is turned in this stretch: the period has written nothing before it and something in it, on a half-duplex line. -/
abbrev drainTurns (s : State) (written : Nat) (bytes : List Byte) : Bool :=
  s.cfg.halfDuplex && decide (written = 0) && decide (bytes ≠ [])

/-- The parts of the state a drain never writes. -/
structure DrainFrame (s t : State) : Prop where
  cfg : t.cfg = s.cfg
  mem : t.ring.mem = s.ring.mem
  parser : t.parser = s.parser
  link : t.link = s.link
  wdt : t.wdt = s.wdt
  lock : t.lock = s.lock
  resp : t.resp = s.resp
  pend : t.pend = s.pend
  active : t.active = s.active
  draws : t.draws = s.draws

theorem DrainFrame.trans {s t u : State} (h : DrainFrame s t) (h' : DrainFrame t u) : DrainFrame s u :=
  ⟨h'.cfg.trans h.cfg, h'.mem.trans h.mem, h'.parser.trans h.parser, h'.link.trans h.link, h'.wdt.trans h.wdt,
    h'.lock.trans h.lock, h'.resp.trans h.resp, h'.pend.trans h.pend, h'.active.trans h.active, h'.draws.trans h.draws⟩

/-- What a stretch of the loop from `s` to `t` has done: the bytes written, and whether it met a broken entry. -/
structure DrainRun (s t : State) (R written : Nat) (bytes : List Byte) (broken : Bool) : Prop where
  frame : DrainFrame s t
  ring : t.ring.ok s.cfg.fifoCap
  drain : t.drain.ok
  budget : bytes.length ≤ R
  events : t.events = s.events ++ drainEvents (drainTurns s written bytes) bytes broken
  line : t.lineDir = if drainTurns s written bytes then .tx else s.lineDir

theorem DrainRun.nothing {s : State} (R written : Nat) (hr : s.ring.ok s.cfg.fifoCap) (hd : s.drain.ok) :
    DrainRun s s R written [] false :=
  ⟨⟨rfl, rfl, rfl, rfl, rfl, rfl, rfl, rfl, rfl, rfl⟩, hr, hd, Nat.zero_le _, by simp [drainEvents], by simp⟩

/-- Starting an entry is not visible in the events. -/
theorem DrainRun.of_entry {s t : State} {r : Ring} {d : Drain} {R written : Nat} {bytes : List Byte} {broken : Bool}
    (hm : r.mem = s.ring.mem) (h : DrainRun { s with ring := r, drain := d } t R written bytes broken) :
    DrainRun s t R written bytes broken :=
  ⟨⟨h.frame.cfg, h.frame.mem.trans hm, h.frame.parser, h.frame.link, h.frame.wdt, h.frame.lock, h.frame.resp, h.frame.pend,
    h.frame.active, h.frame.draws⟩, h.ring, h.drain, h.budget, h.events, h.line⟩

/-- A chunk, then the rest of the loop. -/
theorem DrainRun.of_chunk {s t : State} {R written w : Nat} {bytes : List Byte} {broken : Bool}
    (hw0 : 0 < w) (hwR : w ≤ R)
    (h : DrainRun (s.writeChunk w (written == 0)) t (R - w) (written + w) bytes broken) :
    DrainRun s t R written (Memory.slice s.drain.buf s.drain.off.toNat w ++ bytes) broken := by
  have hne : Memory.slice s.drain.buf s.drain.off.toNat w ++ bytes ≠ [] := by
    intro h0
    have := congrArg List.length h0
    simp only [List.length_append, Memory.length_slice, List.length_nil] at this
    omega
  have hnt : drainTurns (s.writeChunk w (written == 0)) (written + w) bytes = false := by
    simp only [drainTurns, decide_eq_false (show ¬ written + w = 0 by omega), Bool.and_false, Bool.false_and]
  have ht : drainTurns s written (Memory.slice s.drain.buf s.drain.off.toNat w ++ bytes) =
      (s.cfg.halfDuplex && decide (written = 0)) := by
    simp only [drainTurns, hne, ne_eq, not_false_eq_true, decide_true, Bool.and_true]
  have hev := h.events
  have hln := h.line
  rw [hnt] at hev hln
  refine ⟨?_, by simpa using h.ring, h.drain, ?_, ?_, ?_⟩
  · obtain ⟨a1, a2, a3, a4, a5, a6, a7, a8, a9, a10⟩ := h.frame
    simp only [State.writeChunk_cfg, State.writeChunk_ring, State.writeChunk_parser, State.writeChunk_link, State.writeChunk_wdt,
      State.writeChunk_lock, State.writeChunk_resp, State.writeChunk_pend, State.writeChunk_active, State.writeChunk_draws]
      at a1 a2 a3 a4 a5 a6 a7 a8 a9 a10
    exact ⟨a1, a2, a3, a4, a5, a6, a7, a8, a9, a10⟩
  · have := h.budget
    simp only [List.length_append, Memory.length_slice]
    omega
  · rw [hev, ht, State.writeChunk_events]
    cases s.cfg.halfDuplex <;> by_cases hz : written = 0 <;> simp [drainEvents, hz]
  · rw [hln, ht, State.writeChunk_lineDir]
    cases s.cfg.halfDuplex <;> by_cases hz : written = 0 <;> simp [hz]

/-- Everything the loop of R166 can do, whatever the fuel. -/
theorem drainLoop_run {B fuel R written : Nat} {s : State} (hC : s.cfg.fifoCap ≤ 256) (hr : s.ring.ok s.cfg.fifoCap)
    (hd : s.drain.ok) : ∃ bytes broken, (drainLoop B fuel R written s).2 = written + bytes.length ∧
      DrainRun s (drainLoop B fuel R written s).1 R written bytes broken := by
  induction fuel generalizing R written s with
  | zero => exact ⟨[], false, rfl, DrainRun.nothing R written hr hd⟩
  | succ fuel ih =>
    rw [drainLoop]
    by_cases hR : R = 0
    · rw [if_pos hR]; exact ⟨[], false, rfl, DrainRun.nothing R written hr hd⟩
    rw [if_neg hR]
    have chunk : ∀ t : State, t.cfg.fifoCap ≤ 256 → t.ring.ok t.cfg.fifoCap → t.drain.ok → t.drain.rem ≠ 0 →
        ∃ bytes broken, (drainLoop B fuel (R - min t.drain.rem.toNat R) (written + min t.drain.rem.toNat R)
          (t.writeChunk (min t.drain.rem.toNat R) (written == 0))).2 = written + bytes.length ∧
          DrainRun t (drainLoop B fuel (R - min t.drain.rem.toNat R) (written + min t.drain.rem.toNat R)
            (t.writeChunk (min t.drain.rem.toNat R) (written == 0))).1 R written bytes broken := by
      intro t hC' hr' hd' h0
      have hpos : 0 < t.drain.rem.toNat := by
        rw [ne_eq, ← BitVec.toNat_inj, show (0 : BitVec 8).toNat = 0 from rfl] at h0; omega
      obtain ⟨_, hd2, _⟩ := State.writeChunk_inProgress (w := min t.drain.rem.toNat R) (written == 0) hd' (by omega)
      obtain ⟨bytes, broken, h1, h2⟩ := ih (R := R - min t.drain.rem.toNat R) (written := written + min t.drain.rem.toNat R)
        (s := t.writeChunk (min t.drain.rem.toNat R) (written == 0)) (by simpa using hC') (by simpa using hr') hd2
      refine ⟨_, broken, ?_, DrainRun.of_chunk (by omega) (by omega) h2⟩
      rw [h1]
      simp only [List.length_append, Memory.length_slice]
      omega
    rcases State.startEntry_cases hC hr hd with ⟨h0, he⟩ | ⟨_, _, he⟩ | ⟨_, _, _, he⟩ | ⟨_, _, r, d, he, hsk, hdo, _, _, _⟩
    · rw [he]
      simp only [if_neg h0]
      split
      · exact ⟨[], false, rfl, DrainRun.nothing R written hr hd⟩
      · exact chunk s hC hr hd h0
    · rw [he]; exact ⟨[], false, rfl, DrainRun.nothing R written hr hd⟩
    · rw [he]
      exact ⟨[], true, rfl, ⟨⟨rfl, rfl, rfl, rfl, rfl, rfl, rfl, rfl, rfl, rfl⟩, Ring.ok_flush hr, hd, Nat.zero_le _,
        by simp [drainEvents], by simp⟩⟩
    · rw [he]
      have hro := Ring.ok_skipEntry hC hr hsk
      have hm := Ring.skipEntry_mem hsk
      simp only
      split
      · obtain ⟨bytes, broken, h1, h2⟩ := ih (R := R) (written := written) (s := { s with ring := r, drain := d }) hC hro hdo
        exact ⟨bytes, broken, h1, DrainRun.of_entry hm h2⟩
      · rename_i h0
        split
        · exact ⟨[], false, rfl, DrainRun.of_entry hm (DrainRun.nothing R written hro hdo)⟩
        · obtain ⟨bytes, broken, h1, h2⟩ := chunk { s with ring := r, drain := d } hC hro hdo h0
          exact ⟨bytes, broken, h1, DrainRun.of_entry hm h2⟩

/-! ### The fuel -/

/-- More fuel than there are bytes queued and bytes of budget left changes nothing. -/
theorem drainLoop_fuel {B R written f g : Nat} {s : State} (hC : s.cfg.fifoCap ≤ 256) (hr : s.ring.ok s.cfg.fifoCap)
    (hd : s.drain.ok) (hf : s.ring.count.toNat + R < f) (hg : s.ring.count.toNat + R < g) :
    drainLoop B f R written s = drainLoop B g R written s := by
  induction f generalizing R written s g with
  | zero => omega
  | succ f ih =>
    obtain ⟨g, rfl⟩ : ∃ k, g = k + 1 := ⟨g - 1, by omega⟩
    rw [drainLoop, drainLoop]
    by_cases hR : R = 0
    · rw [if_pos hR, if_pos hR]
    rw [if_neg hR, if_neg hR]
    have chunk : ∀ t : State, t.cfg.fifoCap ≤ 256 → t.ring.ok t.cfg.fifoCap → t.drain.ok → t.drain.rem ≠ 0 →
        t.ring.count.toNat ≤ s.ring.count.toNat →
        drainLoop B f (R - min t.drain.rem.toNat R) (written + min t.drain.rem.toNat R)
          (t.writeChunk (min t.drain.rem.toNat R) (written == 0)) =
        drainLoop B g (R - min t.drain.rem.toNat R) (written + min t.drain.rem.toNat R)
          (t.writeChunk (min t.drain.rem.toNat R) (written == 0)) := by
      intro t hC' hr' hd' h0 hle
      have hpos : 0 < t.drain.rem.toNat := by
        rw [ne_eq, ← BitVec.toNat_inj, show (0 : BitVec 8).toNat = 0 from rfl] at h0; omega
      obtain ⟨_, hd2, _⟩ := State.writeChunk_inProgress (w := min t.drain.rem.toNat R) (written == 0) hd' (by omega)
      exact ih (by simpa using hC') (by simpa using hr') hd2 (by simp only [State.writeChunk_ring]; omega)
        (by simp only [State.writeChunk_ring]; omega)
    rcases State.startEntry_cases hC hr hd with ⟨h0, he⟩ | ⟨_, _, he⟩ | ⟨_, _, _, he⟩ | ⟨_, hc, r, d, he, hsk, hdo, _, _, _⟩
    · rw [he]
      simp only [if_neg h0]
      split
      · rfl
      · exact chunk s hC hr hd h0 (Nat.le_refl _)
    · rw [he]
    · rw [he]
    · rw [he]
      have hro := Ring.ok_skipEntry hC hr hsk
      have hlt := Ring.skipEntry_count hsk hc
      simp only
      split
      · exact ih (s := { s with ring := r, drain := d }) hC hro hdo (by simp only; omega) (by simp only; omega)
      · rename_i h0
        split
        · rfl
        · exact chunk { s with ring := r, drain := d } hC hro hdo h0 (by simp only; omega)

/-- One pass of the loop with budget left. -/
theorem drainLoop_unfold {B R written fuel : Nat} {s : State} (hR : R ≠ 0) :
    drainLoop B (fuel + 1) R written s = match s.startEntry with
      | .idle => (s, written)
      | .broken t => (t, written)
      | .entry t =>
        if t.drain.rem = 0 then drainLoop B fuel R written t
        else if t.drain.off = 0 ∧ B < t.drain.rem.toNat ∧ R < B then (t, written)
        else drainLoop B fuel (R - min t.drain.rem.toNat R) (written + min t.drain.rem.toNat R)
          (t.writeChunk (min t.drain.rem.toNat R) (written == 0)) := by
  exact if_neg hR

/-! ### The command -/

/-- Within the invariants `TX.DRAIN` does not stop, and this is everything it can do. -/
theorem execTxDrain_run {s : State} (hC : s.cfg.fifoCap ≤ 256) (hr : s.ring.ok s.cfg.fifoCap) (hd : s.drain.ok) :
    ∃ t bytes broken,
      DrainRun s t s.wdt.maxPeriod.toNat 0 bytes broken ∧
      t = (drainLoop s.wdt.maxPeriod.toNat (s.ring.count.toNat + s.wdt.maxPeriod.toNat + 1) s.wdt.maxPeriod.toNat 0 s).1 ∧
      execTxDrain s = .next ((t.closePeriod bytes.length).ok (BitVec.ofNat 32 bytes.length)) := by
  obtain ⟨bytes, broken, h1, h2⟩ := drainLoop_run (B := s.wdt.maxPeriod.toNat)
    (fuel := s.ring.count.toNat + s.wdt.maxPeriod.toNat + 1) (R := s.wdt.maxPeriod.toNat) (written := 0) hC hr hd
  refine ⟨_, bytes, broken, h2, rfl, ?_⟩
  rw [execTxDrain]
  simp only
  rw [if_neg (by rw [Config.txBufSize]; have := hd.1; omega), h1, Nat.zero_add]

end Sys2Proof.Machine
end

