-- ==== Sys2Proof/Laws/PerInstr.lean ====
section
/-! SUPPORT. Families of statements made for each command, one lemma for each constructor of `Instr`. -/

namespace Sys2Proof.Laws

/-- The fields of a command's own word and beats are its operands (R81, R82, R85): nothing the encoder writes is lost or moved. -/
def WordRoundTrip.Statement (i : Instr) : Prop :=
  i.wf → i.op.build i.word i.data = i ∧ i.op.format.beats i.word = i.data.length

/-- Of two bit strings put together, the field that is the low one. -/
theorem low_part {v w : Nat} {hi : BitVec v} {lo : BitVec w} : (hi ++ lo).extractLsb' 0 w = lo := BitVec.extractLsb'_append_eq_right

/-- The field that is the high one. -/
theorem high_part {v w : Nat} {hi : BitVec v} {lo : BitVec w} : (hi ++ lo).extractLsb' w v = hi := BitVec.extractLsb'_append_eq_left

/-- A field within the low one. -/
theorem below {v w start len : Nat} {hi : BitVec v} {lo : BitVec w} {x : BitVec len} (h : start + len ≤ w)
    (e : lo.extractLsb' start len = x) : (hi ++ lo).extractLsb' start len = x :=
  (BitVec.extractLsb'_append_eq_of_add_le h).trans e

theorem byte0_word (i : Instr) : CmdWord.byte0 i.word = i.imm.extractLsb' 0 8 := i.word_field 0 8 (by decide)
theorem byte1_word (i : Instr) : CmdWord.byte1 i.word = i.imm.extractLsb' 8 8 := i.word_field 8 8 (by decide)
theorem byte2_word (i : Instr) : CmdWord.byte2 i.word = i.imm.extractLsb' 16 8 := i.word_field 16 8 (by decide)
theorem byte3_word (i : Instr) : CmdWord.byte3 i.word = i.imm.extractLsb' 24 8 := i.word_field 24 8 (by decide)
theorem n16_word (i : Instr) : CmdWord.n16 i.word = i.imm.extractLsb' 0 16 := i.word_field 0 16 (by decide)
theorem n8_word (i : Instr) : CmdWord.n8 i.word = i.imm.extractLsb' 32 8 := i.word_field 32 8 (by decide)
theorem t32_word (i : Instr) : CmdWord.t32 i.word = i.imm.extractLsb' 0 32 := i.word_field 0 32 (by decide)

/-- A number of beats that its field can hold is read back. -/
theorem beats_field {k n : Nat} (h : n < 2 ^ k) : (BitVec.ofNat k n).toNat = n := by
  rw [BitVec.toNat_ofNat, Nat.mod_eq_of_lt h]

theorem WordRoundTrip.fifoPush (b : Byte) : WordRoundTrip.Statement (.fifoPush b) := by
  intro h
  have byte0 : CmdWord.byte0 (Instr.word (.fifoPush b)) = b := (byte0_word _).trans low_part
  exact ⟨by simp only [Instr.op, Op.build, byte0], rfl⟩

theorem WordRoundTrip.fifoPushBytes (d : List Byte) : WordRoundTrip.Statement (.fifoPushBytes d) := by
  intro h
  have n16 : CmdWord.n16 (Instr.word (.fifoPushBytes d)) = BitVec.ofNat 16 d.length := (n16_word _).trans low_part
  have hn : d.length ≤ 65535 := h
  exact ⟨rfl, by
    show (CmdWord.n16 _).toNat = _
    rw [n16]; exact beats_field (by omega)⟩

theorem WordRoundTrip.fifoPop : WordRoundTrip.Statement .fifoPop := fun _ => ⟨rfl, rfl⟩

theorem WordRoundTrip.fifoPopBytes (n : BitVec 16) : WordRoundTrip.Statement (.fifoPopBytes n) := by
  intro h
  have n16 : CmdWord.n16 (Instr.word (.fifoPopBytes n)) = n := (n16_word _).trans low_part
  exact ⟨by simp only [Instr.op, Op.build, n16], rfl⟩

theorem WordRoundTrip.fifoPeek : WordRoundTrip.Statement .fifoPeek := fun _ => ⟨rfl, rfl⟩

theorem WordRoundTrip.fifoSize : WordRoundTrip.Statement .fifoSize := fun _ => ⟨rfl, rfl⟩

theorem WordRoundTrip.fifoFlush : WordRoundTrip.Statement .fifoFlush := fun _ => ⟨rfl, rfl⟩

theorem WordRoundTrip.fifoEnsure (n : BitVec 16) : WordRoundTrip.Statement (.fifoEnsure n) := by
  intro h
  have n16 : CmdWord.n16 (Instr.word (.fifoEnsure n)) = n := (n16_word _).trans low_part
  exact ⟨by simp only [Instr.op, Op.build, n16], rfl⟩

theorem WordRoundTrip.crcByte (b seed : Byte) : WordRoundTrip.Statement (.crcByte b seed) := by
  intro h
  have byte0 : CmdWord.byte0 (Instr.word (.crcByte b seed)) = b := (byte0_word _).trans (below (by decide) low_part)
  have byte1 : CmdWord.byte1 (Instr.word (.crcByte b seed)) = seed := (byte1_word _).trans (below (by decide) high_part)
  exact ⟨by simp only [Instr.op, Op.build, byte0, byte1], rfl⟩

theorem WordRoundTrip.crcBuf (seed : Byte) (d : List Byte) : WordRoundTrip.Statement (.crcBuf seed d) := by
  intro h
  have byte2 : CmdWord.byte2 (Instr.word (.crcBuf seed d)) = seed := (byte2_word _).trans (below (by decide) high_part)
  have n16 : CmdWord.n16 (Instr.word (.crcBuf seed d)) = BitVec.ofNat 16 d.length :=
    (n16_word _).trans (below (by decide) low_part)
  have hn : d.length ≤ 65535 := h
  exact ⟨by simp only [Instr.op, Op.build, Instr.data, byte2], by
    show (CmdWord.n16 _).toNat = _
    rw [n16]; exact beats_field (by omega)⟩

theorem WordRoundTrip.rxByte (b : Byte) : WordRoundTrip.Statement (.rxByte b) := by
  intro h
  have byte0 : CmdWord.byte0 (Instr.word (.rxByte b)) = b := (byte0_word _).trans low_part
  exact ⟨by simp only [Instr.op, Op.build, byte0], rfl⟩

theorem WordRoundTrip.txSendSimple (addr typ : Byte) (d : List Byte) : WordRoundTrip.Statement (.txSendSimple addr typ d) := by
  intro h
  have byte0 : CmdWord.byte0 (Instr.word (.txSendSimple addr typ d)) = addr :=
    (byte0_word _).trans (below (by decide) (below (by decide) low_part))
  have byte1 : CmdWord.byte1 (Instr.word (.txSendSimple addr typ d)) = typ :=
    (byte1_word _).trans (below (by decide) (below (by decide) high_part))
  have n8 : CmdWord.n8 (Instr.word (.txSendSimple addr typ d)) = BitVec.ofNat 8 d.length := (n8_word _).trans high_part
  have hn : d.length ≤ 255 := h
  exact ⟨by simp only [Instr.op, Op.build, Instr.data, byte0, byte1], by
    show (CmdWord.n8 _).toNat = _
    rw [n8]; exact beats_field (by omega)⟩

theorem WordRoundTrip.txSendExt (addr typ dest orig : Byte) (d : List Byte) :
    WordRoundTrip.Statement (.txSendExt addr typ dest orig d) := by
  intro h
  have byte0 : CmdWord.byte0 (Instr.word (.txSendExt addr typ dest orig d)) = addr :=
    (byte0_word _).trans (below (by decide) (below (by decide) (below (by decide) low_part)))
  have byte1 : CmdWord.byte1 (Instr.word (.txSendExt addr typ dest orig d)) = typ :=
    (byte1_word _).trans (below (by decide) (below (by decide) (below (by decide) high_part)))
  have byte2 : CmdWord.byte2 (Instr.word (.txSendExt addr typ dest orig d)) = dest :=
    (byte2_word _).trans (below (by decide) (below (by decide) high_part))
  have byte3 : CmdWord.byte3 (Instr.word (.txSendExt addr typ dest orig d)) = orig :=
    (byte3_word _).trans (below (by decide) high_part)
  have n8 : CmdWord.n8 (Instr.word (.txSendExt addr typ dest orig d)) = BitVec.ofNat 8 d.length := (n8_word _).trans high_part
  have hn : d.length ≤ 255 := h
  exact ⟨by simp only [Instr.op, Op.build, Instr.data, byte0, byte1, byte2, byte3], by
    show (CmdWord.n8 _).toNat = _
    rw [n8]; exact beats_field (by omega)⟩

theorem WordRoundTrip.txSendRaw (d : List Byte) : WordRoundTrip.Statement (.txSendRaw d) := by
  intro h
  have n16 : CmdWord.n16 (Instr.word (.txSendRaw d)) = BitVec.ofNat 16 d.length := (n16_word _).trans low_part
  have hn : d.length ≤ 65535 := h
  exact ⟨rfl, by
    show (CmdWord.n16 _).toNat = _
    rw [n16]; exact beats_field (by omega)⟩

theorem WordRoundTrip.txDrain : WordRoundTrip.Statement .txDrain := fun _ => ⟨rfl, rfl⟩

theorem WordRoundTrip.wdtTick (t : Word32) : WordRoundTrip.Statement (.wdtTick t) := by
  intro h
  have t32 : CmdWord.t32 (Instr.word (.wdtTick t)) = t := (t32_word _).trans low_part
  exact ⟨by simp only [Instr.op, Op.build, t32], rfl⟩

theorem WordRoundTrip.wdtSetInterval (t : Word32) : WordRoundTrip.Statement (.wdtSetInterval t) := by
  intro h
  have t32 : CmdWord.t32 (Instr.word (.wdtSetInterval t)) = t := (t32_word _).trans low_part
  exact ⟨by simp only [Instr.op, Op.build, t32], rfl⟩

theorem WordRoundTrip.wdtRdBudget : WordRoundTrip.Statement .wdtRdBudget := fun _ => ⟨rfl, rfl⟩

theorem WordRoundTrip.wdtRdBaud : WordRoundTrip.Statement .wdtRdBaud := fun _ => ⟨rfl, rfl⟩

theorem WordRoundTrip.duplexTx : WordRoundTrip.Statement .duplexTx := fun _ => ⟨rfl, rfl⟩

theorem WordRoundTrip.duplexRx : WordRoundTrip.Statement .duplexRx := fun _ => ⟨rfl, rfl⟩

theorem WordRoundTrip.sysLock : WordRoundTrip.Statement .sysLock := fun _ => ⟨rfl, rfl⟩

theorem WordRoundTrip.sysUnlock : WordRoundTrip.Statement .sysUnlock := fun _ => ⟨rfl, rfl⟩

theorem WordRoundTrip.sysRdGood : WordRoundTrip.Statement .sysRdGood := fun _ => ⟨rfl, rfl⟩

theorem WordRoundTrip.sysRdBad : WordRoundTrip.Statement .sysRdBad := fun _ => ⟨rfl, rfl⟩

theorem WordRoundTrip.sysRdStatus : WordRoundTrip.Statement .sysRdStatus := fun _ => ⟨rfl, rfl⟩

theorem WordRoundTrip.sysStop : WordRoundTrip.Statement .sysStop := fun _ => ⟨rfl, rfl⟩

end Sys2Proof.Laws
end

