-- ==== Sys2Proof/Laws/Ports.lean ====
section
/-! SUPPORT. The laws of the ports: what selecting one leaves alone, what a port presents, and everything one step can do. -/

namespace Sys2Proof.Machine

/-- Selecting a port changes at most the number of free values drawn. -/
theorem State.selectPort_eq {s t : State} {p : Port} (h : s.selectPort = some (p, t)) : t = s ∨ t = s.drawn 1 := by
  unfold State.selectPort at h
  split at h
  · simp at h
  · simp only [Option.some.injEq, Prod.mk.injEq] at h; exact .inl h.2.symm
  · simp only [Option.some.injEq, Prod.mk.injEq] at h; exact .inr h.2.symm

theorem State.selectPort_pend {s t : State} {p : Port} (h : s.selectPort = some (p, t)) : t.pend = s.pend := by
  rcases State.selectPort_eq h with rfl | rfl <;> rfl

theorem State.selectPort_resp {s t : State} {p : Port} (h : s.selectPort = some (p, t)) : t.resp = s.resp := by
  rcases State.selectPort_eq h with rfl | rfl <;> rfl

theorem State.mem_readyPorts {s : State} {p : Port} : p ∈ s.readyPorts ↔ s.ready p = true := by
  cases p <;> simp [State.readyPorts]

/-- Where several ports are ready, the free value picks one entry of their list (log 2). -/
theorem State.selectPort_several {s : State} (h : 2 ≤ s.readyPorts.length) :
    ∃ p, s.readyPorts[Config.portChoice s.draws % s.readyPorts.length]? = some p ∧ s.selectPort = some (p, s.drawn 1) := by
  unfold State.selectPort
  split
  · rename_i hq; simp [hq] at h
  · rename_i hq; simp [hq] at h
  · rename_i q q' qs hq
    rw [hq, List.length_cons, List.length_cons, Nat.add_assoc]
    have hk : Config.portChoice s.draws % (qs.length + (1 + 1)) < (q :: q' :: qs).length := Nat.mod_lt _ (Nat.succ_pos _)
    exact ⟨_, List.getElem?_eq_getElem hk, by rw [List.getD_eq_getElem?_getD, List.getElem?_eq_getElem hk]; rfl⟩

/-- What is selected is ready. -/
theorem State.selectPort_ready {s t : State} {p : Port} (h : s.selectPort = some (p, t)) : s.ready p = true := by
  have key : ∀ q, q ∈ s.readyPorts → s.ready q = true := fun _ => State.mem_readyPorts.1
  unfold State.selectPort at h
  split at h
  · simp at h
  · rename_i q hq
    simp only [Option.some.injEq, Prod.mk.injEq] at h
    exact key p (by simp [hq, h.1])
  · rename_i q q' qs hq
    simp only [Option.some.injEq, Prod.mk.injEq] at h
    refine key p ?_
    rw [hq, ← h.1, List.getD_eq_getElem _ _ (by simp only [List.length_cons]; exact Nat.mod_lt _ (by omega))]
    exact List.getElem_mem _

/-- A command with all its beats, on a port that accepts it. -/
theorem presented_command {p : Port} {items rest : List PortItem} {i : Instr} (h : decode items = .ok (i, rest))
    (ha : i.op.accepts p = true) : presented p items = .command i rest := by
  obtain ⟨w, o, d, rfl, ho, _, rfl⟩ := decode_ok h
  have : acceptsCode p (CmdWord.op w) = true := by simp only [acceptsCode, ho]; simpa using ha
  simp [presented, this, h]

/-- A data beat stands at the head exactly where the port presents a stray beat. -/
theorem presented_stray {p : Port} {items : List PortItem} : presented p items = .stray ↔ ∃ b rest, items = .beat b :: rest := by
  cases items with
  | nil => simp [presented]
  | cons x items =>
    cases x with
    | beat b => simp [presented]
    | word w => simp only [presented]; split <;> (try split) <;> simp

/-- An illegal command is a word the port does not accept. -/
theorem presented_illegal {p : Port} {items rest : List PortItem} {op : Byte} (h : presented p items = .illegal op rest) :
    ∃ w, items = .word w :: rest ∧ acceptsCode p (CmdWord.op w) = false ∧ op = CmdWord.op w := by
  unfold presented at h
  split at h
  · simp at h
  · simp at h
  · rename_i w rest'
    split at h
    · split at h <;> simp at h
    · rename_i ha
      simp only [Presented.illegal.injEq] at h
      obtain ⟨rfl, rfl⟩ := h
      exact ⟨w, rfl, by simpa using ha, rfl⟩

/-- A command the port presents is what the decoder reads there, and the port accepts it. -/
theorem presented_command_inv {p : Port} {items rest : List PortItem} {i : Instr} (h : presented p items = .command i rest) :
    decode items = .ok (i, rest) ∧ i.op.accepts p = true := by
  unfold presented at h
  split at h
  · simp at h
  · simp at h
  · rename_i w rest'
    split at h
    · rename_i ha
      split at h
      · rename_i i' r' hd
        simp only [Presented.command.injEq] at h
        obtain ⟨rfl, rfl⟩ := h
        refine ⟨hd, ?_⟩
        obtain ⟨w', o, d, he, ho, _, rfl⟩ := decode_ok hd
        simp only [List.cons.injEq, PortItem.word.injEq] at he
        obtain ⟨rfl, _⟩ := he
        simpa [acceptsCode, ho] using ha
      · simp at h
    · simp at h

/-- A misread stream begins with a command word. -/
theorem State.misread_pend_get (s : State) (p : Port) : ∃ w items, (s.misread p).pend.get p = .word w :: items :=
  ⟨_, _, PerPort.get_set_self _ _ _⟩

/-- A misread leaves the other ports as they are. -/
theorem State.misread_pend_ne (s : State) {p q : Port} (h : q ≠ p) : (s.misread p).pend.get q = s.pend.get q :=
  PerPort.get_set_ne _ _ _ _ h

/-- From `v` port `p` took an illegal command or executed a command, which led to `t`. -/
def Took (p : Port) (v t : State) : Prop :=
  (∃ w rest, v.pend.get p = .word w :: rest ∧ acceptsCode p (CmdWord.op w) = false ∧
    t = (v.serve p rest).illegalCommand (CmdWord.op w)) ∨
  ∃ i rest, decode (v.pend.get p) = .ok (i, rest) ∧ i.op.accepts p = true ∧ exec i (v.serve p rest) = .next t

/-- Everything a port can do with what it presents. -/
theorem State.runPresented_cases {v t : State} {p : Port} (h : v.runPresented exec p = .next t) :
    t = v ∨ Took p v t := by
  unfold State.runPresented at h
  split at h
  · cases h; exact .inl rfl
  · cases h; exact .inl rfl
  · cases h; exact .inl rfl
  · rename_i op rest hp
    cases h
    obtain ⟨w, h1, h2, rfl⟩ := presented_illegal hp
    exact .inr (.inl ⟨w, rest, h1, h2, rfl⟩)
  · rename_i i rest hp
    obtain ⟨h1, h2⟩ := presented_command_inv hp
    exact .inr (.inr ⟨i, rest, h1, h2, h⟩)

/-- Everything a step that answers a next state can have done: nothing; an illegal command or a command of one port; or a stray beat of
one port was misread, and what it was misread as still waits, or was such a command. -/
theorem step_cases {s t : State} (h : step s = .next t) : t = s ∨ ∃ p u, s.selectPort = some (p, u) ∧
    (Took p u t ∨ (∃ b rest, s.pend.get p = .beat b :: rest) ∧ (t = u.misread p ∨ Took p (u.misread p) t)) := by
  simp only [step, State.runStep] at h
  split at h
  · cases h; exact .inl rfl
  · rename_i p u hs
    have hr := State.selectPort_ready hs
    have hu := State.selectPort_pend hs
    simp only [State.ready, Bool.and_eq_true] at hr
    refine .inr ⟨p, u, hs, ?_⟩
    by_cases hp : presented p (s.pend.get p) = .stray
    · have : u.runPort exec p = (u.misread p).runPresented exec p := by simp only [State.runPort, hu, hp]
      rw [this] at h
      exact .inr ⟨presented_stray.1 hp, State.runPresented_cases h⟩
    · have : u.runPort exec p = u.runPresented exec p := by
        simp only [State.runPort]
        split
        · rename_i hq; rw [hu] at hq; exact absurd hq hp
        all_goals rfl
      rw [this] at h
      unfold State.runPresented at h
      rw [hu] at h
      cases hq : presented p (s.pend.get p) with
      | nothing => simp [hq] at hr
      | waiting => simp [hq] at hr
      | stray => exact absurd hq hp
      | illegal op rest =>
        simp only [hq] at h; cases h
        obtain ⟨w, h1, h2, rfl⟩ := presented_illegal hq
        exact .inl (.inl ⟨w, rest, by rw [hu, h1], h2, rfl⟩)
      | command i rest =>
        simp only [hq] at h
        obtain ⟨h1, h2⟩ := presented_command_inv hq
        exact .inl (.inr ⟨i, rest, by rw [hu, h1], h2, h⟩)

/-- Selecting, misreading and serving a port keep the invariant. -/
theorem State.Inv_select {s u : State} {p : Port} (h : s.Inv) (hs : s.selectPort = some (p, u)) : u.Inv := by
  rcases State.selectPort_eq hs with rfl | rfl <;> exact ⟨h.cfg, h.ring, h.parser, h.drain, h.wdt, h.line⟩

theorem State.Inv_misread {s : State} (p : Port) (h : s.Inv) : (s.misread p).Inv :=
  ⟨h.cfg, h.ring, h.parser, h.drain, h.wdt, h.line⟩

theorem State.Inv_serve {s : State} (p : Port) (rest : List PortItem) (h : s.Inv) : (s.serve p rest).Inv :=
  ⟨h.cfg, h.ring, h.parser, h.drain, h.wdt, h.line⟩

end Sys2Proof.Machine
end

