-- ==== Sys2Proof/Laws/Wdt.lean ====
section
/-! SUPPORT. The laws of the watchdog: the range of the budgets (R184), where `BAUD` and the formula have a value, and that a rotation
and a change of the interval keep the invariant of R185. -/

namespace Sys2Proof.Machine

/-- The budgets have a value in `1 .. 1000000`, and lie in their ranges (R42, R43, R186). -/
theorem budget_range {c : Config} (hm : c.budgetMin ≤ c.fifoCap) {baud us : Nat} (h1 : 1 ≤ us) (h2 : us ≤ 1000000) :
    ∃ p k, budget c baud us = some (p, k) ∧ c.budgetMin ≤ p ∧ p ≤ c.fifoCap ∧ k = min p c.absMaxPkt := by
  rw [budget, if_neg (by omega)]
  exact ⟨_, _, rfl, Nat.le_max_left .., by omega, rfl⟩

/-- Within the list and the interval's range `budgetAt` does not stop. -/
theorem budgetAt_ok {c : Config} (hc : c.ok) {i us : Nat} (hi : i < c.nbaud) (h1 : 1 ≤ us) (h2 : us ≤ 1000000) :
    ∃ p k, budgetAt c i us = .ok (c.baud.getD i 0, (p, k)) ∧ budget c (c.baud.getD i 0).toNat us = some (p, k) ∧
      p ≤ 256 ∧ k ≤ 256 := by
  have hcap : c.fifoCap ≤ 256 := by
    have := hc.1
    simp only [List.mem_cons, List.not_mem_nil, or_false] at this
    omega
  obtain ⟨p, k, hb, _, hp, hk⟩ := budget_range (c := c) (baud := (c.baud.getD i 0).toNat) hc.2.2.2.2.2.1 h1 h2
  have hget : c.baud[i]? = some (c.baud.getD i 0) := by
    rw [List.getElem?_eq_getElem hi, List.getD_eq_getElem _ _ hi]
  refine ⟨p, k, ?_, hb, by omega, by omega⟩
  simp only [budgetAt, hget, hb]

/-- A watchdog given the budgets of index `i` keeps R185, whatever the interval registers. -/
theorem Watchdog.ok_withBudget {c : Config} (hc : c.ok) {w : Watchdog} {i p k : Nat} {us : Word32} (last : Word32)
    (hi : i < c.nbaud) (h1 : 1 ≤ us.toNat) (h2 : us.toNat ≤ 1000000)
    (hb : budget c (c.baud.getD i 0).toNat us.toNat = some (p, k)) (hp : p ≤ 256) (hk : k ≤ 256) :
    ({ w.withBudget i (p, k) with last := last, rcInterval := us } : Watchdog).ok c := by
  have hn : c.nbaud ≤ 8 := hc.2.2.2.2.2.2.2.1
  have hi' : (BitVec.ofNat 3 i).toNat = i := by rw [BitVec.toNat_ofNat]; exact Nat.mod_eq_of_lt (by omega)
  simp only [Watchdog.ok, Watchdog.withBudget, hi', toNat_ofNat9 (show p < 512 by omega), toNat_ofNat9 (show k < 512 by omega)]
  exact ⟨hi, h1, h2, hb⟩

/-- Everything `WDT.TICK` can do in a state that meets the invariants (R181 to R183): no case stops. -/
theorem execWdtTick_cases (t : Word32) {s : State} (hc : s.cfg.ok) (hw : s.wdt.ok s.cfg) :
    (s.checkDue t = false ∧ execWdtTick t s = .next (s.ok 0)) ∨
    (s.checkDue t = true ∧ s.link.bad.toNat < s.link.good.toNat ∧ execWdtTick t s = .next ((s.restartInterval t).ok 0)) ∨
    (s.checkDue t = true ∧ s.link.good.toNat ≤ s.link.bad.toNat ∧ ∃ p k,
      (s.wdt.baudIdx.toNat + 1) % s.cfg.nbaud < s.cfg.nbaud ∧ p ≤ 256 ∧ k ≤ 256 ∧
      budget s.cfg (s.cfg.baud.getD ((s.wdt.baudIdx.toNat + 1) % s.cfg.nbaud) 0).toNat s.wdt.rcInterval.toNat = some (p, k) ∧
      execWdtTick t s = .next (((s.rotate ((s.wdt.baudIdx.toNat + 1) % s.cfg.nbaud)
        (s.cfg.baud.getD ((s.wdt.baudIdx.toNat + 1) % s.cfg.nbaud) 0) (p, k)).restartInterval
        (t - BitVec.ofNat 32 (3 * (s.cfg.wdtIntervalMs / 4)))).ok 1)) := by
  unfold execWdtTick
  cases hd : s.checkDue t with
  | false => exact .inl ⟨rfl, by simp⟩
  | true =>
    by_cases hg : s.link.good.toNat ≤ s.link.bad.toNat
    · have hi : (s.wdt.baudIdx.toNat + 1) % s.cfg.nbaud < s.cfg.nbaud := Nat.mod_lt _ (by have := hw.1; omega)
      obtain ⟨p, k, hb, hf, hp, hk⟩ := budgetAt_ok hc hi hw.2.1 hw.2.2.1
      exact .inr (.inr ⟨rfl, hg, p, k, hi, hp, hk, hf, by simp [hg, hb]⟩)
    · exact .inr (.inl ⟨rfl, by omega, by simp [hg]⟩)

/-- Everything `WDT.SET_INTERVAL` can do in a state that meets the invariants (R187): no case stops. -/
theorem execWdtSetInterval_cases (t : Word32) {s : State} (hc : s.cfg.ok) (hw : s.wdt.ok s.cfg) :
    ((t.toNat = 0 ∨ 1000000 < t.toNat) ∧ execWdtSetInterval t s = .next (s.respond .refused 0 [])) ∨
    (1 ≤ t.toNat ∧ t.toNat ≤ 1000000 ∧ ∃ p k, p ≤ 256 ∧ k ≤ 256 ∧
      budget s.cfg (s.cfg.baud.getD s.wdt.baudIdx.toNat 0).toNat t.toNat = some (p, k) ∧
      execWdtSetInterval t s =
        .next ({ s with wdt := { s.wdt.withBudget s.wdt.baudIdx.toNat (p, k) with rcInterval := t } }.ok 0)) := by
  unfold execWdtSetInterval
  have h0 : t = 0 ↔ t.toNat = 0 := by rw [← BitVec.toNat_inj]; rfl
  by_cases h : t = 0 ∨ 1000000 < t.toNat
  · exact .inl ⟨by rwa [h0] at h, by rw [if_pos h]⟩
  · rw [h0] at h
    obtain ⟨p, k, hb, hf, hp, hk⟩ := budgetAt_ok hc hw.1 (us := t.toNat) (by omega) (by omega)
    exact .inr ⟨by omega, by omega, p, k, hp, hk, hf, by rw [if_neg (by rwa [h0])]; simp [hb]⟩

/-- Within the invariants the baud in force exists (R189). -/
theorem execWdtRdBaud_ok {s : State} (hw : s.wdt.ok s.cfg) :
    execWdtRdBaud s = .next (s.ok (s.cfg.baud.getD s.wdt.baudIdx.toNat 0)) := by
  have hi : s.wdt.baudIdx.toNat < s.cfg.baud.length := hw.1
  rw [execWdtRdBaud, List.getElem?_eq_getElem hi, List.getD_eq_getElem _ _ hi]

/-- Everything the failed check writes (R182, R183), as one state. -/
theorem State.rotate_spec (s : State) (i : Nat) (baud : Word32) (b : Nat × Nat) (last : Word32) :
    (s.rotate i baud b).restartInterval last =
      { s with
        link := { good := 0, bad := 0, connected := false }
        wdt := { s.wdt.withBudget i b with last := last }
        ring := s.ring.flush
        lineDir := if s.cfg.halfDuplex then .rx else s.lineDir
        events := s.events ++ (if s.link.connected then [Event.disconnected] else []) ++ [Event.txFlush, .baudSet baud] ++
          (if s.cfg.halfDuplex then [Event.lineRx] else []) ++ [Event.rxDiscard] } := by
  unfold State.restartInterval State.rotate State.rearmReceive State.linkDown
  obtain ⟨cfg, ring, parser, ⟨g, b, cn⟩, d, w, l, lk, ev, rs, pd, ac, dr⟩ := s
  cases cn <;> cases hh : cfg.halfDuplex <;> simp [State.emit, State.emits, hh]

end Sys2Proof.Machine
end

