-- ==== Sys2Proof/Machine/Assembler.lean ====
section
/-! DEFINITION. The pseudo-commands (R89 of 30_encoding.md), each as the commands it stands for, in order, with their ports
(R88: a line without a port is for port M). They are no commands of their own. -/

namespace Sys2Proof.Assembler

/-- A line of assembler: a port and a command (R88). -/
abbrev Line := Port × Instr

/-- `CRC.BYTE b=x` with the seed omitted. -/
def crcByte (c : Config) (b : Byte) : Instr := .crcByte b c.crcSeedDefault

/-- `CRC.BUF [..]` with the seed omitted. -/
def crcBuf (c : Config) (d : List Byte) : Instr := .crcBuf c.crcSeedDefault d

/-- `R: RX.FEED [b0, .., bk]`. -/
def rxFeed (d : List Byte) : List Line := d.map fun b => (.r, .rxByte b)

/-- `CRITICAL { c1; ..; ck }`, all on port M. -/
def critical (cs : List Instr) : List Line :=
  (.m, .sysLock) :: cs.map (fun c => (.m, c)) ++ [(.m, .sysUnlock)]

/-- `FIFO.PUSH_ENTRY [body]`, one length-prefixed entry; `none` when the body is longer than 255 bytes. -/
def fifoPushEntry (body : List Byte) : Option Instr :=
  if body.length ≤ 255 then some (.fifoPushBytes (BitVec.ofNat 8 body.length :: body)) else none

/-- What port `p` presents for a program: the words and beats of its own lines, in order. -/
def itemsFor (p : Port) (prog : List Line) : List PortItem :=
  (prog.filter fun l => l.1 = p).flatMap fun l => encode l.2

end Sys2Proof.Assembler
end

