-- ==== Sys2Proof/Tests/Slice0.lean ====
section
/-! SUPPORT. Tests: ill-formed commands refused, words written out from the encodings of 30_encoding.md decoded, single steps with the
expected values of spec/95_test_vectors.md (cited by their ids there), and a witness for the hypotheses of every statement. -/

namespace Sys2Proof.Tests

open Sys2Proof.Machine

/-! ### Helpers -/

/-- The state a step or a command leads to. -/
def after : Result → Option State
  | .next s => some s
  | .fault _ | .refused _ => none

/-- Commands executed in order from `s`. -/
def runs (s : State) (is : List Instr) : Option State := after (Claims.runAll is s)

/-- One step on the reset state with a table word presented. -/
def stepWord (nbits w : Nat) : Option State := after (step (State.reset.withFetchWord nbits w))

/-- Reset, with the bytes `d` queued. -/
def queued (d : List Byte) : State := { State.reset with ring := State.reset.ring.pushBytes 256 d }

/-- Reset, with `c` bytes 0x00 queued from index 0 on. -/
def zeros (c : Nat) : State :=
  { State.reset with ring := { mem := [], head := 0, tail := BitVec.ofNat 8 c, count := BitVec.ofNat 9 c } }

/-- Reset, with the receive bytes `d` fed. -/
def fed (d : List Byte) : State := (runs State.reset (d.map .rxByte)).getD State.reset

/-- Reset, with `items` presented on port `p`. -/
def presenting (p : Port) (items : List PortItem) : State := State.reset.present p items

/-- `(head, tail, count)` as spec/95_test_vectors.md writes a ring buffer. -/
def ringOf (s : State) : Nat × Nat × Nat := (s.ring.head.toNat, s.ring.tail.toNat, s.ring.count.toNat)

/-- The response values on port M. -/
def valuesM (s : State) : List Word32 := s.resp.m.map (·.value)

/-- The invariant from its decidable parts. -/
theorem inv_of {s : State} (h : s.cfg.ok ∧ s.ring.ok s.cfg.fifoCap ∧ s.parser.ok s.cfg ∧ s.drain.ok ∧ s.wdt.ok s.cfg ∧ s.lineOk) :
    s.Inv := ⟨h.1, h.2.1, h.2.2.1, h.2.2.2.1, h.2.2.2.2.1, h.2.2.2.2.2⟩

/-! ### Well-formedness: more beats than the field holds (R82) -/

theorem test_illformed_push_bytes : ¬(Instr.fifoPushBytes (List.replicate 65536 0)).wf := by simp only [Instr.wf, Instr.data, Instr.maxBeats, List.length_replicate]; omega
theorem test_illformed_crc_buf : ¬(Instr.crcBuf 0 (List.replicate 65536 0)).wf := by simp only [Instr.wf, Instr.data, Instr.maxBeats, List.length_replicate]; omega
theorem test_illformed_send_raw : ¬(Instr.txSendRaw (List.replicate 65536 0)).wf := by simp only [Instr.wf, Instr.data, Instr.maxBeats, List.length_replicate]; omega
theorem test_illformed_send_simple : ¬(Instr.txSendSimple 0 0 (List.replicate 256 0)).wf := by
  simp only [Instr.wf, Instr.data, Instr.maxBeats, List.length_replicate]; omega
theorem test_illformed_send_ext : ¬(Instr.txSendExt 0 0 0 0 (List.replicate 256 0)).wf := by
  simp only [Instr.wf, Instr.data, Instr.maxBeats, List.length_replicate]; omega

/-! ### Decoding: words written out from R81 to R83 -/

/-- One word of each family bit by bit: the opcode above the immediate. -/
theorem test_decode_bits :
    decode [.word 0b000100000000000000000000000000000000000001000001] = .ok (.fifoPush 0x41, []) ∧
    decode [.word 0b001000000000000000000000000000001111111100000000] = .ok (.crcByte 0x00 0xFF, []) ∧
    decode [.word 0b001100000000000000000000000000000000000011001000] = .ok (.rxByte 0xC8, []) ∧
    decode [.word 0b010000000000000100000000000000000001010011101010, .beat 7] = .ok (.txSendSimple 0xEA 0x14 [7], []) ∧
    decode [.word 0b010100000000000000000000000000000000001111101000] = .ok (.wdtTick 1000, []) ∧
    decode [.word 0b011000010000000000000000000000000000000000000000] = .ok (.duplexRx, []) ∧
    decode [.word 0b011100010000000000000000000000000000000000000000] = .ok (.sysUnlock, []) := by decide

theorem test_decode_fifo :
    decode [.word 0x100000000041] = .ok (.fifoPush 0x41, []) ∧
    decode [.word 0x110000000003, .beat 2, .beat 0xAA, .beat 0xBB] = .ok (.fifoPushBytes [2, 0xAA, 0xBB], []) ∧
    decode [.word 0x120000000000] = .ok (.fifoPop, []) ∧ decode [.word 0x130000000002] = .ok (.fifoPopBytes 2, []) ∧
    decode [.word 0x140000000000] = .ok (.fifoPeek, []) ∧ decode [.word 0x150000000000] = .ok (.fifoSize, []) ∧
    decode [.word 0x160000000000] = .ok (.fifoFlush, []) ∧ decode [.word 0x170000000032] = .ok (.fifoEnsure 50, []) := by decide

theorem test_decode_crc_rx :
    decode [.word 0x20000000FF00] = .ok (.crcByte 0x00 0xFF, []) ∧
    decode [.word 0x210000AC0002, .beat 0xAA, .beat 0xBB] = .ok (.crcBuf 0xAC [0xAA, 0xBB], []) ∧
    decode [.word 0x3000000000C8] = .ok (.rxByte 0xC8, []) := by decide

theorem test_decode_tx :
    decode [.word 0x4002000014EA, .beat 0xAA, .beat 0xBB] = .ok (.txSendSimple 0xEA 0x14 [0xAA, 0xBB], []) ∧
    decode [.word 0x4102EAEE2DEA, .beat 5, .beat 1] = .ok (.txSendExt 0xEA 0x2D 0xEE 0xEA [5, 1], []) ∧
    decode [.word 0x420000000004, .beat 0xEA, .beat 2, .beat 0x16, .beat 0xD3] = .ok (.txSendRaw [0xEA, 2, 0x16, 0xD3], []) ∧
    decode [.word 0x430000000000] = .ok (.txDrain, []) := by decide

theorem test_decode_wdt_duplex :
    decode [.word 0x5000000003E7] = .ok (.wdtTick 999, []) ∧ decode [.word 0x510000000FA0] = .ok (.wdtSetInterval 4000, []) ∧
    decode [.word 0x520000000000] = .ok (.wdtRdBudget, []) ∧ decode [.word 0x530000000000] = .ok (.wdtRdBaud, []) ∧
    decode [.word 0x600000000000] = .ok (.duplexTx, []) ∧ decode [.word 0x610000000000] = .ok (.duplexRx, []) := by decide

theorem test_decode_sys :
    decode [.word 0x700000000000] = .ok (.sysLock, []) ∧ decode [.word 0x710000000000] = .ok (.sysUnlock, []) ∧
    decode [.word 0x720000000000] = .ok (.sysRdGood, []) ∧ decode [.word 0x730000000000] = .ok (.sysRdBad, []) ∧
    decode [.word 0x740000000000] = .ok (.sysRdStatus, []) ∧ decode [.word 0x7F0000000000] = .ok (.sysStop, []) := by decide

/-- Unnamed bits are ignored (Y11); a reserved opcode, a missing beat and a stray beat are refused by name. -/
theorem test_decode_refusals :
    decode [.word 0x10FFFFFFFF41] = .ok (.fifoPush 0x41, []) ∧
    decode [.word 0x180000000000] = .error (.reservedOpcode 0x18) ∧ decode [.word 0x000000000000] = .error (.reservedOpcode 0x00) ∧
    decode [.word 0x110000000002, .beat 1] = .error (.missingBeats .fifoPushBytes) ∧
    decode [.beat 1] = .error .beatForWord ∧ decode [] = .error .nothingPresented := by decide

/-- The table's numbering: beats above the word, zeros where none are given. -/
theorem test_decode_table :
    decodeTableWord 48 0x110000000002 = some (.fifoPushBytes [0, 0]) ∧
    decodeTableWord 64 0xBBAA4002000014EA = some (.txSendSimple 0xEA 0x14 [0xAA, 0xBB]) ∧
    decodeTableWord 48 0x180000000000 = none := by decide

/-! ### Ring buffer (F vectors) -/

theorem test_F1_push : (stepWord 48 0x100000000041).map (fun t => (ringOf t, t.ring.queue 256, valuesM t)) =
    some ((0, 1, 1), [0x41], [0]) := by decide
theorem test_F6_push_full : (runs (zeros 256) [.fifoPush 9]).map (fun t => (ringOf t, t.ring.mem)) = some ((0, 0, 0), []) := by decide
theorem test_F5_F7_push_bytes :
    (runs { State.reset with ring := { mem := [], head := 0, tail := 250, count := 250 } } [.fifoPushBytes [1, 2, 3, 4, 5, 6]]).map ringOf =
      some (0, 0, 256) ∧
    (runs { State.reset with ring := { mem := [], head := 0, tail := 250, count := 250 } } [.fifoPushBytes [1, 2, 3, 4, 5, 6, 7]]).map
      ringOf = some (0, 0, 0) := by decide
theorem test_F9_push_bytes_wraps :
    (runs { State.reset with ring := { mem := [], head := 254, tail := 254, count := 0 } } [.fifoPushBytes [1, 2, 3]]).map
      (fun t => (ringOf t, t.ring.mem)) = some ((254, 1, 3), [(0, 3), (254, 1), (255, 2)]) := by decide
theorem test_F2_F4_pop : (runs (queued [0x41, 0x42]) [.fifoPop, .fifoPop, .fifoPop]).map (fun t => (valuesM t, ringOf t)) =
    some ([0x41, 0x42, 0], (0, 0, 0)) := by decide
theorem test_F11_pop_bytes : (runs (queued [1, 2, 3]) [.fifoPopBytes 2]).map (fun t => (ringOf t, t.resp.m.map (·.data))) =
    some ((2, 3, 1), [[1, 2]]) := by decide
theorem test_F12_pop_bytes_underrun : (runs (queued [1, 2, 3]) [.fifoPopBytes 4]).map (fun t => (ringOf t, t.resp.m.map (·.data.length))) =
    some ((0, 0, 0), [4]) := by rfl
theorem test_F14_peek : (runs (queued [3, 9, 9, 9]) [.fifoPeek]).map (fun t => (valuesM t, ringOf t)) = some ([3], (0, 4, 4)) ∧
    (runs State.reset [.fifoPeek]).map valuesM = some [0] := by decide
theorem test_F22_size_flush : (runs (zeros 17) [.fifoSize, .fifoFlush, .fifoSize]).map (fun t => (valuesM t, ringOf t)) =
    some ([17, 0, 0], (0, 0, 0)) := by decide
theorem test_F15_ensure :
    (runs { State.reset with ring := { mem := [(0, 99), (100, 149)], head := 0, tail := 250, count := 250 } } [.fifoEnsure 50]).map
      (fun t => (valuesM t, ringOf t)) = some ([1], (100, 250, 150)) ∧
    (runs (zeros 250) [.fifoEnsure 257]).map (fun t => (valuesM t, ringOf t)) = some ([0], (0, 250, 250)) := by decide
theorem test_F19_ensure_framing : (runs (queued [200, 1, 2]) [.fifoEnsure 254]).map (fun t => (valuesM t, ringOf t, t.events)) =
    some ([1], (0, 0, 0), [.fifoFraming]) := by decide

/-! ### CRC8 (K vectors) -/

theorem test_K6_K9_crc_byte : (runs State.reset [.crcByte 0x16 0, .crcByte 0x00 0xFF]).map valuesM = some [0xD3, 0xF9] := by decide
set_option maxRecDepth 8000 in
theorem test_K14_K18_crc_buf : (runs State.reset [.crcBuf 0xAC [0xAA, 0xBB], .crcBuf 0 [0x16, 0x00], .crcBuf 0x5A []]).map valuesM =
    some [0xA0, 0x8A, 0x5A] := by decide
set_option maxRecDepth 8000 in
theorem test_K12_check_value : crc8 0xD5 0 [0x31, 0x32, 0x33, 0x34, 0x35, 0x36, 0x37, 0x38, 0x39] = 0xBC := by decide

/-! ### Frame parser (X vectors) -/

theorem test_X3_good_frame : (runs State.reset ([0xC8, 0x02, 0x16, 0xD3].map .rxByte)).map (fun t => (t.link, t.events, valuesM t)) =
    some ({ good := 1, bad := 0, connected := true }, [.connected, .frame [0xC8, 0x02, 0x16, 0xD3]], [0, 0, 0, 1]) := by decide
theorem test_X4_X8_bad_frames :
    (runs State.reset ([0xC8, 0x02, 0x16, 0xD2].map .rxByte)).map (fun t => (t.link, t.events)) =
      some ({ good := 0, bad := 1, connected := false }, [.rxDiscard]) ∧
    (runs State.reset ([0xC8, 0x41].map .rxByte)).map (fun t => (t.parser.state, t.link.bad)) = some (.waitSync, 0) := by decide

/-! ### Frame builders and drain (T and DR vectors) -/

set_option maxRecDepth 8000 in
theorem test_T1_send_simple : (runs State.reset [.txSendSimple 0xEA 0x14 [0xAA, 0xBB]]).map (fun t => (t.ring.queue 256, valuesM t)) =
    some ([0x06, 0xEA, 0x04, 0x14, 0xAA, 0xBB, 0xA0], [1]) := by decide
set_option maxRecDepth 8000 in
theorem test_T4_send_ext : (runs State.reset [.txSendExt 0xEA 0x2D 0xEE 0xEA [0x05, 0x01]]).map (fun t => t.ring.queue 256) =
    some [0x08, 0xEA, 0x06, 0x2D, 0xEE, 0xEA, 0x05, 0x01, 0xC9] := by decide
theorem test_T12_T15_send_raw :
    (runs State.reset [.txSendRaw [0xEA, 0x02, 0x16, 0x00]]).map (fun t => (t.ring.queue 256, valuesM t)) =
      some ([0x04, 0xEA, 0x02, 0x16, 0x00], [1]) ∧
    (runs State.reset [.txSendRaw [0xEA, 0x03, 0x16, 0xD3]]).map (fun t => (t.ring.count, valuesM t, t.events)) =
      some (0, [0], [.txDrop]) := by decide
theorem test_DR1_drain : (runs (queued [0x06, 0xEA, 0x04, 0x14, 0xAA, 0xBB, 0xA0]) [.txDrain]).map (fun t => (valuesM t, t.events)) =
    some ([6], [.lineTx, .txByte 0xEA, .txByte 0x04, .txByte 0x14, .txByte 0xAA, .txByte 0xBB, .txByte 0xA0, .txFlush, .lineRx,
      .rxDiscard]) := by decide
theorem test_DR5_drain_defers :
    (runs { zeros 4 with wdt := { State.reset.wdt with maxPeriod := 2 }, ring := (State.reset.ring.pushBytes 256 [1, 9, 3, 7, 8, 9]) }
      [.txDrain, .txDrain, .txDrain]).map (fun t => (valuesM t, t.drain.off, t.drain.rem)) = some ([1, 2, 1], 0, 0) := by decide

/-! ### Watchdog (W vectors) -/

theorem test_W1_W2_tick : (runs State.reset [.wdtTick 999, .wdtTick 1000, .wdtTick 1249, .wdtTick 1250]).map
      (fun t => (valuesM t, t.wdt.baudIdx, t.wdt.last, t.wdt.maxPeriod, t.wdt.maxPacket)) =
    some ([0, 1, 0, 1], 2, 500, 256, 64) := by decide
theorem test_W5_tick_disconnects :
    (runs { State.reset with link := { good := 1, bad := 1, connected := true } } [.wdtTick 1000]).map (fun t => (t.link, t.events)) =
      some ({ good := 0, bad := 0, connected := false }, [.disconnected, .txFlush, .baudSet 115200, .lineRx, .rxDiscard]) := by decide
theorem test_W9_set_interval :
    (runs State.reset [.wdtSetInterval 4000]).map (fun t => (t.wdt.maxPeriod, t.wdt.maxPacket, t.wdt.rcInterval)) = some (64, 64, 4000) ∧
    (runs State.reset [.wdtSetInterval 1000001]).map (fun t => (t.wdt, t.resp.m.map (·.status))) =
      some (State.reset.wdt, [.refused]) := by decide
theorem test_W11_W12_reads : (runs State.reset [.wdtRdBudget, .wdtRdBaud]).map valuesM = some [0x00400050, 400000] := by decide

/-! ### Duplex and system (U and Y vectors) -/

theorem test_U1_duplex_tx : (runs State.reset [.duplexTx, .sysRdStatus]).map (fun t => (valuesM t, t.events)) =
    some ([0, 0x00000004], [.lineTx]) := by decide
theorem test_U3_duplex_rx : (runs State.reset [.duplexTx, .duplexRx]).map (fun t => (t.lineDir, t.events)) =
    some (.rx, [.lineTx, .lineRx, .rxDiscard]) := by decide
theorem test_Y2_Y4_lock : (runs State.reset [.sysLock, .sysRdStatus, .sysLock, .sysUnlock]).map (fun t => (valuesM t, t.lock)) =
    some ([0, 0x00000002, 0, 0], false) := by decide
theorem test_Y5_counters : (runs { State.reset with link := { good := 3, bad := 1, connected := true } } [.sysRdGood, .sysRdBad]).map valuesM =
    some [3, 1] := by decide
theorem test_X18_status : (runs (fed [0xC8, 0x18, 0x16]) [.sysRdStatus]).map (fun t => (valuesM t).getLast?) = some (some 0x00000310) := by
  decide
theorem test_Y6_stop :
    (runs { zeros 30 with
      parser := { buf := [], state := .readBody, pos := 5, len := 9 }, drain := { buf := [], off := 22, rem := 8 }
      link := { good := 3, bad := 1, connected := true }, lock := true, wdt := { State.reset.wdt with baudIdx := 2 } }
      [.sysStop, .sysRdStatus]).map (fun t => (t.ring.count, t.link, t.lock, valuesM t, t.events.length)) =
    some (0, { good := 0, bad := 0, connected := true }, false, [0, 0x00000041], 0) := by decide

/-! ### Ports and steps -/

/-- Y8, Y9: a command on a port that does not accept it is illegal. -/
theorem test_Y8_Y9_wrong_port :
    (after (step (presenting .m [.word 0x3000000000C8]))).map (fun t => (t.events, t.resp.m.map (·.status), t.parser.state)) =
      some ([.illegalCmd 0x30], [.illegal], .waitSync) ∧
    (after (step (presenting .a [.word 0x120000000000]))).map (fun t => (t.events, t.resp.a.map (·.status))) =
      some ([.illegalCmd 0x12], [.illegal]) := by decide

/-- Y3: a command of port A waits for the guard, and runs after it. -/
theorem test_Y3_guard :
    (after (step { presenting .a [.word 0x100000000001] with lock := true })).map (fun t => (t.ring.count, t.pend.a.length)) = some (0, 1) ∧
    (after (step (presenting .a [.word 0x100000000001]))).map (fun t => (t.ring.count, t.pend.a.length)) = some (1, 0) := by decide

/-- The pseudo-commands of R89. -/
theorem test_pseudo_commands :
    Assembler.itemsFor .r (Assembler.rxFeed [0xC8, 0x02]) = [.word 0x3000000000C8, .word 0x300000000002] ∧
    Assembler.itemsFor .m (Assembler.critical [.fifoSize]) = [.word 0x700000000000, .word 0x150000000000, .word 0x710000000000] ∧
    Assembler.fifoPushEntry [7, 8] = some (.fifoPushBytes [2, 7, 8]) := by decide

/-! ### Witnesses: the hypotheses of every statement can be met together

`Meets i s`: the state meets the invariant and the command answers a next state. -/

/-- The two hypotheses most statements about a command share. -/
abbrev Meets (i : Instr) (s : State) : Prop := s.Inv ∧ ∃ t, exec i s = .next t

/-- A legal configuration of another kind: full duplex, two baud rates, a small ring buffer, every bound at its edge. -/
def smallConfig : Config :=
  { Config.default with
    fifoCap := 16, halfDuplex := false, baud := [115200, 921600], budgetMin := 16, minLen := 2, maxPkt := 2, rxPosLimit := 3
    payloadMax := 253, rcIntervalResetUs := 1 }

/-- The line turned to transmit. -/
def turned : State := { State.reset with lineDir := .tx }

/-- The parser in each state, at the edges of its position: just after the sync byte, with one body byte of a two-byte frame to come, and at
the position limit. -/
def inLength : State := { State.reset with parser := { buf := [(0, 0xC8)], state := .readLength, pos := 1, len := 0 } }
def inBody (pos len : Byte) : State :=
  { State.reset with parser := { buf := [(0, 0xC8), (1, len), (2, 0x16)], state := .readBody, pos := pos, len := len } }

/-- An entry of two bytes in progress. -/
def sending : State := { State.reset with drain := { buf := [(0, 0xAA), (1, 0xBB)], off := 0, rem := 2 } }

theorem inv_reset : State.reset.Inv := inv_of (by decide)
theorem inv_small : (State.resetWith smallConfig).Inv := inv_of (by decide)
theorem inv_zeros_255 : (zeros 255).Inv := inv_of (by decide)
theorem inv_zeros_256 : (zeros 256).Inv := inv_of (by decide)
theorem inv_zeros_1 : (zeros 1).Inv := inv_of (by decide)
theorem inv_turned : turned.Inv := inv_of (by decide)
theorem inv_inLength : inLength.Inv := inv_of (by decide)
theorem inv_inBody_next : (inBody 2 2).Inv := inv_of (by decide)
theorem inv_inBody_last : (inBody 3 2).Inv := inv_of (by decide)
theorem inv_inBody_limit : (inBody 64 64).Inv := inv_of (by decide)
theorem inv_sending : sending.Inv := inv_of (by decide)
theorem inv_broken : (queued [200, 1, 2]).Inv := inv_of (by decide)
theorem inv_framed : (queued [2, 7, 8, 0]).Inv := inv_of (by decide)

theorem witness_ResetState : State.reset.cfg.ok ∧ smallConfig.ok := by decide
theorem witness_ResetMeetsInvariant : Config.default.ok ∧ smallConfig.ok := by decide
theorem witness_EncodeDecode : (Instr.txSendExt 1 2 3 4 (List.replicate 255 0)).wf ∧ Instr.sysStop.wf := by
  simp only [Instr.wf, Instr.data, Instr.maxBeats, List.length_replicate, List.length_nil]; omega
theorem witness_DecodedIsWellFormed : decode [.word 0x10FFFFFFFF41, .beat 1] = .ok (.fifoPush 0x41, [.beat 1]) := by decide
theorem witness_UnnamedBitsIgnored : Op.ofCode (CmdWord.op 0x10FFFFFFFF41) = some .fifoPush ∧
    (0x10FFFFFFFF41 : CmdWord) &&& Op.fifoPush.format.namedBits = 0x100000000041 &&& Op.fifoPush.format.namedBits := by decide
theorem witness_IllegalCommand :
    (presenting .m [.word 0x3000000000C8, .beat 1]).selectPort = some (.m, presenting .m [.word 0x3000000000C8, .beat 1]) ∧
    acceptsCode .m ((0x3000000000C8 : CmdWord).extractLsb' 40 8) = false ∧
    (presenting .a [.word 0x800000000000]).selectPort = some (.a, presenting .a [.word 0x800000000000]) ∧
    acceptsCode .a ((0x800000000000 : CmdWord).extractLsb' 40 8) = false := by decide
theorem witness_BeatsAwaited :
    Op.ofCode ((0x110000000002 : CmdWord).extractLsb' 40 8) = some .fifoPushBytes ∧
    (presenting .a [.word 0x110000000002, .beat 1]).pend.get .a = .word 0x110000000002 :: [1].map .beat ∧
    [(1 : Byte)].length < Op.fifoPushBytes.format.beats 0x110000000002 ∧ Op.fifoPushBytes.accepts .a = true ∧
    (Instr.fifoPushBytes [1, 2]).wf ∧
    (presenting .a (encode (.fifoPushBytes [1, 2]) ++ [.beat 9])).pend.get .a = encode (.fifoPushBytes [1, 2]) ++ [.beat 9] := by decide
theorem witness_BeatsAwaited_step : (presenting .a [.word 0x110000000002, .beat 1]).Inv ∧
    after (step (presenting .a [.word 0x110000000002, .beat 1])) ≠ none := ⟨inv_of (by decide), by decide⟩

/-- Two ports ready at once, and one alone. -/
def twoReady : State := (presenting .m [.word 0x150000000000]).present .a [.word 0x100000000001]

theorem witness_Arbitration : twoReady.readyPorts = [.m, .a] ∧ 2 ≤ twoReady.readyPorts.length ∧
    twoReady.ready .a = true ∧ twoReady.readyPorts[1]? = some .a ∧ twoReady.selectPort.isSome = true ∧
    (presenting .r [.word 0x3000000000C8]).ready .r = true ∧ (presenting .r [.word 0x3000000000C8]).ready .m = false ∧
    (presenting .r [.word 0x3000000000C8]).ready .a = false ∧ State.reset.selectPort = none := by
  exact ⟨by decide, by decide, by decide, by decide, rfl, by decide, by decide, by decide, by decide⟩
theorem witness_StepRunsDecoded :
    (presenting .m [.word 0x150000000000, .beat 3]).selectPort = some (.m, presenting .m [.word 0x150000000000, .beat 3]) ∧
    decode ((presenting .m [.word 0x150000000000, .beat 3]).pend.get .m) = .ok (.fifoSize, [.beat 3]) ∧
    Op.fifoSize.accepts .m = true ∧ (presenting .m [.word 0x150000000000, .beat 3]).pend.get .a = [] ∧
    (presenting .m [.word 0x150000000000, .beat 3]).pend.get .r = [] := by decide
theorem witness_IdleStep : State.reset.ready .m = false ∧ State.reset.ready .a = false ∧ State.reset.ready .r = false := by decide
theorem witness_StrayBeatMisread : (presenting .r [.beat 5]).Inv ∧ (presenting .r [.beat 5]).selectPort = some (.r, presenting .r [.beat 5]) ∧
    (presenting .r [.beat 5]).pend.get .r = .beat 5 :: [] := ⟨inv_of (by decide), by decide⟩

/-- The guard held, a command of port A waiting, port M about to release it. -/
def guarded : State := { twoReady with lock := true, pend := { twoReady.pend with m := [.word 0x710000000000] } }

theorem witness_GuardHoldsPorts : guarded.lock = true ∧ (after (step guarded)).map (·.lock) = some false ∧
    (after (exec .sysUnlock guarded)).map (·.lock) = some false ∧ guarded.pend.get .a = encode (.fifoPush 1) ++ [] ∧
    (Instr.fifoPush 1).wf ∧ Op.fifoPush.accepts .a = true ∧ twoReady.lock = false := by decide
theorem inv_guarded : guarded.Inv := inv_of (by decide)
theorem witness_PortOrderKept : (presenting .a [.word 0x100000000001, .word 0x120000000000]).Inv ∧
    (after (step (presenting .a [.word 0x100000000001, .word 0x120000000000]))).map (·.pend.a) = some [.word 0x120000000000] :=
  ⟨inv_of (by decide), by decide⟩
theorem witness_StepKeepsInvariant : guarded.Inv ∧ after (step guarded) ≠ none := ⟨inv_guarded, by decide⟩
theorem witness_ConnectionEdgesAlternate :
    ({ presenting .m [.word 0x5000000003E8] with link := { good := 0, bad := 0, connected := true }, events := [.connected] }).Inv ∧
    ({ presenting .m [.word 0x5000000003E8] with link := { good := 0, bad := 0, connected := true }, events := [.connected] }).edgesOk ∧
    (after (step { presenting .m [.word 0x5000000003E8] with
      link := { good := 0, bad := 0, connected := true }, events := [.connected] })).map (·.events.length) = some 6 :=
  ⟨inv_of (by decide), by decide, by decide⟩

theorem witness_EveryCommandCompletes : State.reset.Inv ∧ (State.resetWith smallConfig).Inv := ⟨inv_reset, inv_small⟩
theorem witness_OneResponsePerCommand : Meets (.wdtSetInterval 0) State.reset ∧ Meets (.fifoPopBytes 3) (queued [2, 7, 8, 0]) ∧
    (guarded.Inv ∧ guarded.lock = true ∧ after (step guarded) ≠ none) :=
  ⟨⟨inv_reset, _, rfl⟩, ⟨inv_framed, _, rfl⟩, inv_guarded, rfl, by decide⟩
theorem witness_HistoryOnlyAppended : Meets .txDrain sending := ⟨inv_sending, _, rfl⟩
theorem witness_EventTable : Meets .txDrain sending ∧ Meets (.wdtTick 1000) State.reset := ⟨⟨inv_sending, _, rfl⟩, inv_reset, _, rfl⟩
theorem witness_ContextRights : (Op.txSendRaw.accepts .a = true ∧ ∃ t, exec (.txSendRaw []) State.reset = .next t) ∧
    (Op.rxByte.accepts .r = true ∧ ∃ t, exec (.rxByte 0xC8) State.reset = .next t) := ⟨⟨rfl, _, rfl⟩, rfl, _, rfl⟩
theorem witness_WritersOfRegisters : Meets .sysStop guarded ∧ Meets (.fifoEnsure 256) (zeros 256) :=
  ⟨⟨inv_guarded, _, rfl⟩, inv_zeros_256, _, rfl⟩
theorem witness_EnvironmentMoves : (presenting .r [.word 0x3000000000C8, .word 0x300000000002, .word 0x300000000016]).Inv ∧
    ((presenting .r [.word 0x3000000000C8, .word 0x300000000002, .word 0x300000000016]).discardReceived 1 1).pend.r =
      [.word 0x3000000000C8, .word 0x300000000016] := ⟨inv_of (by decide), by decide⟩

theorem witness_FifoPush : (zeros 256).Inv ∧ (zeros 256).ring.count.toNat = (zeros 256).cfg.fifoCap ∧ (zeros 255).Inv ∧
    (zeros 255).ring.count.toNat < (zeros 255).cfg.fifoCap := ⟨inv_zeros_256, rfl, inv_zeros_255, by decide⟩
theorem witness_FifoPushBytes : (zeros 255).Inv ∧ (zeros 255).ring.count.toNat + [(1 : Byte)].length ≤ (zeros 255).cfg.fifoCap ∧
    (zeros 255).cfg.fifoCap < (zeros 255).ring.count.toNat + [(1 : Byte), 2].length := ⟨inv_zeros_255, by decide, by decide⟩
theorem witness_FifoPop : State.reset.Inv ∧ State.reset.ring.count = 0 ∧ (zeros 1).Inv ∧ (zeros 1).ring.count ≠ 0 :=
  ⟨inv_reset, rfl, inv_zeros_1, by decide⟩
theorem witness_FifoPopBytes : (zeros 255).Inv ∧ (zeros 255).ring.count.toNat < (256 : BitVec 16).toNat ∧
    (255 : BitVec 16).toNat ≤ (zeros 255).ring.count.toNat := ⟨inv_zeros_255, by decide, by decide⟩
theorem witness_FifoPeekAndSize : State.reset.Inv ∧ State.reset.ring.count = 0 ∧ (zeros 1).Inv ∧ (zeros 1).ring.count ≠ 0 :=
  ⟨inv_reset, rfl, inv_zeros_1, by decide⟩
theorem witness_FifoEnsure :
    ((zeros 255).Inv ∧ (zeros 255).cfg.fifoCap < (257 : BitVec 16).toNat ∧
      (1 : BitVec 16).toNat + (zeros 255).ring.count.toNat ≤ (zeros 255).cfg.fifoCap ∧
      (256 : BitVec 16).toNat ≤ (zeros 255).cfg.fifoCap ∧ (zeros 255).cfg.fifoCap < (2 : BitVec 16).toNat + (zeros 255).ring.count.toNat ∧
      (Memory.read (zeros 255).ring.mem (zeros 255).ring.head.toNat).toNat ≤ (zeros 255).ring.count.toNat - 1) ∧
    ((queued [200, 1, 2]).Inv ∧ (queued [200, 1, 2]).cfg.fifoCap < (254 : BitVec 16).toNat + (queued [200, 1, 2]).ring.count.toNat ∧
      (queued [200, 1, 2]).ring.count.toNat - 1 <
        (Memory.read (queued [200, 1, 2]).ring.mem (queued [200, 1, 2]).ring.head.toNat).toNat) :=
  ⟨⟨inv_zeros_255, by decide⟩, inv_broken, by decide⟩
theorem witness_FifoLaw : (zeros 1).Inv ∧ (∀ i ∈ [Instr.fifoPush 5, .fifoPushBytes [6, 7]], Claims.barePush i) ∧
    (zeros 1).ring.count.toNat + ([Instr.fifoPush 5, .fifoPushBytes [6, 7]].flatMap Claims.pushedBytes).length ≤ (zeros 1).cfg.fifoCap := by
  refine ⟨inv_zeros_1, ?_, by decide⟩
  intro i hi
  simp only [List.mem_cons, List.not_mem_nil, or_false] at hi
  rcases hi with rfl | rfl
  · exact .inl ⟨_, rfl⟩
  · exact .inr ⟨_, rfl⟩

/-- Two entries queued, one of two bytes and an empty one. -/
theorem witness_framed : (queued [2, 7, 8, 0]).framedAs [[7, 8], []] := by decide
theorem witness_EnsureDropsWholeEntries : (queued [2, 7, 8, 0]).Inv ∧ (queued [2, 7, 8, 0]).framedAs [[7, 8], []] ∧
    (253 : BitVec 16).toNat ≤ (queued [2, 7, 8, 0]).cfg.fifoCap := ⟨inv_framed, witness_framed, by decide⟩
theorem witness_FramingKept : Meets (.txSendRaw [0xEA, 0]) (queued [2, 7, 8, 0]) ∧ Meets .txDrain (queued [2, 7, 8, 0]) ∧
    (queued [2, 7, 8, 0]).framedAs [[7, 8], []] := ⟨⟨inv_framed, _, rfl⟩, ⟨inv_framed, _, rfl⟩, witness_framed⟩

theorem witness_CrcDetectsOneByte : Config.default.crcPoly.getLsbD 0 = true ∧ (0x16 : Byte) ≠ 0x17 := by decide

theorem witness_RxWaitSync : ¬Claims.listening turned ∧ Claims.listening State.reset ∧ State.reset.parser.state = .waitSync ∧
    0xEA ∉ State.reset.cfg.syncSet ∧ State.reset.Inv ∧ 0xC8 ∈ State.reset.cfg.syncSet :=
  ⟨fun h => h ⟨rfl, rfl⟩, by unfold Claims.listening; decide, rfl, by decide, inv_reset, by decide⟩
theorem witness_RxReadLength : inLength.Inv ∧ Claims.listening inLength ∧ inLength.parser.state = .readLength ∧
    inLength.cfg.maxPkt < (65 : Byte).toNat ∧ (1 : Byte).toNat < inLength.cfg.minLen ∧
    inLength.cfg.minLen ≤ (2 : Byte).toNat ∧ (64 : Byte).toNat ≤ inLength.cfg.maxPkt :=
  ⟨inv_inLength, by unfold Claims.listening; decide, rfl, by decide⟩
theorem witness_RxReadBody :
    ((inBody 64 64).Inv ∧ Claims.listening (inBody 64 64) ∧ (inBody 64 64).parser.state = .readBody ∧
      (inBody 64 64).cfg.rxPosLimit ≤ (inBody 64 64).parser.pos.toNat) ∧
    ((inBody 2 2).Inv ∧ Claims.listening (inBody 2 2) ∧ (inBody 2 2).parser.pos.toNat < (inBody 2 2).cfg.rxPosLimit ∧
      (inBody 2 2).parser.pos.toNat + 1 < (inBody 2 2).parser.len.toNat + 2) :=
  ⟨⟨inv_inBody_limit, by unfold Claims.listening; decide, rfl, by decide⟩, inv_inBody_next, by unfold Claims.listening; decide, by decide⟩
theorem witness_RxComplete : (inBody 3 2).Inv ∧ Claims.listening (inBody 3 2) ∧ (inBody 3 2).parser.state = .readBody ∧
    (inBody 3 2).parser.pos.toNat < (inBody 3 2).cfg.rxPosLimit ∧
    (inBody 3 2).parser.len.toNat + 2 ≤ (inBody 3 2).parser.pos.toNat + 1 ∧
    crc8 0xD5 0 [Memory.read (inBody 3 2).parser.buf 2] = 0xD3 :=
  ⟨inv_inBody_last, by unfold Claims.listening; decide, by decide⟩
theorem witness_RxWholeFrame : State.reset.Inv ∧ Claims.listening State.reset ∧ State.reset.parser.state = .waitSync ∧
    0xEE ∈ State.reset.cfg.syncSet ∧ State.reset.cfg.minLen ≤ ([] : List Byte).length + 2 ∧
    (List.replicate 60 (0 : Byte)).length + 2 ≤ State.reset.cfg.maxPkt ∧
    (List.replicate 60 (0 : Byte)).length + 4 ≤ State.reset.cfg.rxPosLimit :=
  ⟨inv_reset, by unfold Claims.listening; decide, rfl, by decide⟩

theorem witness_SendSimple : State.reset.Inv ∧ 255 < (List.replicate 252 (0 : Byte)).length + 4 ∧
    (List.replicate 251 (0 : Byte)).length + 4 ≤ 255 := by
  exact ⟨inv_reset, by rw [List.length_replicate]; omega, by rw [List.length_replicate]⟩
theorem witness_SendExt : State.reset.Inv ∧ 255 < (List.replicate 250 (0 : Byte)).length + 6 ∧
    (List.replicate 249 (0 : Byte)).length + 6 ≤ 255 := by
  exact ⟨inv_reset, by rw [List.length_replicate]; omega, by rw [List.length_replicate]⟩
theorem witness_SendRaw : State.reset.Inv ∧ [(0xEA : Byte)].length < 2 ∧
    State.reset.cfg.payloadMax < ([0xEA, 63].getD 1 (0 : Byte)).toNat ∧
    [(0xEA : Byte), 3, 0x16, 0xD3].length ≠ ([0xEA, 3, 0x16, 0xD3].getD 1 (0 : Byte)).toNat + 2 ∧
    2 ≤ [(0xEA : Byte), 0].length ∧ ([0xEA, 0].getD 1 (0 : Byte)).toNat ≤ State.reset.cfg.payloadMax ∧
    [(0xEA : Byte), 0].length = ([0xEA, 0].getD 1 (0 : Byte)).toNat + 2 := ⟨inv_reset, by decide⟩
theorem witness_DrainFollowsLoop : sending.Inv ∧ (queued [200, 1, 2]).Inv := ⟨inv_sending, inv_broken⟩
theorem witness_DrainPeriod : sending.Inv ∧ (queued [200, 1, 2]).Inv ∧ (State.resetWith smallConfig).Inv :=
  ⟨inv_sending, inv_broken, inv_small⟩
theorem witness_DrainSendsInOrder : (queued [2, 7, 8, 0]).Inv ∧ (queued [2, 7, 8, 0]).framedAs [[7, 8], []] := ⟨inv_framed, witness_framed⟩

theorem witness_BudgetFormula : 1 ≤ 1 ∧ 1000000 ≤ 1000000 ∧ (0 = 0 ∨ 1000000 < 0) ∧ (1000001 = 0 ∨ 1000000 < 1000001) := by decide
theorem witness_WdtTick :
    (State.reset.Inv ∧ ((999 : Word32) - State.reset.wdt.last).toNat < State.reset.cfg.wdtIntervalMs ∧
      State.reset.cfg.wdtIntervalMs ≤ ((1000 : Word32) - State.reset.wdt.last).toNat ∧
      State.reset.link.good.toNat ≤ State.reset.link.bad.toNat) ∧
    (({ State.reset with link := { good := 2, bad := 1, connected := true } }).Inv ∧ (1 : Word32).toNat < (2 : Word32).toNat) :=
  ⟨⟨inv_reset, by decide⟩, inv_of (by decide), by decide⟩
theorem witness_WdtSetInterval : State.reset.Inv ∧ (0 : Word32).toNat = 0 ∧ 1000000 < (1000001 : Word32).toNat ∧ 1 ≤ (1 : Word32).toNat ∧
    (1000000 : Word32).toNat ≤ 1000000 := ⟨inv_reset, by decide⟩

/-- The last baud of the list in force, with the budgets of W11. -/
def lastBaud : State :=
  { State.reset with wdt := { State.reset.wdt with baudIdx := 5, maxPeriod := 184, maxPacket := 64 } }

theorem witness_WdtReads : State.reset.Inv ∧ lastBaud.Inv := ⟨inv_reset, inv_of (by decide)⟩
theorem witness_BaudIndexCountsFailures : State.reset.Inv ∧
    (runs State.reset [.wdtTick 1000, .fifoSize, .wdtTick 1250]).map (·.wdt.baudIdx) = some 2 ∧
    Claims.failedChecks [.wdtTick 1000, .fifoSize, .wdtTick 1250] State.reset = 2 := ⟨inv_reset, by decide, by decide⟩
theorem witness_FullDuplexNeverTurns : Meets .duplexTx (State.resetWith smallConfig) ∧
    (State.resetWith smallConfig).cfg.halfDuplex = false := ⟨⟨inv_small, _, rfl⟩, rfl⟩
theorem witness_OnlyDuplexTxTurns : State.reset.Inv ∧ (after (exec .duplexTx State.reset)).map (·.lineDir) = some .tx := ⟨inv_reset, by decide⟩

end Sys2Proof.Tests
end

section
/-! PROOFS. What the two kinds of command with a size test can do: `FIFO.POP_BYTES`, and the three frame builders. -/

namespace Sys2Proof.Machine

/-- Everything `FIFO.POP_BYTES` can do (R115, R123): take the bytes, or flush and answer with free ones. -/
theorem execFifoPopBytes_cases {n : BitVec 16} {s t : State} (he : execFifoPopBytes n s = .next t) :
    (n.toNat ≤ s.ring.count.toNat ∧
      t = ({ s with ring := s.ring.drop s.cfg.fifoCap n.toNat } : State).respond .ok 0 (s.ring.bytes s.cfg.fifoCap n.toNat)) ∨
    (s.ring.count.toNat < n.toNat ∧
      t = (({ s with ring := s.ring.flush } : State).drawn n.toNat).respond .ok 0 (s.freeBytes n.toNat)) := by
  unfold execFifoPopBytes Ring.popBytes at he
  by_cases hn : s.ring.count.toNat < n.toNat
  · simp only [if_pos hn] at he; cases he
    exact .inr ⟨hn, rfl⟩
  · simp only [if_neg hn] at he; cases he
    exact .inl ⟨Nat.le_of_not_lt hn, rfl⟩

/-- What a builder given the payload `d` makes of `s` (R161 to R164): the frame is dropped, or a frame of at most 255 bytes that holds
`d` is queued. -/
inductive Built (d : List Byte) (s : State) : State → Prop where
  | dropped : Built d s s.txDropped
  | queued (f : List Byte) (hlen : f.length ≤ 255) (hd : d <:+: f) : Built d s ((s.txQueue f).ok 1)

@[simp] theorem length_simpleFrame (poly addr typ : Byte) (d : List Byte) : (simpleFrame poly addr typ d).length = d.length + 4 := by
  simp [simpleFrame]

@[simp] theorem length_extFrame (poly addr typ dest orig : Byte) (d : List Byte) :
    (extFrame poly addr typ dest orig d).length = d.length + 6 := by
  simp [extFrame]

theorem execTxSendSimple_built {addr typ : Byte} {d : List Byte} {s t : State} (he : execTxSendSimple addr typ d s = .next t) :
    Built d s t := by
  unfold execTxSendSimple at he
  split at he <;> cases he
  · exact .dropped
  · exact .queued _ (by rw [length_simpleFrame]; omega) ⟨[addr, BitVec.ofNat 8 (d.length + 2), typ], _, rfl⟩

theorem execTxSendExt_built {addr typ dest orig : Byte} {d : List Byte} {s t : State}
    (he : execTxSendExt addr typ dest orig d s = .next t) : Built d s t := by
  unfold execTxSendExt at he
  split at he <;> cases he
  · exact .dropped
  · exact .queued _ (by rw [length_extFrame]; omega) ⟨[addr, BitVec.ofNat 8 (d.length + 4), typ, dest, orig], _, rfl⟩

/-- A raw frame that is accepted has at most `PAYLOAD_MAX + 2` bytes (R164). -/
theorem length_of_rawAccepted {c : Config} {d : List Byte} (h : rawAccepted c d = true) : d.length ≤ c.payloadMax + 2 := by
  match d, h with
  | d0 :: d1 :: d, h =>
    simp only [rawAccepted, Bool.and_eq_true, decide_eq_true_eq] at h
    omega

theorem execTxSendRaw_built {d : List Byte} {s t : State} (hc : s.cfg.ok) (he : execTxSendRaw d s = .next t) : Built d s t := by
  unfold execTxSendRaw at he
  obtain ⟨_, _, _, _, _, _, _, _, hmax, _⟩ := hc
  split at he <;> cases he
  · next ha => exact .queued d (by have := length_of_rawAccepted ha; omega) (List.infix_refl d)
  · exact .dropped

end Sys2Proof.Machine
end

section
/-! PROOFS. The invariant of the block: it holds after reset, and each command and each step keeps it. -/

namespace Sys2Proof.Machine

/-! ### Reset (R49) -/

/-- `BAUD[0]` (R42, R43), as the reset and as the invariant read it. -/
theorem Config.headD_baud (c : Config) : c.baud.headD 0 = c.baud.getD 0 0 := by cases c.baud <;> rfl

/-- The watchdog after reset is in force at `BAUD[0]` and `RC_INTERVAL_RESET_US`, with the budgets of both (R42, R43). -/
theorem State.resetWith_wdt_ok {c : Config} (hc : c.ok) : (State.resetWith c).wdt.ok c := by
  have hlegal := hc
  obtain ⟨_, _, _, _, _, _, hn, _, _, h1, h2⟩ := hlegal
  obtain ⟨p, k, _, hb, hp, hk⟩ := budgetAt_ok hc hn h1 h2
  have hok := Watchdog.ok_withBudget (w := ⟨0, 0, c.rcIntervalResetUs, 0, 0⟩) hc 0 hn h1 h2 hb hp hk
  rw [← Config.headD_baud] at hb
  simp only [State.resetWith, hb, Option.getD_some]
  exact hok

/-- The reset state of every legal configuration meets the invariant. -/
theorem State.Inv_resetWith {c : Config} (hc : c.ok) : (State.resetWith c).Inv where
  cfg := hc
  ring := by
    have h0 : 0 < c.fifoCap := by have := Config.fifoCap_bounds hc; omega
    exact ⟨Nat.zero_le _, h0, h0, Nat.zero_mod _, rfl, rfl⟩
  parser := ⟨fun _ => rfl, nofun, nofun, rfl, rfl⟩
  drain := ⟨Nat.zero_le _, rfl, rfl⟩
  wdt := State.resetWith_wdt_ok hc
  line := fun _ => rfl

/-! ### Updates that keep the invariant -/

theorem State.Inv_respond {s : State} (h : s.Inv) (st : Status) (v : Word32) (d : List Byte) : (s.respond st v d).Inv :=
  ⟨h.cfg, h.ring, h.parser, h.drain, h.wdt, h.line⟩

theorem State.Inv_ok {s : State} (h : s.Inv) (v : Word32) : (s.ok v).Inv := State.Inv_respond h .ok v []

theorem State.Inv_emits {s : State} (h : s.Inv) (es : List Event) : (s.emits es).Inv :=
  ⟨h.cfg, h.ring, h.parser, h.drain, h.wdt, h.line⟩

theorem State.Inv_drawn {s : State} (h : s.Inv) (n : Nat) : (s.drawn n).Inv :=
  ⟨h.cfg, h.ring, h.parser, h.drain, h.wdt, h.line⟩

theorem State.Inv_lock {s : State} (h : s.Inv) (b : Bool) : ({ s with lock := b } : State).Inv :=
  ⟨h.cfg, h.ring, h.parser, h.drain, h.wdt, h.line⟩

theorem State.Inv_ring {s : State} (h : s.Inv) {r : Ring} (hr : r.ok s.cfg.fifoCap) : ({ s with ring := r } : State).Inv :=
  ⟨h.cfg, hr, h.parser, h.drain, h.wdt, h.line⟩

theorem State.Inv_parser {s : State} (h : s.Inv) {p : Parser} (hp : p.ok s.cfg) : ({ s with parser := p } : State).Inv :=
  ⟨h.cfg, h.ring, hp, h.drain, h.wdt, h.line⟩

theorem State.Inv_wdt {s : State} (h : s.Inv) {w : Watchdog} (hw : w.ok s.cfg) : ({ s with wdt := w } : State).Inv :=
  ⟨h.cfg, h.ring, h.parser, h.drain, hw, h.line⟩

theorem State.Inv.fifoCap_le {s : State} (h : s.Inv) : s.cfg.fifoCap ≤ 256 := (Config.fifoCap_bounds h.cfg).2

theorem State.Inv_txQueue {s : State} (h : s.Inv) (f : List Byte) : (s.txQueue f).Inv :=
  State.Inv_ring h (Ring.ok_pushBytes _ h.fifoCap_le h.ring)

theorem State.Inv_txDropped {s : State} (h : s.Inv) : s.txDropped.Inv := State.Inv_ok (State.Inv_emits h [.txDrop]) 0

/-- The drain's progress cleared (R208) keeps R37. -/
theorem Drain.ok_cleared {d : Drain} (h : d.ok) : ({ d with off := 0, rem := 0 } : Drain).ok := ⟨Nat.zero_le _, h.2⟩

theorem State.Inv_stopped {s : State} (h : s.Inv) : s.stopped.Inv :=
  ⟨h.cfg, Ring.ok_flush h.ring, Parser.ok_reset h.parser, Drain.ok_cleared h.drain, h.wdt, h.line⟩

/-- A half-duplex line may be turned to transmit; a full-duplex one is not (R196). -/
theorem State.Inv_duplexToTx {s : State} (h : s.Inv) : s.duplexToTx.Inv := by
  unfold State.duplexToTx
  split
  · next hd => exact ⟨h.cfg, h.ring, h.parser, h.drain, h.wdt, fun hf => by simp_all⟩
  · exact h

theorem State.Inv_duplexToRx {s : State} (h : s.Inv) : s.duplexToRx.Inv := by
  unfold State.duplexToRx
  split
  · exact ⟨h.cfg, h.ring, h.parser, h.drain, h.wdt, fun _ => rfl⟩
  · exact h

theorem State.Inv_closePeriod {s : State} (h : s.Inv) (written : Nat) : (s.closePeriod written).Inv := by
  unfold State.closePeriod
  split
  · exact h
  · exact State.Inv_duplexToRx (State.Inv_emits h [.txFlush])

/-- The end of a frame leaves the parser reset over the stored byte; the counters and the connection are under no invariant. -/
theorem State.Inv_finishFrame {s : State} (h : s.Inv) {p : Parser} (hp : p.reset.ok s.cfg) :
    ({ s with parser := p } : State).finishFrame.Inv := by
  rw [State.finishFrame_spec]
  split
  all_goals exact ⟨h.cfg, h.ring, hp, h.drain, h.wdt, h.line⟩

/-- The counters and the start of the interval are under no invariant. -/
theorem State.Inv_restartInterval {s : State} (h : s.Inv) (last : Word32) : (s.restartInterval last).Inv :=
  ⟨h.cfg, h.ring, h.parser, h.drain, h.wdt, h.line⟩

/-- A rotation empties the queue, leaves the line receiving, and puts the budgets of the next baud in force (R182). -/
theorem State.Inv_rotate {s : State} (h : s.Inv) {i p k : Nat} (baud last : Word32) (hi : i < s.cfg.nbaud) (hp : p ≤ 256)
    (hk : k ≤ 256) (hb : budget s.cfg (s.cfg.baud.getD i 0).toNat s.wdt.rcInterval.toNat = some (p, k)) :
    ((s.rotate i baud (p, k)).restartInterval last).Inv := by
  obtain ⟨_, h1, h2, _⟩ := h.wdt
  rw [State.rotate_spec]
  refine ⟨h.cfg, Ring.ok_flush h.ring, h.parser, h.drain, Watchdog.ok_withBudget h.cfg last hi h1 h2 hb hp hk, fun hf => ?_⟩
  exact (ite_eq_right_iff.2 fun hd => by simp_all).trans (h.line hf)

/-- What a stretch of the drain's loop leaves: on a full-duplex line it turns nothing. -/
theorem DrainRun.inv {s t : State} {R written : Nat} {bytes : List Byte} {broken : Bool} (h : s.Inv)
    (hrun : DrainRun s t R written bytes broken) : t.Inv := by
  obtain ⟨hcfg, _, hparser, _, hwdt, _, _, _, _, _⟩ := hrun.frame
  refine ⟨hcfg ▸ h.cfg, hcfg ▸ hrun.ring, ?_, hrun.drain, ?_, fun hf => ?_⟩
  · rw [hcfg, hparser]; exact h.parser
  · rw [hcfg, hwdt]; exact h.wdt
  · have hf' : s.cfg.halfDuplex = false := hcfg ▸ hf
    simp [hrun.line, drainTurns, hf', h.line hf']

/-! ### Commands and steps -/

theorem execRxByte_inv {b : Byte} {s t : State} (h : s.Inv) (he : execRxByte b s = .next t) : t.Inv := by
  obtain hx | ⟨p, hp, hx⟩ | ⟨hb, hl, _, hx⟩ := execRxByte_cases b h.cfg h.parser <;> rw [hx] at he <;> cases he
  · exact State.Inv_ok h 0
  · exact State.Inv_ok (State.Inv_parser h hp) 0
  · exact State.Inv_finishFrame h (Parser.reset_store_ok b h.cfg h.parser hb hl)

theorem execTxDrain_inv {s t : State} (h : s.Inv) (he : execTxDrain s = .next t) : t.Inv := by
  obtain ⟨u, bytes, broken, hrun, _, hx⟩ := execTxDrain_run h.fifoCap_le h.ring h.drain
  rw [hx] at he; cases he
  exact State.Inv_ok (State.Inv_closePeriod (hrun.inv h) _) _

theorem execWdtTick_inv {now : Word32} {s t : State} (h : s.Inv) (he : execWdtTick now s = .next t) : t.Inv := by
  obtain ⟨_, hx⟩ | ⟨_, _, hx⟩ | ⟨_, _, p, k, hi, hp, hk, hb, hx⟩ := execWdtTick_cases now h.cfg h.wdt <;>
    rw [hx] at he <;> cases he
  · exact State.Inv_ok h 0
  · exact State.Inv_ok (State.Inv_restartInterval h now) 0
  · exact State.Inv_ok (State.Inv_rotate h _ _ hi hp hk hb) 1

theorem execWdtSetInterval_inv {us : Word32} {s t : State} (h : s.Inv) (he : execWdtSetInterval us s = .next t) : t.Inv := by
  obtain ⟨_, hx⟩ | ⟨h1, h2, p, k, hp, hk, hb, hx⟩ := execWdtSetInterval_cases us h.cfg h.wdt <;> rw [hx] at he <;> cases he
  · exact State.Inv_respond h ..
  · exact State.Inv_ok (State.Inv_wdt h (Watchdog.ok_withBudget h.cfg s.wdt.last h.wdt.1 h1 h2 hb hp hk)) 0

theorem Built.inv {d : List Byte} {s t : State} (h : s.Inv) (hb : Built d s t) : t.Inv := by
  cases hb with
  | dropped => exact State.Inv_txDropped h
  | queued f => exact State.Inv_ok (State.Inv_txQueue h f) 1

/-- Every command keeps the invariant. -/
theorem exec_inv {i : Instr} {s t : State} (h : s.Inv) (he : exec i s = .next t) : t.Inv := by
  cases i with
  | fifoPush b => cases he; exact State.Inv_ok (State.Inv_ring h (Ring.ok_push b h.fifoCap_le h.ring)) 0
  | fifoPushBytes d => cases he; exact State.Inv_ok (State.Inv_ring h (Ring.ok_pushBytes d h.fifoCap_le h.ring)) 0
  | fifoPop => cases he; exact State.Inv_ok (State.Inv_ring h (Ring.ok_pop h.fifoCap_le h.ring)) _
  | fifoPopBytes n =>
    obtain ⟨hn, rfl⟩ | ⟨_, rfl⟩ := execFifoPopBytes_cases he
    · exact State.Inv_respond (State.Inv_ring h (Ring.ok_drop h.fifoCap_le h.ring hn)) ..
    · exact State.Inv_respond (State.Inv_drawn (State.Inv_ring h (Ring.ok_flush h.ring)) _) ..
  | fifoFlush => cases he; exact State.Inv_ok (State.Inv_ring h (Ring.ok_flush h.ring)) 0
  | fifoEnsure n => cases he; exact State.Inv_ok (State.Inv_emits (State.Inv_ring h (Ring.ok_ensure h.fifoCap_le h.ring)) _) _
  | rxByte b => exact execRxByte_inv h he
  | txSendSimple addr typ d => exact (execTxSendSimple_built he).inv h
  | txSendExt addr typ dest orig d => exact (execTxSendExt_built he).inv h
  | txSendRaw d => exact (execTxSendRaw_built h.cfg he).inv h
  | txDrain => exact execTxDrain_inv h he
  | wdtTick now => exact execWdtTick_inv h he
  | wdtSetInterval us => exact execWdtSetInterval_inv h he
  | wdtRdBaud => rw [exec, execWdtRdBaud_ok h.wdt] at he; cases he; exact State.Inv_ok h _
  | duplexTx => cases he; exact State.Inv_ok (State.Inv_duplexToTx h) 0
  | duplexRx => cases he; exact State.Inv_ok (State.Inv_duplexToRx h) 0
  | sysLock => cases he; exact State.Inv_ok (State.Inv_lock h true) 0
  | sysUnlock => cases he; exact State.Inv_ok (State.Inv_lock h false) 0
  | sysStop => cases he; exact State.Inv_ok (State.Inv_stopped h) 0
  | fifoPeek | fifoSize | crcByte b seed | crcBuf seed d | wdtRdBudget | sysRdGood | sysRdBad | sysRdStatus =>
    cases he; exact State.Inv_ok h _

/-- A port that takes an illegal command or executes a command keeps the invariant. -/
theorem Took.inv {p : Port} {s t : State} (h : s.Inv) (ht : Took p s t) : t.Inv := by
  obtain ⟨w, rest, _, _, rfl⟩ | ⟨i, rest, _, _, he⟩ := ht
  · exact State.Inv_respond (State.Inv_emits (State.Inv_serve p rest h) _) ..
  · exact exec_inv (State.Inv_serve p rest h) he

end Sys2Proof.Machine

section

open Sys2Proof.Machine

/-- Settles O15: a step does nothing, or selects a port, perhaps misreads what it presents, and takes a command of it; each keeps
the invariant. -/
theorem stepKeepsInvariant : Obligations.StepKeepsInvariant := by
  intro s t h he
  obtain rfl | ⟨p, u, hs, htook | ⟨_, rfl | htook⟩⟩ := step_cases he
  · exact h
  · exact htook.inv (State.Inv_select h hs)
  · exact State.Inv_misread p (State.Inv_select h hs)
  · exact htook.inv (State.Inv_misread p (State.Inv_select h hs))

/-- Settles O1: the registers are the literals of the reset state, and the budgets are those of the watchdog in force there. -/
theorem resetState : Obligations.ResetState := by
  refine ⟨fun s hc => ?_, rfl, rfl, by decide, by decide⟩
  obtain ⟨_, _, _, hb⟩ := State.resetWith_wdt_ok hc
  exact ⟨rfl, rfl, rfl, rfl, rfl, rfl, rfl, rfl, rfl, rfl, rfl, rfl, by rw [Config.headD_baud]; exact hb, rfl, rfl, rfl, rfl, rfl⟩

/-- Settles O2: the reset state of a legal configuration meets the invariant, and its history is empty with the link down. -/
theorem resetMeetsInvariant : Obligations.ResetMeetsInvariant :=
  ⟨fun _ hc => ⟨State.Inv_resetWith hc, rfl⟩, State.Inv_resetWith (by decide)⟩

end
end

section
/-! PROOFS. What each command leaves unchanged (R23 to R45): every command's next state is the old one outside the registers its
rule writes. -/

namespace Sys2Proof.Machine

/-- `s` with the registers and arrays that a command of opcode `o` may write taken from `t`. -/
def writtenBy (o : Op) (s t : State) : State :=
  match o with
  | .fifoPush | .fifoPushBytes | .txSendSimple | .txSendExt | .txSendRaw =>
    { s with ring := t.ring, events := t.events, resp := t.resp }
  | .fifoPop | .fifoFlush | .fifoEnsure =>
    { s with ring := { t.ring with mem := s.ring.mem }, events := t.events, resp := t.resp }
  | .fifoPopBytes =>
    { s with ring := { t.ring with mem := s.ring.mem }, resp := t.resp, draws := t.draws }
  | .fifoPeek | .fifoSize | .crcByte | .crcBuf | .wdtRdBudget | .wdtRdBaud | .sysRdGood | .sysRdBad | .sysRdStatus =>
    { s with resp := t.resp }
  | .rxByte =>
    { s with parser := t.parser, link := t.link, events := t.events, resp := t.resp }
  | .txDrain =>
    { s with ring := { t.ring with mem := s.ring.mem }, drain := t.drain, lineDir := t.lineDir, events := t.events,
             resp := t.resp }
  | .wdtTick =>
    { s with ring := { t.ring with mem := s.ring.mem }, link := t.link,
             wdt := { t.wdt with rcInterval := s.wdt.rcInterval }, lineDir := t.lineDir, events := t.events, resp := t.resp }
  | .wdtSetInterval =>
    { s with wdt := { t.wdt with baudIdx := s.wdt.baudIdx, last := s.wdt.last }, resp := t.resp }
  | .duplexTx | .duplexRx => { s with lineDir := t.lineDir, events := t.events, resp := t.resp }
  | .sysLock | .sysUnlock => { s with lock := t.lock, resp := t.resp }
  | .sysStop =>
    { s with ring := { t.ring with mem := s.ring.mem }, parser := { t.parser with buf := s.parser.buf },
             link := { t.link with connected := s.link.connected }, drain := { t.drain with buf := s.drain.buf },
             lock := t.lock, resp := t.resp }

theorem writtenBy_cfg (o : Op) (s t : State) : (writtenBy o s t).cfg = s.cfg := by cases o <;> rfl

/-- The opcodes whose rules write the registers of the queue. -/
def queueWriters : List Op :=
  [.fifoPush, .fifoPushBytes, .txSendSimple, .txSendExt, .txSendRaw, .fifoPop, .fifoPopBytes, .fifoFlush, .fifoEnsure, .txDrain,
    .wdtTick, .sysStop]

theorem writtenBy_ring {o : Op} (ho : o ∉ queueWriters) (s t : State) : (writtenBy o s t).ring = s.ring := by
  revert ho
  cases o <;> simp [writtenBy, queueWriters]

/-! ### The pieces -/

/-- Writing an array that is already there changes nothing. -/
theorem Ring.with_mem_eq {r : Ring} {m : Memory} (h : r.mem = m) : ({ r with mem := m } : Ring) = r := by
  subst h; rfl

theorem Ring.ensure_mem {C n : Nat} {r : Ring} (hC : C ≤ 256) (h : r.ok C) : (r.ensure C n).2.1.mem = r.mem := by
  unfold Ring.ensure
  split
  · rfl
  · next hn => exact (Ring.ensureLoop_post hC (Nat.le_of_not_lt hn) h).2.2.1

theorem Built.written {d : List Byte} {s t : State} (h : Built d s t) :
    t = { s with ring := t.ring, events := t.events, resp := t.resp } := by cases h <;> rfl

/-- A drain's frame, as one state. -/
theorem DrainFrame.eq_update {s t : State} (h : DrainFrame s t) :
    t = { s with ring := { t.ring with mem := s.ring.mem }, drain := t.drain, lineDir := t.lineDir, events := t.events } := by
  obtain ⟨hcfg, hmem, hparser, hlink, hwdt, hlock, hresp, hpend, hactive, hdraws⟩ := h
  rw [Ring.with_mem_eq hmem, ← hcfg, ← hparser, ← hlink, ← hwdt, ← hlock, ← hresp, ← hpend, ← hactive, ← hdraws]

theorem DrainFrame.closePeriod (t : State) (w : Nat) : DrainFrame t (t.closePeriod w) := by
  constructor <;> simp

/-- Turning the line writes the direction and appends events (R196, R197). -/
theorem State.duplexToTx_eq (s : State) :
    s.duplexToTx = { s with lineDir := s.duplexToTx.lineDir, events := s.duplexToTx.events } := by
  unfold State.duplexToTx; split <;> rfl

theorem State.duplexToRx_eq (s : State) :
    s.duplexToRx = { s with lineDir := s.duplexToRx.lineDir, events := s.duplexToRx.events } := by
  unfold State.duplexToRx; split <;> rfl

/-! ### Commands with several outcomes -/

theorem execFifoPopBytes_written {n : BitVec 16} {s t : State} (he : execFifoPopBytes n s = .next t) :
    t = writtenBy .fifoPopBytes s t := by
  obtain ⟨_, rfl⟩ | ⟨_, rfl⟩ := execFifoPopBytes_cases he <;> rfl

theorem execRxByte_written {b : Byte} {s t : State} (h : s.Inv) (he : execRxByte b s = .next t) : t = writtenBy .rxByte s t := by
  obtain hx | ⟨p, _, hx⟩ | ⟨_, _, _, hx⟩ := execRxByte_cases b h.cfg h.parser <;> rw [hx] at he <;> cases he
  · rfl
  · rfl
  · rw [State.finishFrame_spec]; split <;> rfl

theorem execTxDrain_written {s t : State} (h : s.Inv) (he : execTxDrain s = .next t) : t = writtenBy .txDrain s t := by
  obtain ⟨u, bytes, broken, hrun, _, hx⟩ := execTxDrain_run h.fifoCap_le h.ring h.drain
  rw [hx] at he; cases he
  rw [(hrun.frame.trans (DrainFrame.closePeriod u bytes.length)).eq_update]
  rfl

theorem execWdtTick_written {now : Word32} {s t : State} (h : s.Inv) (he : execWdtTick now s = .next t) :
    t = writtenBy .wdtTick s t := by
  obtain ⟨_, hx⟩ | ⟨_, _, hx⟩ | ⟨_, _, p, k, _, _, _, _, hx⟩ := execWdtTick_cases now h.cfg h.wdt <;>
    rw [hx] at he <;> cases he
  · rfl
  · rfl
  · rw [State.rotate_spec]; rfl

theorem execWdtSetInterval_written {us : Word32} {s t : State} (h : s.Inv) (he : execWdtSetInterval us s = .next t) :
    t = writtenBy .wdtSetInterval s t := by
  obtain ⟨_, hx⟩ | ⟨_, _, p, k, _, _, _, hx⟩ := execWdtSetInterval_cases us h.cfg h.wdt <;> rw [hx] at he <;> cases he
  · rfl
  · simp [writtenBy, Watchdog.withBudget, State.ok, State.respond]

/-- Every command's next state is the old one outside what its rule writes. -/
theorem exec_written {i : Instr} {s t : State} (h : s.Inv) (he : exec i s = .next t) : t = writtenBy i.op s t := by
  cases i with
  | fifoPush b | fifoPushBytes d | fifoFlush => cases he; rfl
  | fifoPop =>
    cases he
    simp only [Instr.op, writtenBy, State.ok_ring, Ring.with_mem_eq (Ring.pop_mem _ _)]; rfl
  | fifoPopBytes n => exact execFifoPopBytes_written he
  | fifoEnsure n =>
    cases he
    simp only [Instr.op, writtenBy, State.ok_ring, State.emits_ring, Ring.with_mem_eq (Ring.ensure_mem h.fifoCap_le h.ring)]; rfl
  | rxByte b => exact execRxByte_written h he
  | txSendSimple addr typ d => exact (execTxSendSimple_built he).written
  | txSendExt addr typ dest orig d => exact (execTxSendExt_built he).written
  | txSendRaw d => exact (execTxSendRaw_built h.cfg he).written
  | txDrain => exact execTxDrain_written h he
  | wdtTick now => exact execWdtTick_written h he
  | wdtSetInterval us => exact execWdtSetInterval_written h he
  | wdtRdBaud => rw [exec, execWdtRdBaud_ok h.wdt] at he; cases he; rfl
  | duplexTx => cases he; rw [State.duplexToTx_eq]; rfl
  | duplexRx => cases he; rw [State.duplexToRx_eq]; rfl
  | fifoPeek | fifoSize | crcByte b seed | crcBuf seed d | wdtRdBudget | sysLock | sysUnlock | sysRdGood | sysRdBad
  | sysRdStatus | sysStop => cases he; rfl

end Sys2Proof.Machine

section

open Sys2Proof.Machine

/-- Settles O22: `exec_written` names what each opcode may write, and each clause is read off it opcode by opcode. -/
theorem writersOfRegisters : Obligations.WritersOfRegisters := by
  intro i s t h he
  have hw := exec_written h he
  generalize i.op = o at hw ⊢
  rw [hw]
  cases o <;> simp [writtenBy]

end
end

section
/-! PROOFS. The framing invariant (R28): `fifo_ensure` and the drain take whole entries from the head of a well-framed queue, a builder adds
one entry at its tail, and every flush leaves no entry. -/

namespace Sys2Proof.Machine

/-! ### Entries of a well-framed ring -/

/-- The framing invariant (R28) of a ring buffer alone: `State.framedAs` without the rest of the state. -/
abbrev Ring.framedAs (C : Nat) (r : Ring) (es : List (List Byte)) : Prop :=
  r.queue C = wireOf es ∧ ∀ e ∈ es, e.length ≤ 255

@[simp] theorem wireOf_nil : wireOf [] = [] := rfl

theorem wireOf_cons (e : List Byte) (es : List (List Byte)) : wireOf (e :: es) = queueEntry e ++ wireOf es := by
  simp [wireOf, queueEntry]

theorem wireOf_append (es fs : List (List Byte)) : wireOf (es ++ fs) = wireOf es ++ wireOf fs := by
  simp [wireOf]

/-- A flushed queue is framed, with none of the entries left. -/
theorem Ring.framedAs_flush (C : Nat) (r : Ring) (es : List (List Byte)) : r.flush.framedAs C (es.drop es.length) := by
  rw [List.drop_length]
  exact ⟨rfl, nofun⟩

/-- On a well-framed queue that is not empty the head is a whole entry (R28), and dropping it leaves the entries behind it. -/
theorem Ring.skipEntry_framed {C : Nat} {r : Ring} {es : List (List Byte)} (hC : C ≤ 256) (h : r.ok C) (hc : r.count ≠ 0)
    (hf : r.framedAs C es) :
    ∃ e es' r', es = e :: es' ∧ r.skipEntry C = some r' ∧ (r.pop C).1.toNat = e.length ∧ r'.framedAs C es' := by
  obtain ⟨hq, hle⟩ := hf
  rw [Ring.queue_eq_cons hC h hc] at hq
  cases es with
  | nil => simp at hq
  | cons e es =>
    rw [wireOf_cons, queueEntry, List.cons_append, List.cons.injEq] at hq
    obtain ⟨hlen, hrest⟩ := hq
    have hL : (r.pop C).1.toNat = e.length := by
      have := hle e List.mem_cons_self
      rw [hlen, BitVec.toNat_ofNat]; omega
    have hcount : (r.pop C).2.count.toNat = e.length + (wireOf es).length := by
      rw [← Ring.length_queue C, hrest, List.length_append]
    refine ⟨e, es, _, rfl, by rw [Ring.skipEntry, if_neg (by omega)], hL, ?_, fun x hx => hle x (List.mem_cons_of_mem e hx)⟩
    rw [Ring.queue_drop hC (Ring.ok_pop hC h), hrest, hL, List.drop_left]

/-- A frame pushed as one entry follows the entries queued, or does not fit and empties the queue (R113, R161). -/
theorem Ring.pushBytes_framed {C : Nat} {r : Ring} {es : List (List Byte)} {f : List Byte} (hC : C ≤ 256) (h : r.ok C)
    (hf : r.framedAs C es) (hlen : f.length ≤ 255) :
    (r.pushBytes C (queueEntry f)).framedAs C (es.drop es.length) ∨ (r.pushBytes C (queueEntry f)).framedAs C (es ++ [f]) := by
  obtain ⟨hq, hle⟩ := hf
  by_cases hfit : C < r.count.toNat + (queueEntry f).length
  · rw [Ring.pushBytes, if_pos hfit]
    exact .inl (Ring.framedAs_flush C r es)
  · refine .inr ⟨?_, fun e he => ?_⟩
    · rw [Ring.queue_pushBytes _ hC h, if_neg hfit, hq, wireOf_append, wireOf_cons, wireOf_nil, List.append_nil]
    · obtain he | he := List.mem_append.1 he
      · exact hle e he
      · rw [List.mem_singleton.1 he]; exact hlen

/-- The loop of R118 drops whole entries, the oldest first. -/
theorem Ring.ensureLoop_framed {C n : Nat} {r : Ring} {es : List (List Byte)} (hC : C ≤ 256) (hn : n ≤ C) (h : r.ok C)
    (hf : r.framedAs C es) : ∃ k, (Ring.ensureLoop C n r.count.toNat r).1.framedAs C (es.drop k) := by
  induction es generalizing r with
  | nil =>
    have hempty : r.count.toNat = 0 := by rw [← Ring.length_queue C, hf.1]; rfl
    exact ⟨0, by rw [Ring.ensureLoop_done (by omega)]; exact hf⟩
  | cons e es ih =>
    rw [Ring.ensureLoop_spec hn]
    split
    · have hc : r.count ≠ 0 := Ring.count_ne_zero.2 (by omega)
      obtain ⟨_, _, r', heq, hs, _, hf'⟩ := Ring.skipEntry_framed hC h hc hf
      cases heq
      obtain ⟨k, hk⟩ := ih (Ring.ok_skipEntry hC h hs) hf'
      exact ⟨k + 1, by rw [hs]; exact hk⟩
    · exact ⟨0, hf⟩

theorem Ring.ensure_framed {C n : Nat} {r : Ring} {es : List (List Byte)} (hC : C ≤ 256) (h : r.ok C)
    (hf : r.framedAs C es) : ∃ k, (r.ensure C n).2.1.framedAs C (es.drop k) := by
  unfold Ring.ensure
  split
  · exact ⟨0, hf⟩
  · next hn => exact Ring.ensureLoop_framed hC (Nat.le_of_not_lt hn) h hf

/-! ### The drain -/

/-- What the loop of R166 keeps on a well-framed queue. -/
structure FramedDrain (s : State) (es : List (List Byte)) : Prop where
  cap : s.cfg.fifoCap ≤ 256
  ring : s.ring.ok s.cfg.fifoCap
  drain : s.drain.ok
  framed : s.framedAs es

/-- The head of the loop finds nothing to do, the entry in progress, or the next whole entry, which leaves the queue; on a well-framed
queue it finds no broken one. -/
theorem FramedDrain.startEntry {s : State} {es : List (List Byte)} (h : FramedDrain s es) :
    s.startEntry = .idle ∨ ∃ t k, s.startEntry = .entry t ∧ FramedDrain t (es.drop k) := by
  obtain ⟨hC, hr, hd, hf⟩ := h
  rcases State.startEntry_cases hC hr hd with ⟨_, he⟩ | ⟨_, _, he⟩ | ⟨_, hc, hbroken, _⟩ | ⟨_, hc, r, d, he, hs, hdo, _⟩
  · exact .inr ⟨s, 0, he, hC, hr, hd, hf⟩
  · exact .inl he
  · obtain ⟨_, _, _, _, hs, _⟩ := Ring.skipEntry_framed hC hr hc hf
    rw [hbroken] at hs; cases hs
  · obtain ⟨e, es', r', rfl, hs', _, hf'⟩ := Ring.skipEntry_framed hC hr hc hf
    obtain rfl : r = r' := Option.some.inj (hs.symm.trans hs')
    exact .inr ⟨_, 1, he, hC, Ring.ok_skipEntry hC hr hs, hdo, hf'⟩

/-- Writing a chunk of the entry in progress does not touch the queue. -/
theorem FramedDrain.writeChunk {s : State} {es : List (List Byte)} (h : FramedDrain s es) {w : Nat} (first : Bool)
    (hw : w ≤ s.drain.rem.toNat) : FramedDrain (s.writeChunk w first) es := by
  obtain ⟨hC, hr, hd, hf⟩ := h
  obtain ⟨_, hd', _⟩ := State.writeChunk_inProgress first hd hw
  refine ⟨?_, ?_, hd', ?_⟩
  all_goals simp only [State.framedAs, State.writeChunk_cfg, State.writeChunk_ring]
  exacts [hC, hr, hf]

/-- A drain leaves the youngest of the entries, whole, in the queue. -/
theorem drainLoop_framed {B fuel R written : Nat} {s : State} {es : List (List Byte)} (h : FramedDrain s es) :
    ∃ k, (drainLoop B fuel R written s).1.framedAs (es.drop k) := by
  induction fuel generalizing R written s es with
  | zero => exact ⟨0, h.framed⟩
  | succ fuel ih =>
    by_cases hR : R = 0
    · rw [drainLoop, if_pos hR]; exact ⟨0, h.framed⟩
    rw [drainLoop_unfold hR]
    rcases h.startEntry with he | ⟨t, k, he, ht⟩
    · rw [he]; exact ⟨0, h.framed⟩
    · rw [he]
      have later : ∀ {u : State}, (∃ j, u.framedAs ((es.drop k).drop j)) → ∃ j, u.framedAs (es.drop j) :=
        fun ⟨j, hj⟩ => ⟨k + j, by rwa [← List.drop_drop]⟩
      dsimp only
      split
      · exact later (ih ht)
      · split
        · exact ⟨k, ht.framed⟩
        · exact later (ih (ht.writeChunk _ (Nat.min_le_left ..)))

theorem execTxDrain_framed {s t : State} {es : List (List Byte)} (h : s.Inv) (hf : s.framedAs es)
    (he : execTxDrain s = .next t) : ∃ k, t.framedAs (es.drop k) := by
  obtain ⟨u, bytes, _, _, hu, hx⟩ := execTxDrain_run h.fifoCap_le h.ring h.drain
  obtain ⟨k, hk⟩ := drainLoop_framed (B := s.wdt.maxPeriod.toNat) (fuel := s.ring.count.toNat + s.wdt.maxPeriod.toNat + 1)
    (R := s.wdt.maxPeriod.toNat) (written := 0) ⟨h.fifoCap_le, h.ring, h.drain, hf⟩
  rw [← hu] at hk
  rw [hx] at he; cases he
  refine ⟨k, ?_⟩
  simpa only [State.framedAs, State.ok_ring, State.ok_cfg, State.closePeriod_ring, State.closePeriod_cfg] using hk

/-! ### The other commands -/

/-- A command that writes no register of the queue leaves its framing alone. -/
theorem exec_framed_of_not_mem_queueWriters {i : Instr} {s t : State} {es : List (List Byte)} (h : s.Inv) (hf : s.framedAs es)
    (he : exec i s = .next t) (hw : i.op ∉ queueWriters) : ∃ k, t.framedAs (es.drop k) := by
  refine ⟨0, ?_⟩
  rw [State.framedAs, exec_written h he, writtenBy_ring hw, writtenBy_cfg]
  exact hf

theorem execWdtTick_framed {now : Word32} {s t : State} {es : List (List Byte)} (h : s.Inv) (hf : s.framedAs es)
    (he : execWdtTick now s = .next t) : ∃ k, t.framedAs (es.drop k) := by
  obtain ⟨_, hx⟩ | ⟨_, _, hx⟩ | ⟨_, _, p, k, _, _, _, _, hx⟩ := execWdtTick_cases now h.cfg h.wdt <;>
    rw [hx] at he <;> cases he
  · exact ⟨0, hf⟩
  · exact ⟨0, hf⟩
  · rw [State.rotate_spec]
    exact ⟨_, Ring.framedAs_flush _ s.ring es⟩

/-- A builder drops its frame, or queues it as one entry, or empties a queue that has no room for it. -/
theorem Built.framed {i : Instr} {s t : State} {es : List (List Byte)} (h : s.Inv) (hf : s.framedAs es)
    (hop : i.op ∈ [.txSendSimple, .txSendExt, .txSendRaw]) (hb : Built i.data s t) :
    (∃ k, t.framedAs (es.drop k)) ∨
      ∃ f : List Byte, i.op ∈ [.txSendSimple, .txSendExt, .txSendRaw] ∧ i.data <:+: f ∧ t.framedAs (es ++ [f]) := by
  generalize i.data = d at hb ⊢
  cases hb with
  | dropped => exact .inl ⟨0, hf⟩
  | queued f hlen hd =>
    obtain hflush | hentry := Ring.pushBytes_framed h.fifoCap_le h.ring hf hlen
    · exact .inl ⟨_, hflush⟩
    · exact .inr ⟨f, hop, hd, hentry⟩

end Sys2Proof.Machine

section

open Sys2Proof Sys2Proof.Machine

/-- Settles O33: a builder adds one entry or none; every other command takes whole entries from the head, all of them, or none. -/
theorem framingKept : Obligations.FramingKept := by
  intro s t es i h hf he hbare
  cases i with
  | fifoPush b | fifoPushBytes d | fifoPop | fifoPopBytes n => simp [Instr.op] at hbare
  | txSendSimple addr typ d => exact (execTxSendSimple_built he).framed h hf (by simp [Instr.op])
  | txSendExt addr typ dest orig d => exact (execTxSendExt_built he).framed h hf (by simp [Instr.op])
  | txSendRaw d => exact (execTxSendRaw_built h.cfg he).framed h hf (by simp [Instr.op])
  | fifoFlush | sysStop => cases he; exact .inl ⟨_, Ring.framedAs_flush _ s.ring es⟩
  | fifoEnsure n => cases he; exact .inl (Ring.ensure_framed h.fifoCap_le h.ring hf)
  | txDrain => exact .inl (execTxDrain_framed h hf he)
  | wdtTick now => exact .inl (execWdtTick_framed h hf he)
  | fifoPeek | fifoSize | crcByte b seed | crcBuf seed d | rxByte b | wdtSetInterval us | wdtRdBudget | wdtRdBaud | duplexTx
  | duplexRx | sysLock | sysUnlock | sysRdGood | sysRdBad | sysRdStatus =>
    exact .inl (exec_framed_of_not_mem_queueWriters h hf he (by simp [Instr.op, queueWriters]))

end
end

section
/-! PROOFS. Responses (R86): every command gives exactly one, on the port it came from. -/

namespace Sys2Proof.Machine

/-- What R86 allows as the response of a command of opcode `o`. -/
structure Response.Allowed (o : Op) (x : Response) : Prop where
  data : x.data ≠ [] → o = .fifoPopBytes
  legal : x.status ≠ .illegal
  refused : x.status = .refused → o = .wdtSetInterval
  value : Claims.givesValue o = false → x.value = 0

/-- From `s` to `t` a command of opcode `o` gave one response, on the active port. -/
def Answered (o : Op) (s t : State) : Prop :=
  ∃ x : Response, x.Allowed o ∧ t.resp = s.resp.set s.active (s.resp.get s.active ++ [x])

/-- A response after updates that leave the responses alone is the one response. -/
theorem Answered.of_respond {o : Op} {s u : State} {st : Status} {v : Word32} {d : List Byte} (hresp : u.resp = s.resp)
    (hactive : u.active = s.active) (hx : Response.Allowed o ⟨st, v, d⟩) : Answered o s (u.respond st v d) :=
  ⟨_, hx, by rw [State.respond_resp, hresp, hactive]⟩

theorem Answered.of_ok {o : Op} {s u : State} {v : Word32} (hresp : u.resp = s.resp) (hactive : u.active = s.active)
    (hv : Claims.givesValue o = false → v = 0) : Answered o s (u.ok v) :=
  .of_respond hresp hactive ⟨(absurd rfl ·), nofun, nofun, hv⟩

theorem execFifoPopBytes_answered {n : BitVec 16} {s t : State} (he : execFifoPopBytes n s = .next t) :
    Answered .fifoPopBytes s t := by
  obtain ⟨_, rfl⟩ | ⟨_, rfl⟩ := execFifoPopBytes_cases he
  all_goals exact .of_respond rfl rfl ⟨fun _ => rfl, nofun, nofun, fun _ => rfl⟩

theorem State.finishFrame_answered (s : State) : Answered .rxByte s s.finishFrame := by
  unfold State.finishFrame
  split
  · exact .of_ok (by simp) (by simp) nofun
  · exact .of_ok rfl rfl nofun

theorem execRxByte_answered {b : Byte} {s t : State} (h : s.Inv) (he : execRxByte b s = .next t) : Answered .rxByte s t := by
  obtain hx | ⟨p, _, hx⟩ | ⟨_, _, _, hx⟩ := execRxByte_cases b h.cfg h.parser <;> rw [hx] at he <;> cases he
  · exact .of_ok rfl rfl nofun
  · exact .of_ok rfl rfl nofun
  · exact State.finishFrame_answered { s with parser := s.parser.store b }

theorem execTxDrain_answered {s t : State} (h : s.Inv) (he : execTxDrain s = .next t) : Answered .txDrain s t := by
  obtain ⟨u, bytes, broken, hrun, _, hx⟩ := execTxDrain_run h.fifoCap_le h.ring h.drain
  rw [hx] at he; cases he
  have hframe := hrun.frame.trans (DrainFrame.closePeriod u bytes.length)
  exact .of_ok hframe.resp hframe.active nofun

theorem execWdtTick_answered {now : Word32} {s t : State} (h : s.Inv) (he : execWdtTick now s = .next t) :
    Answered .wdtTick s t := by
  obtain ⟨_, hx⟩ | ⟨_, _, hx⟩ | ⟨_, _, p, k, _, _, _, _, hx⟩ := execWdtTick_cases now h.cfg h.wdt <;>
    rw [hx] at he <;> cases he
  · exact .of_ok rfl rfl nofun
  · exact .of_ok rfl rfl nofun
  · exact .of_ok (by simp) (by simp) nofun

theorem execWdtSetInterval_answered {us : Word32} {s t : State} (h : s.Inv) (he : execWdtSetInterval us s = .next t) :
    Answered .wdtSetInterval s t := by
  obtain ⟨_, hx⟩ | ⟨_, _, p, k, _, _, _, hx⟩ := execWdtSetInterval_cases us h.cfg h.wdt <;> rw [hx] at he <;> cases he
  · exact .of_respond rfl rfl ⟨(absurd rfl ·), nofun, fun _ => rfl, fun _ => rfl⟩
  · exact .of_ok rfl rfl fun _ => rfl

theorem Built.answered {o : Op} {d : List Byte} {s t : State} (hb : Built d s t) (ho : Claims.givesValue o = true) :
    Answered o s t := by
  cases hb <;> exact .of_ok rfl rfl (by simp [ho])

/-- Every command gives one response that R86 allows. -/
theorem exec_answered {i : Instr} {s t : State} (h : s.Inv) (he : exec i s = .next t) : Answered i.op s t := by
  cases i with
  | fifoPopBytes n => exact execFifoPopBytes_answered he
  | rxByte b => exact execRxByte_answered h he
  | txSendSimple addr typ d => exact (execTxSendSimple_built he).answered rfl
  | txSendExt addr typ dest orig d => exact (execTxSendExt_built he).answered rfl
  | txSendRaw d => exact (execTxSendRaw_built h.cfg he).answered rfl
  | txDrain => exact execTxDrain_answered h he
  | wdtTick now => exact execWdtTick_answered h he
  | wdtSetInterval us => exact execWdtSetInterval_answered h he
  | wdtRdBaud => rw [exec, execWdtRdBaud_ok h.wdt] at he; cases he; exact .of_ok rfl rfl nofun
  | duplexTx | duplexRx => cases he; exact .of_ok (by simp) (by simp) fun _ => rfl
  | fifoPop | fifoPeek | fifoSize | fifoEnsure n | crcByte b seed | crcBuf seed d | wdtRdBudget | sysRdGood | sysRdBad
  | sysRdStatus => cases he; exact .of_ok rfl rfl nofun
  | fifoPush b | fifoPushBytes d | fifoFlush | sysLock | sysUnlock | sysStop => cases he; exact .of_ok rfl rfl fun _ => rfl

/-- A port that takes an illegal command or executes a command loses a word and its beats, and gets one response (R70, R85 to R87). -/
theorem Took.served {p : Port} {v t : State} (h : v.Inv) (ht : Took p v t) :
    ∃ (w : CmdWord) (d : List Byte) (rest : List PortItem) (x : Response), v.pend.get p = .word w :: (d.map .beat ++ rest) ∧
      t.pend = v.pend.set p rest ∧ t.resp = v.resp.set p (v.resp.get p ++ [x]) := by
  obtain ⟨w, rest, hw, _, rfl⟩ | ⟨i, rest, hd, _, he⟩ := ht
  · exact ⟨w, [], rest, _, hw, rfl, rfl⟩
  · obtain ⟨w, _, d, hw, _⟩ := decode_ok hd
    have hserve := State.Inv_serve p rest h
    obtain ⟨x, _, hresp⟩ := exec_answered hserve he
    obtain ⟨_, hpend, _⟩ := writersOfRegisters _ _ _ hserve he
    exact ⟨w, d, rest, x, hw, hpend, hresp⟩

end Sys2Proof.Machine

section

open Sys2Proof Sys2Proof.Machine

/-- Settles O14: the selected port is served as `Took.served` says, of what it presents or of what that is misread as. -/
theorem portOrderKept : Obligations.PortOrderKept := by
  intro s t h he
  obtain rfl | ⟨p, u, hs, hcase⟩ := step_cases he
  · exact .inl rfl
  have hu := State.Inv_select h hs
  refine .inr ⟨p, State.selectPort_ready hs, ?_⟩
  rw [← State.selectPort_pend hs, ← State.selectPort_resp hs]
  obtain htook | ⟨hbeat, rfl | htook⟩ := hcase
  · obtain ⟨w, d, rest, x, hw, hpend, hresp⟩ := htook.served hu
    rw [hpend, hresp]
    exact ⟨fun q hq => by simp [hq], .inl ⟨w, d, x, by simpa using hw, by simp⟩⟩
  · exact ⟨fun q hq => ⟨State.misread_pend_ne u hq, rfl⟩, .inr ⟨State.selectPort_pend hs ▸ hbeat, [], by simp, by simp⟩⟩
  · obtain ⟨_, _, rest, x, _, hpend, hresp⟩ := htook.served (State.Inv_misread p hu)
    rw [hpend, hresp]
    exact ⟨fun q hq => by simp [hq, State.misread_pend_ne], .inr ⟨State.selectPort_pend hs ▸ hbeat, [x], by simp, by simp⟩⟩

end
end

section
/-! PROOFS. Which port is ready, and which is selected (R70, R71). -/

namespace Sys2Proof

/-- The fields of every command's own word and beats are its operands. -/
theorem Instr.word_roundTrip : ∀ i : Instr, Laws.WordRoundTrip.Statement i
  | .fifoPush b => Laws.WordRoundTrip.fifoPush b
  | .fifoPushBytes d => Laws.WordRoundTrip.fifoPushBytes d
  | .fifoPop => Laws.WordRoundTrip.fifoPop
  | .fifoPopBytes n => Laws.WordRoundTrip.fifoPopBytes n
  | .fifoPeek => Laws.WordRoundTrip.fifoPeek
  | .fifoSize => Laws.WordRoundTrip.fifoSize
  | .fifoFlush => Laws.WordRoundTrip.fifoFlush
  | .fifoEnsure n => Laws.WordRoundTrip.fifoEnsure n
  | .crcByte b seed => Laws.WordRoundTrip.crcByte b seed
  | .crcBuf seed d => Laws.WordRoundTrip.crcBuf seed d
  | .rxByte b => Laws.WordRoundTrip.rxByte b
  | .txSendSimple addr typ d => Laws.WordRoundTrip.txSendSimple addr typ d
  | .txSendExt addr typ dest orig d => Laws.WordRoundTrip.txSendExt addr typ dest orig d
  | .txSendRaw d => Laws.WordRoundTrip.txSendRaw d
  | .txDrain => Laws.WordRoundTrip.txDrain
  | .wdtTick t => Laws.WordRoundTrip.wdtTick t
  | .wdtSetInterval t => Laws.WordRoundTrip.wdtSetInterval t
  | .wdtRdBudget => Laws.WordRoundTrip.wdtRdBudget
  | .wdtRdBaud => Laws.WordRoundTrip.wdtRdBaud
  | .duplexTx => Laws.WordRoundTrip.duplexTx
  | .duplexRx => Laws.WordRoundTrip.duplexRx
  | .sysLock => Laws.WordRoundTrip.sysLock
  | .sysUnlock => Laws.WordRoundTrip.sysUnlock
  | .sysRdGood => Laws.WordRoundTrip.sysRdGood
  | .sysRdBad => Laws.WordRoundTrip.sysRdBad
  | .sysRdStatus => Laws.WordRoundTrip.sysRdStatus
  | .sysStop => Laws.WordRoundTrip.sysStop

/-- The decoder reads a well-formed command back from its word and beats, whatever follows them (R81, R82, R85). -/
theorem decode_encode {i : Instr} (h : i.wf) (rest : List PortItem) : decode (encode i ++ rest) = .ok (i, rest) := by
  obtain ⟨hbuild, hbeats⟩ := i.word_roundTrip h
  simp only [encode, List.cons_append, decode, Instr.word_op, Op.ofCode_code, hbeats, takeBeats_map, hbuild]

end Sys2Proof

namespace Sys2Proof.Machine

/-! ### Readiness -/

/-- While `lock = 1` only port M can be ready (R71). -/
theorem State.ready_eq_false_of_lock {s : State} {p : Port} (hl : s.lock = true) (hp : p ≠ .m) : s.ready p = false := by
  simp [State.ready, State.held, hl, hp]

/-- Port M is never held (R71). -/
theorem State.held_eq_false {s : State} {p : Port} (h : s.lock = false ∨ p = .m) : s.held p = false := by
  obtain hl | rfl := h
  · simp [State.held, hl]
  · simp [State.held]

theorem State.ready_eq_false_of_pend_nil {s : State} {p : Port} (h : s.pend.get p = []) : s.ready p = false := by
  simp [State.ready, h, presented]

/-- A port that is not held is ready with a complete legal command. -/
theorem State.ready_of_command {s : State} {p : Port} {i : Instr} {rest : List PortItem} (hheld : s.held p = false)
    (hd : decode (s.pend.get p) = .ok (i, rest)) (ha : i.op.accepts p = true) : s.ready p = true := by
  simp [State.ready, hheld, presented_command hd ha]

/-! ### Selection -/

theorem State.selectPort_eq_none {s : State} : s.selectPort = none ↔ s.readyPorts = [] := by
  unfold State.selectPort
  split <;> simp_all

/-- The one ready port is selected, and nothing is drawn. -/
theorem State.selectPort_of_only {s : State} {p : Port} (hp : s.ready p = true) (hq : ∀ q, q ≠ p → s.ready q = false) :
    s.selectPort = some (p, s) := by
  have hports : s.readyPorts = [p] := by
    cases p <;> simp [State.readyPorts, hp, hq]
  simp [State.selectPort, hports]

/-! ### Steps -/

/-- A selected port that presents a command runs it. -/
theorem step_of_command {s t : State} {p : Port} {i : Instr} {rest : List PortItem} (hs : s.selectPort = some (p, t))
    (hd : decode (s.pend.get p) = .ok (i, rest)) (ha : i.op.accepts p = true) : step s = exec i (t.serve p rest) := by
  have hc : presented p (t.pend.get p) = .command i rest := by
    rw [State.selectPort_pend hs]; exact presented_command hd ha
  simp only [step, State.runStep, hs, State.runPort, State.runPresented, hc]

end Sys2Proof.Machine

section

open Sys2Proof Sys2Proof.Machine

/-- Settles O9: the list of ready ports has no entry, one, or several, and `selectPort` reads it accordingly. -/
theorem arbitration : Obligations.Arbitration := by
  refine ⟨fun s => ?_, fun s t p hs => ⟨State.selectPort_ready hs, State.selectPort_eq hs⟩,
    fun s p hp hq => State.selectPort_of_only hp hq, fun s p => ?_, fun s hs => State.selectPort_several hs⟩
  · simp only [State.selectPort_eq_none, List.eq_nil_iff_forall_not_mem, State.mem_readyPorts, Bool.not_eq_true]
  · rw [← State.mem_readyPorts, List.mem_iff_getElem?]
    exact exists_congr fun k => ⟨fun hk => ⟨(List.getElem?_eq_some_iff.1 hk).1, hk⟩, And.right⟩

/-- Settles O10: the selected port runs what the decoder reads there, and with the other ports empty no other port is ready. -/
theorem stepRunsDecoded : Obligations.StepRunsDecoded := by
  refine ⟨fun s t p i rest hs hd ha => ?_, fun s p i rest hd ha hfree hempty => ?_⟩
  · rw [step_of_command hs hd ha, State.serve]
  · have hready := State.ready_of_command (State.held_eq_false hfree) hd ha
    exact step_of_command (State.selectPort_of_only hready fun q hq => State.ready_eq_false_of_pend_nil (hempty q hq)) hd ha

/-- Settles O13: a held port is not ready, so a step serves another port; only three commands write `lock`, and `SYS.LOCK` sets it. -/
theorem guardHoldsPorts : Obligations.GuardHoldsPorts := by
  refine ⟨fun s t p h hl hp he => ?_, fun s p hl hp => State.ready_eq_false_of_lock hl hp, fun s l => ?_,
    fun i s t h hl he ht => ?_, fun s p i rest hwf hpend ha hl => ?_⟩
  · obtain rfl | ⟨q, hq, hothers, _⟩ := portOrderKept s t h he
    · exact ⟨rfl, rfl⟩
    · refine hothers p ?_
      rintro rfl
      simp [State.ready_eq_false_of_lock hl hp] at hq
  · simp [State.ready, State.held]
  · obtain ⟨_, _, _, hlock, _⟩ := writersOfRegisters i s t h he
    cases i with
    | sysUnlock => exact .inl rfl
    | sysStop => exact .inr rfl
    | sysLock => cases he; cases ht
    | _ => rw [hlock (by simp [Instr.op]), hl] at ht; cases ht
  · exact State.ready_of_command (State.held_eq_false (.inl hl)) (hpend ▸ decode_encode hwf rest) ha

end
end

section
/-! PROOFS. What a command of port A or port R can write, in every state (R72). -/

namespace Sys2Proof.Machine

theorem Built.events {d : List Byte} {s t : State} (h : Built d s t) :
    t.events = s.events ∨ t.events = s.events ++ [.txDrop] := by
  cases h with
  | dropped => exact .inr rfl
  | queued f => exact .inl rfl

theorem State.finishFrame_frame (s : State) : s.finishFrame = { s with
    parser := s.finishFrame.parser, link := s.finishFrame.link, events := s.finishFrame.events, resp := s.finishFrame.resp } := by
  rw [State.finishFrame_spec]
  split <;> rfl

/-- A step in `ReadBody` resets the parser, stores a byte, or ends a frame. -/
theorem State.readBodyStep_frame {b : Byte} {s t : State} (he : s.readBodyStep b = .next t) :
    t = { s with parser := t.parser, link := t.link, events := t.events, resp := t.resp } := by
  unfold State.readBodyStep at he
  split at he
  · cases he; rfl
  split at he
  · cases he
  dsimp only at he
  split at he <;> cases he
  · rw [State.finishFrame_frame]
  · rfl

/-- `RX.BYTE` writes the parser, the link, the events and the responses alone. -/
theorem execRxByte_frame {b : Byte} {s t : State} (he : execRxByte b s = .next t) :
    t = { s with parser := t.parser, link := t.link, events := t.events, resp := t.resp } := by
  unfold execRxByte at he
  split at he
  · cases he; rfl
  split at he
  · cases he; rfl
  · cases he; rfl
  · exact State.readBodyStep_frame he

end Sys2Proof.Machine

section

open Sys2Proof Sys2Proof.Machine

/-- Settles O21: the seven commands of port A each answer, some after a write of the queue or a dropped frame; `RX.BYTE`, alone on
port R, is a step of the parser. -/
theorem contextRights : Obligations.ContextRights := by
  refine ⟨fun i s t ha he => ?_, fun i s t ha he => ?_⟩
  · cases i with
    | fifoPush b | fifoPushBytes d | crcByte b seed | crcBuf seed d => cases he; exact ⟨rfl, .inl rfl⟩
    | txSendSimple addr typ d => exact ⟨(execTxSendSimple_built he).written, (execTxSendSimple_built he).events⟩
    | txSendExt addr typ dest orig d => exact ⟨(execTxSendExt_built he).written, (execTxSendExt_built he).events⟩
    | txSendRaw d =>
      rw [exec, execTxSendRaw] at he
      split at he <;> cases he
      · exact ⟨rfl, .inl rfl⟩
      · exact ⟨rfl, .inr rfl⟩
    | _ => simp [Instr.op, Op.accepts] at ha
  · cases i with
    | rxByte b => exact execRxByte_frame he
    | _ => simp [Instr.op, Op.accepts] at ha

end
end

section
/-! PROOFS. Commands as words and beats (R81 to R85): a decoded command's own word is the presented word without its unnamed bits, so the
decoder never sees those. -/

namespace Sys2Proof

/-! ### The named bits of a word (R82) -/

/-- The immediate of `w` with the bits format `f` does not name cleared, laid out as R82 lays out the format's fields. -/
def Format.namedImm (f : Format) (w : CmdWord) : BitVec 40 :=
  match f with
  | .n => 0
  | .b => (0 : BitVec 32) ++ CmdWord.byte0 w
  | .bs => (0 : BitVec 24) ++ (CmdWord.byte1 w ++ CmdWord.byte0 w)
  | .l | .s => (0 : BitVec 24) ++ CmdWord.n16 w
  | .ss => (0 : BitVec 16) ++ (CmdWord.byte2 w ++ CmdWord.n16 w)
  | .f1 => CmdWord.n8 w ++ ((0 : BitVec 16) ++ (CmdWord.byte1 w ++ CmdWord.byte0 w))
  | .f2 => CmdWord.n8 w ++ (CmdWord.byte3 w ++ (CmdWord.byte2 w ++ (CmdWord.byte1 w ++ CmdWord.byte0 w)))
  | .t => (0 : BitVec 8) ++ CmdWord.t32 w

/-- The `n` bits of `w` from bit `k` on, under `mask`, are `field`. -/
def Masked (w : CmdWord) (k n : Nat) (mask field : BitVec n) : Prop := w.extractLsb' k n &&& mask = field

/-- A field the mask keeps. -/
theorem Masked.ones (w : CmdWord) (k n : Nat) : Masked w k n (BitVec.allOnes n) (w.extractLsb' k n) := BitVec.and_allOnes

/-- A field the mask clears. -/
theorem Masked.zeros (w : CmdWord) (k n : Nat) : Masked w k n 0 0 := BitVec.and_zero

/-- Two fields that meet at bit `j`, each under its own mask. -/
theorem Masked.append {w : CmdWord} {j k n m : Nat} {hi x : BitVec n} {lo y : BitVec m} (hhi : Masked w j n hi x)
    (hlo : Masked w k m lo y) (hj : j = k + m := by rfl) : Masked w k (n + m) (hi ++ lo) (x ++ y) := by
  unfold Masked at *
  rw [← hhi, ← hlo, ← BitVec.and_append, BitVec.extractLsb'_append_extractLsb'_eq_extractLsb' hj]

theorem Masked.whole {w mask x : CmdWord} (h : Masked w 0 48 mask x) : w &&& mask = x := by
  rwa [Masked, BitVec.extractLsb'_eq_self] at h

theorem CmdWord.and_namedBits (f : Format) (w : CmdWord) : w &&& f.namedBits = CmdWord.op w ++ f.namedImm w := by
  have op := Masked.ones w 40 8
  have n8 := Masked.ones w 32 8
  have n16 := Masked.ones w 0 16
  have byte3 := Masked.ones w 24 8
  have byte2 := Masked.ones w 16 8
  have byte1 := Masked.ones w 8 8
  have byte0 := Masked.ones w 0 8
  cases f with
  | n => exact (op.append (.zeros w 0 40)).whole
  | b => exact (op.append ((Masked.zeros w 8 32).append byte0)).whole
  | bs => exact (op.append ((Masked.zeros w 16 24).append (byte1.append byte0))).whole
  | l | s => exact (op.append ((Masked.zeros w 16 24).append n16)).whole
  | ss => exact (op.append ((Masked.zeros w 24 16).append (byte2.append n16))).whole
  | f1 => exact (op.append (n8.append ((Masked.zeros w 16 16).append (byte1.append byte0)))).whole
  | f2 => exact (op.append (n8.append (byte3.append (byte2.append (byte1.append byte0))))).whole
  | t => exact (op.append ((Masked.zeros w 32 8).append (.ones w 0 32))).whole

/-- No format's mask touches the opcode. -/
theorem CmdWord.op_and_namedBits (f : Format) (w : CmdWord) : CmdWord.op (w &&& f.namedBits) = CmdWord.op w := by
  rw [CmdWord.and_namedBits]
  exact BitVec.extractLsb'_append_eq_left

/-! ### What the decoder builds -/

variable {o : Op} {w : CmdWord} {d : List Byte}

/-- A format without beats announces none, so the beats of a command are all its data. -/
theorem Op.build_data (hd : d.length = o.format.beats w) : (o.build w d).data = d := by
  cases o with
  | fifoPushBytes | crcBuf | txSendSimple | txSendExt | txSendRaw => rfl
  | _ => exact (List.eq_nil_of_length_eq_zero hd).symm

/-- An `n` field announces no more beats than its width allows (R82). -/
theorem Op.build_wf (hd : d.length = o.format.beats w) : (o.build w d).wf := by
  rw [Instr.wf, Op.build_data hd, hd]
  cases o with
  | fifoPushBytes | crcBuf | txSendRaw => exact Nat.le_of_lt_succ (CmdWord.n16 w).isLt
  | txSendSimple | txSendExt => exact Nat.le_of_lt_succ (CmdWord.n8 w).isLt
  | _ => exact Nat.le_refl 0

theorem Op.build_imm (hd : d.length = o.format.beats w) : (o.build w d).imm = o.format.namedImm w := by
  cases o with
  | fifoPushBytes | crcBuf | txSendRaw =>
    have hn : BitVec.ofNat 16 d.length = CmdWord.n16 w := hd ▸ BitVec.ofNat_toNat ..
    simp only [Op.build, Instr.imm, Op.format, Format.namedImm, hn]
  | txSendSimple | txSendExt =>
    have hn : BitVec.ofNat 8 d.length = CmdWord.n8 w := hd ▸ BitVec.ofNat_toNat ..
    simp only [Op.build, Instr.imm, Op.format, Format.namedImm, hn]
  | _ => rfl

/-- The encoder's word for what the decoder builds: the word read, without the bits its format does not name. -/
theorem Op.build_word (ho : Op.ofCode (CmdWord.op w) = some o) (hd : d.length = o.format.beats w) :
    (o.build w d).word = w &&& o.format.namedBits := by
  rw [CmdWord.and_namedBits, ← Op.code_of_ofCode ho, ← Op.build_imm hd, Instr.word, Op.build_op]

/-- Decoding does not see the unnamed bits: the encoder has cleared them in the command's own word, and that word is read back. -/
theorem Op.build_and_namedBits (ho : Op.ofCode (CmdWord.op w) = some o) (hd : d.length = o.format.beats w) :
    o.build (w &&& o.format.namedBits) d = o.build w d ∧ o.format.beats (w &&& o.format.namedBits) = o.format.beats w := by
  rw [← hd]
  simpa only [Op.build_op, Op.build_data hd, Op.build_word ho hd] using (o.build w d).word_roundTrip (Op.build_wf hd)

/-- Clearing the unnamed bits changes nothing the decoder answers (R82). -/
theorem decode_and_namedBits (ho : Op.ofCode (CmdWord.op w) = some o) (rest : List PortItem) :
    decode (.word (w &&& o.format.namedBits) :: rest) = decode (.word w :: rest) := by
  have hbeats : o.format.beats (w &&& o.format.namedBits) = o.format.beats w :=
    (Op.build_and_namedBits (d := List.replicate (o.format.beats w) 0) ho List.length_replicate).2
  simp only [decode, CmdWord.op_and_namedBits, ho, hbeats]
  cases hb : takeBeats (o.format.beats w) rest with
  | none => rfl
  | some x => simp only [(Op.build_and_namedBits ho (takeBeats_some hb).2).1]

end Sys2Proof

section

open Sys2Proof Sys2Proof.Machine

/-- Settles O4: the fields of a command's own word are its operands. -/
theorem encodeDecode : Obligations.EncodeDecode := fun _ rest h => decode_encode h rest

/-- Settles O5: the decoder builds a command whose beats are those taken, and whose word is the presented one under its format's mask. -/
theorem decodedIsWellFormed : Obligations.DecodedIsWellFormed := by
  intro items rest i h
  obtain ⟨w, o, d, rfl, ho, hd, rfl⟩ := decode_ok h
  refine ⟨Op.build_wf hd, w, ?_, ?_⟩
  · rw [Op.build_data hd]
  · rw [Op.build_op, Op.build_word ho hd]

/-- Settles O6: both words decode as the word with the unnamed bits cleared. -/
theorem unnamedBitsIgnored : Obligations.UnnamedBitsIgnored := by
  intro w w' o rest ho hw
  have hop : CmdWord.op w' = CmdWord.op w := by
    rw [← CmdWord.op_and_namedBits o.format w', ← hw, CmdWord.op_and_namedBits]
  rw [← decode_and_namedBits ho, hw, decode_and_namedBits (hop ▸ ho)]

/-- Settles O3: words written out in 95_test_vectors.md. -/
theorem wordsDecode : Obligations.WordsDecode := by
  unfold Obligations.WordsDecode
  decide

end
end

section
/-! PROOFS. Illegal commands (R87) and commands whose beats are awaited (R85), at the head of a port. -/

namespace Sys2Proof

/-- Every command of the map is accepted on some port (R80), so the opcodes no port accepts are the reserved ones. -/
theorem acceptsCode_eq_false_iff (c : Byte) : (∀ p, acceptsCode p c = false) ↔ Op.ofCode c = none := by
  cases ho : Op.ofCode c with
  | none => simp [acceptsCode, ho]
  | some o =>
    have hsome : ∃ p, o.accepts p = true := by
      cases o with
      | rxByte => exact ⟨.r, rfl⟩
      | _ => exact ⟨.m, rfl⟩
    simpa [acceptsCode, ho] using hsome

/-- The table of R87, opcode by opcode. -/
theorem Op.ofCode_eq_none_iff : ∀ c : Byte, Op.ofCode c = none ↔
    c.toNat ≤ 0x0F ∨ (0x18 ≤ c.toNat ∧ c.toNat ≤ 0x1F) ∨ (0x22 ≤ c.toNat ∧ c.toNat ≤ 0x2F) ∨ (0x31 ≤ c.toNat ∧ c.toNat ≤ 0x3F) ∨
    (0x44 ≤ c.toNat ∧ c.toNat ≤ 0x4F) ∨ (0x54 ≤ c.toNat ∧ c.toNat ≤ 0x5F) ∨ (0x62 ≤ c.toNat ∧ c.toNat ≤ 0x6F) ∨
    (0x75 ≤ c.toNat ∧ c.toNat ≤ 0x7E) ∨ 0x80 ≤ c.toNat := by
  decide

/-- Fewer beats than announced, and then nothing, are not taken. -/
theorem takeBeats_eq_none {n : Nat} {d : List Byte} (h : d.length < n) : takeBeats n (d.map .beat) = none := by
  cases ht : takeBeats n (d.map .beat) with
  | none => rfl
  | some x =>
    obtain ⟨hd, hn⟩ := takeBeats_some ht
    have hlen := congrArg List.length hd
    simp only [List.length_map, List.length_append] at hlen
    omega

end Sys2Proof

namespace Sys2Proof.Machine

theorem presented_of_not_accepted {p : Port} {w : CmdWord} (rest : List PortItem) (ha : acceptsCode p (CmdWord.op w) = false) :
    presented p (.word w :: rest) = .illegal (CmdWord.op w) rest := by
  simp [presented, ha]

theorem presented_of_missing_beats {p : Port} {w : CmdWord} {o : Op} {d : List Byte} (ho : Op.ofCode (CmdWord.op w) = some o)
    (hd : d.length < o.format.beats w) (ha : o.accepts p = true) : presented p (.word w :: d.map .beat) = .waiting := by
  have hc : acceptsCode p (CmdWord.op w) = true := by simpa [acceptsCode, ho] using ha
  simp [presented, hc, decode, ho, takeBeats_eq_none hd]

/-- The guard holds exactly ports A and R, and only while `lock = 1` (R71). -/
theorem State.held_eq_false_iff {s : State} {p : Port} : s.held p = false ↔ s.lock = false ∨ p = .m := by
  cases hl : s.lock <;> simp [State.held, hl]

theorem State.ready_iff_of_illegal {s : State} {p : Port} {op : Byte} {rest : List PortItem}
    (h : presented p (s.pend.get p) = .illegal op rest) : s.ready p = true ↔ s.lock = false ∨ p = .m := by
  simp [State.ready, h, State.held_eq_false_iff]

theorem State.ready_iff_of_command {s : State} {p : Port} {i : Instr} {rest : List PortItem}
    (h : presented p (s.pend.get p) = .command i rest) : s.ready p = true ↔ s.lock = false ∨ p = .m := by
  simp [State.ready, h, State.held_eq_false_iff]

theorem State.ready_eq_false_of_waiting {s : State} {p : Port} (h : presented p (s.pend.get p) = .waiting) : s.ready p = false := by
  simp [State.ready, h]

/-- A selected port that presents an illegal command answers it. -/
theorem step_of_illegal {s t : State} {p : Port} {op : Byte} {rest : List PortItem} (hs : s.selectPort = some (p, t))
    (h : presented p (s.pend.get p) = .illegal op rest) : step s = .next ((t.serve p rest).illegalCommand op) := by
  rw [← State.selectPort_pend hs] at h
  simp only [step, State.runStep, hs, State.runPort, State.runPresented, h]

/-- A step serves a ready port, so a port that is not ready keeps its items and its responses (R70). -/
theorem step_keeps_port_of_not_ready {s t : State} {p : Port} (h : s.Inv) (hp : s.ready p = false) (he : step s = .next t) :
    t.pend.get p = s.pend.get p ∧ t.resp.get p = s.resp.get p := by
  obtain rfl | ⟨q, hq, hothers, _⟩ := portOrderKept s t h he
  · exact ⟨rfl, rfl⟩
  · refine hothers p ?_
    rintro rfl
    rw [hp] at hq
    cases hq

end Sys2Proof.Machine

section

open Sys2Proof Sys2Proof.Machine

/-- Settles O7: the opcodes no port accepts are those outside the map; a word its port does not accept is presented as illegal. -/
theorem illegalCommand : Obligations.IllegalCommand := by
  refine ⟨fun c => (acceptsCode_eq_false_iff c).trans (Op.ofCode_eq_none_iff c), fun s t p w rest hs hpend ha => ?_,
    fun s p w rest hpend ha => ?_⟩
  · exact step_of_illegal hs (hpend ▸ presented_of_not_accepted rest ha)
  · exact State.ready_iff_of_illegal (hpend ▸ presented_of_not_accepted rest ha)

/-- Settles O8: with beats missing the port is waiting, so no step serves it; a complete command is held by the guard alone. -/
theorem beatsAwaited : Obligations.BeatsAwaited := by
  refine ⟨fun s p w o d ho hpend hd ha => ?_, fun s p i rest hwf hpend ha => ?_⟩
  · have hready : s.ready p = false := State.ready_eq_false_of_waiting (hpend ▸ presented_of_missing_beats ho hd ha)
    exact ⟨hready, fun t h he => step_keeps_port_of_not_ready h hready he⟩
  · exact State.ready_iff_of_command (presented_command (hpend ▸ decode_encode hwf rest) ha)

/-- Settles O17: every command answers as `Response.Allowed` says, and a held port is not served. -/
theorem oneResponsePerCommand : Obligations.OneResponsePerCommand := by
  refine ⟨fun i s t h he => ?_, ⟨rfl, rfl, rfl⟩, fun s t p h hl hp he => ?_⟩
  · obtain ⟨⟨st, v, d⟩, ⟨hdata, hlegal, hrefused, hvalue⟩, hresp⟩ := exec_answered h he
    exact ⟨st, v, d, hresp, hdata, hlegal, hrefused, hvalue⟩
  · exact (step_keeps_port_of_not_ready h (State.ready_eq_false_of_lock hl hp) he).2

end
end

section
/-! PROOFS. The rows of the opcode map (R82, R83). -/

namespace Sys2Proof

/-- The row of each opcode: its format's beats, the command the decoder builds, and the ports that accept it. -/
theorem Op.row (o : Op) : Claims.Row o.code o.format.beats o.build ([Port.m, .a, .r].filter o.accepts) := by
  refine ⟨fun w d rest hw hd => ?_, fun p => ?_⟩
  · have ho : Op.ofCode (CmdWord.op w) = some o := by rw [CmdWord.op, hw, Op.ofCode_code]
    simp only [decode, ho, ← hd, takeBeats_map]
  · have hp : p ∈ [Port.m, .a, .r] := by cases p <;> decide
    simp [acceptsCode, Op.ofCode_code, List.mem_filter, hp]

/-- `zext_32` as the model extends a word. -/
theorem Claims.zext32_eq {n : Nat} (b : BitVec n) : Claims.zext32 b = b.setWidth 32 := BitVec.ofNat_toNat 32 b

end Sys2Proof
end

section
/-! PROOFS. The ring buffer's commands (R120 to R126): what each stores, removes or answers. -/

namespace Sys2Proof.Machine

open Claims

/-! ### Pushing (R112, R113) -/

/-- A slice that fits is stored at the tail. -/
theorem Ring.stored_pushBytes {C : Nat} {r : Ring} {d : List Byte} (hC : C ≤ 256) (h : r.ok C)
    (hfit : r.count.toNat + d.length ≤ C) : Stored C r (r.pushBytes C d) d := by
  obtain ⟨_, _, htail, _, hwf, _⟩ := id h
  obtain ⟨_, _, hcount, htail'⟩ := Ring.storeBytes_spec d hC h hfit
  obtain ⟨hin, hout⟩ := Ring.storeBytes_read d hC hwf (by omega) (by omega)
  rw [Ring.pushBytes, if_neg (by omega)]
  exact ⟨Ring.storeBytes_head C d r, htail', hcount, hin, hout⟩

/-- A slice that does not fit empties the queue. -/
theorem Ring.pushBytes_of_overflow {C : Nat} {r : Ring} {d : List Byte} (h : C < r.count.toNat + d.length) :
    r.pushBytes C d = emptied r := if_pos h

/-- A push is a push of one byte: within capacity both test for the same room. -/
theorem Ring.push_eq_pushBytes {C : Nat} {r : Ring} (b : Byte) (h : r.count.toNat ≤ C) : r.push C b = r.pushBytes C [b] := by
  rw [Ring.push, Ring.pushBytes, List.length_singleton]
  by_cases hfull : r.count.toNat = C
  · rw [if_pos hfull, if_pos (by omega)]
  · rw [if_neg hfull, if_neg (by omega)]; rfl

/-- Both bare pushes are `fifo_push_bytes` of the bytes they carry. -/
theorem exec_barePush {i : Instr} {s : State} (h : s.Inv) (hi : barePush i) :
    exec i s = .next (({ s with ring := s.ring.pushBytes s.cfg.fifoCap (pushedBytes i) } : State).ok 0) := by
  obtain ⟨b, rfl⟩ | ⟨d, rfl⟩ := hi
  · rw [pushedBytes, ← Ring.push_eq_pushBytes b h.ring.1]; rfl
  · rfl

/-! ### Taking from the head (R114 to R116) -/

theorem Ring.removed_drop {C n : Nat} {r : Ring} (hC : C ≤ 256) (h : r.ok C) (hn : n ≤ r.count.toNat) :
    Removed C r (r.drop C n) n := by
  have h0 : 0 < C := Nat.zero_lt_of_lt h.2.1
  refine ⟨rfl, rfl, ?_, ?_⟩
  · rw [Ring.drop_head, toNat_ofNat8_mod h0 hC]
  · rw [Ring.drop_count_toNat]; omega

theorem Ring.removed_trans {C m n : Nat} {q r t : Ring} (h : Removed C q r m) (h' : Removed C r t n) : Removed C q t (m + n) := by
  obtain ⟨hmem, htail, hhead, hcount⟩ := h
  obtain ⟨hmem', htail', hhead', hcount'⟩ := h'
  refine ⟨hmem'.trans hmem, htail'.trans htail, ?_, by omega⟩
  rw [hhead', hhead, Nat.mod_add_mod, Nat.add_assoc]

/-- `head` is an index, so the byte at the head is read there. -/
theorem Ring.pop_of_nonempty {C : Nat} {r : Ring} (h : r.ok C) (hc : r.count ≠ 0) :
    r.pop C = (Memory.read r.mem r.head.toNat, r.drop C 1) := by
  rw [Ring.pop_nonempty hc, Nat.mod_eq_of_lt h.2.1]

/-- `FIFO.POP` answers what `fifo_pop` gives. -/
theorem exec_fifoPop (s : State) : exec .fifoPop s =
    .next (({ s with ring := (s.ring.pop s.cfg.fifoCap).2 } : State).ok (zext32 (s.ring.pop s.cfg.fifoCap).1)) := by
  rw [zext32_eq]; rfl

/-- `FIFO.PEEK` answers what a pop would. -/
theorem exec_fifoPeek (s : State) : exec .fifoPeek s = .next (s.ok (zext32 (s.ring.pop s.cfg.fifoCap).1)) := by
  rw [zext32_eq, ← Ring.peek_eq_pop]; rfl

theorem exec_fifoPopBytes_of_le {s : State} {n : BitVec 16} (hn : n.toNat ≤ s.ring.count.toNat) : exec (.fifoPopBytes n) s =
    .next (({ s with ring := s.ring.drop s.cfg.fifoCap n.toNat } : State).respond .ok 0 (s.ring.bytes s.cfg.fifoCap n.toNat)) := by
  simp only [exec, execFifoPopBytes, Ring.popBytes, if_neg (Nat.not_lt.2 hn)]

theorem exec_fifoPopBytes_of_underrun {s : State} {n : BitVec 16} (hn : s.ring.count.toNat < n.toNat) : exec (.fifoPopBytes n) s =
    .next ((({ s with ring := s.ring.flush } : State).drawn n.toNat).respond .ok 0 (s.freeBytes n.toNat)) := by
  simp only [exec, execFifoPopBytes, Ring.popBytes, if_pos hn]

end Sys2Proof.Machine

section

open Sys2Proof Sys2Proof.Machine

/-- Settles O25: the loop of R113 stores a slice that fits; one that does not fit is not looked at. -/
theorem fifoPushBytes : Obligations.FifoPushBytes :=
  ⟨Op.row .fifoPushBytes, fun _ _ h => ⟨_, rfl, Ring.pushBytes_of_overflow, Ring.stored_pushBytes h.fifoCap_le h.ring⟩⟩

/-- Settles O24: a push is a push of one byte, and within capacity that overflows exactly at `count = C`. -/
theorem fifoPush : Obligations.FifoPush := by
  refine ⟨Op.row .fifoPush, fun s b h => ⟨_, exec_barePush h (.inl ⟨b, rfl⟩), fun hfull => ?_, fun hroom => ?_⟩⟩
  · exact Ring.pushBytes_of_overflow (by rw [hfull]; exact Nat.lt_succ_self _)
  · exact Ring.stored_pushBytes h.fifoCap_le h.ring hroom

/-- Settles O26: an empty buffer pops 0 and is flushed; another gives up its head. -/
theorem fifoPop : Obligations.FifoPop := by
  refine ⟨Op.row .fifoPop, fun s h => ⟨fun hempty => ?_, fun hc => ⟨s.ring.drop s.cfg.fifoCap 1, ?_, ?_⟩⟩⟩
  · rw [exec_fifoPop, Ring.pop_empty hempty]; rfl
  · exact Ring.removed_drop h.fifoCap_le h.ring (Ring.count_ne_zero.1 hc)
  · rw [exec_fifoPop, Ring.pop_of_nonempty h.ring hc]; rfl

/-- Settles O27: on underrun as many free bytes as asked for, else the bytes from the head on. -/
theorem fifoPopBytes : Obligations.FifoPopBytes := by
  refine ⟨Op.row .fifoPopBytes, fun s n h => ⟨fun hunder => ⟨s.freeBytes n.toNat, ?_, ?_⟩, fun hn =>
    ⟨s.ring.drop s.cfg.fifoCap n.toNat, ?_, ?_⟩⟩⟩
  · simp [State.freeBytes]
  · exact exec_fifoPopBytes_of_underrun hunder
  · exact Ring.removed_drop h.fifoCap_le h.ring hn
  · exact exec_fifoPopBytes_of_le hn

/-- Settles O28: a peek answers what a pop would, and R27 bounds the size. -/
theorem fifoPeekAndSize : Obligations.FifoPeekAndSize := by
  refine ⟨Op.row .fifoPeek, Op.row .fifoSize, fun s h => ⟨fun hempty => ?_, fun hc => ?_, ?_, h.ring.1⟩⟩
  · rw [exec_fifoPeek, Ring.pop_empty hempty]; rfl
  · rw [exec_fifoPeek, Ring.pop_of_nonempty h.ring hc]; rfl
  · rw [Claims.zext32_eq]; rfl

/-- Settles O29: `fifo_flush` is the whole effect of the command. -/
theorem fifoFlush : Obligations.FifoFlush := ⟨Op.row .fifoFlush, fun _ => rfl⟩

end
end

section
/-! PROOFS. The FIFO law (R119 (a)): pushes within capacity add their bytes to the queue in order, and pops answer it in order. -/

namespace Sys2Proof.Machine

open Claims

/-- From `s` commands ran to `t` that left the bytes `q` queued, emitted no event, and gave the responses `xs` on the active port. -/
structure Ran (s t : State) (q : List Byte) (xs : List Response) : Prop where
  inv : t.Inv
  cfg : t.cfg = s.cfg
  active : t.active = s.active
  events : t.events = s.events
  queue : t.ring.queue s.cfg.fifoCap = q
  resp : t.resp.get s.active = s.resp.get s.active ++ xs

theorem Ran.nothing {s : State} (h : s.Inv) : Ran s s (s.ring.queue s.cfg.fifoCap) [] :=
  ⟨h, rfl, rfl, rfl, rfl, (List.append_nil _).symm⟩

/-- The queue, read in the configuration of the state reached. -/
theorem Ran.queue_after {s t : State} {q : List Byte} {xs : List Response} (h : Ran s t q xs) :
    t.ring.queue t.cfg.fifoCap = q := by rw [h.cfg, h.queue]

theorem Ran.trans {s t u : State} {q q' : List Byte} {xs ys : List Response} (h : Ran s t q xs) (h' : Ran t u q' ys) :
    Ran s u q' (xs ++ ys) where
  inv := h'.inv
  cfg := h'.cfg.trans h.cfg
  active := h'.active.trans h.active
  events := h'.events.trans h.events
  queue := h.cfg ▸ h'.queue
  resp := by rw [← h.active, h'.resp, h.active, h.resp, List.append_assoc]

/-- A command that writes the ring buffer alone and answers `v`. -/
theorem Ran.of_ring {s : State} {r : Ring} (h : s.Inv) (hr : r.ok s.cfg.fifoCap) (v : Word32) :
    Ran s (({ s with ring := r } : State).ok v) (r.queue s.cfg.fifoCap) [⟨.ok, v, []⟩] :=
  ⟨State.Inv_ok (State.Inv_ring h hr) v, rfl, rfl, rfl, rfl, PerPort.get_set_self ..⟩

theorem runAll_cons {i : Instr} {s t : State} (h : exec i s = .next t) (is : List Instr) : runAll (i :: is) s = runAll is t := by
  rw [runAll, h]

theorem runAll_append {is : List Instr} {s t : State} (h : runAll is s = .next t) (js : List Instr) :
    runAll (is ++ js) s = runAll js t := by
  induction is generalizing s with
  | nil => cases h; rfl
  | cons i is ih =>
    rw [List.cons_append]
    cases he : exec i s with
    | next u => rw [runAll_cons he] at h ⊢; exact ih h
    | fault f | refused r => simp [runAll, he] at h

/-- A bare push within capacity. -/
theorem exec_barePush_ran {i : Instr} {s : State} (h : s.Inv) (hi : barePush i)
    (hfit : s.ring.count.toNat + (pushedBytes i).length ≤ s.cfg.fifoCap) :
    ∃ t, exec i s = .next t ∧ Ran s t (s.ring.queue s.cfg.fifoCap ++ pushedBytes i) [⟨.ok, 0, []⟩] := by
  have hran := Ran.of_ring h (Ring.ok_pushBytes (pushedBytes i) h.fifoCap_le h.ring) 0
  rw [Ring.queue_pushBytes _ h.fifoCap_le h.ring, if_neg (Nat.not_lt.2 hfit)] at hran
  exact ⟨_, exec_barePush h hi, hran⟩

/-- A pop answers the oldest byte queued. -/
theorem exec_fifoPop_ran {s : State} {b : Byte} {q : List Byte} (h : s.Inv) (hq : s.ring.queue s.cfg.fifoCap = b :: q) :
    ∃ t, exec .fifoPop s = .next t ∧ Ran s t q [⟨.ok, zext32 b, []⟩] := by
  have hc : s.ring.count ≠ 0 := by
    rw [Ring.count_ne_zero, ← Ring.length_queue s.cfg.fifoCap, hq]; exact Nat.succ_pos _
  rw [Ring.queue_eq_cons h.fifoCap_le h.ring hc, List.cons.injEq] at hq
  obtain ⟨rfl, rfl⟩ := hq
  exact ⟨_, exec_fifoPop s, Ran.of_ring h (Ring.ok_pop h.fifoCap_le h.ring) _⟩

theorem runAll_barePushes {pushes : List Instr} {s : State} (h : s.Inv) (hbare : ∀ i ∈ pushes, barePush i)
    (hfit : s.ring.count.toNat + (pushes.flatMap pushedBytes).length ≤ s.cfg.fifoCap) :
    ∃ t, runAll pushes s = .next t ∧
      Ran s t (s.ring.queue s.cfg.fifoCap ++ pushes.flatMap pushedBytes) (pushes.map fun _ => ⟨.ok, 0, []⟩) := by
  induction pushes generalizing s with
  | nil => exact ⟨s, rfl, by simpa using Ran.nothing h⟩
  | cons i is ih =>
    rw [List.flatMap_cons, List.length_append] at hfit
    obtain ⟨t, he, hran⟩ := exec_barePush_ran h (hbare i List.mem_cons_self) (by omega)
    have hcount : t.ring.count.toNat = s.ring.count.toNat + (pushedBytes i).length := by
      rw [← Ring.length_queue s.cfg.fifoCap, hran.queue, List.length_append, Ring.length_queue]
    obtain ⟨u, hu, hran'⟩ := ih hran.inv (fun j hj => hbare j (List.mem_cons_of_mem i hj)) (by rw [hran.cfg]; omega)
    rw [hran.queue_after, List.append_assoc] at hran'
    exact ⟨u, (runAll_cons he is).trans hu, hran.trans hran'⟩

theorem runAll_pops {q : List Byte} {s : State} (h : s.Inv) (hq : s.ring.queue s.cfg.fifoCap = q) :
    ∃ t, runAll (List.replicate q.length .fifoPop) s = .next t ∧ Ran s t [] (q.map fun b => ⟨.ok, zext32 b, []⟩) := by
  induction q generalizing s with
  | nil =>
    have hran := Ran.nothing h
    rw [hq] at hran
    exact ⟨s, rfl, hran⟩
  | cons b q ih =>
    obtain ⟨t, he, hran⟩ := exec_fifoPop_ran h hq
    obtain ⟨u, hu, hran'⟩ := ih hran.inv hran.queue_after
    exact ⟨u, (runAll_cons he _).trans hu, hran.trans hran'⟩

end Sys2Proof.Machine

section

open Sys2Proof Sys2Proof.Machine

/-- Settles O31: the pushes queue their bytes behind what was queued, and as many pops as that makes answer all of it. -/
theorem fifoLaw : Obligations.FifoLaw := by
  intro s pushes h hbare hfit
  obtain ⟨t, ht, hpushed⟩ := runAll_barePushes h hbare hfit
  obtain ⟨u, hu, hpopped⟩ := runAll_pops hpushed.inv hpushed.queue_after
  have hran := hpushed.trans hpopped
  rw [List.length_append, Ring.length_queue] at hu
  refine ⟨u, (runAll_append ht _).trans hu, ?_, hran.events, by rw [hran.resp, List.append_assoc]⟩
  rw [← BitVec.toNat_inj, ← Ring.length_queue s.cfg.fifoCap, hran.queue]; rfl

end
end

section
/-! PROOFS. `FIFO.ENSURE` (R127 with R118, R119 (c)): one pass of its loop, and the whole loop on a well-framed queue. -/

namespace Sys2Proof.Machine

open Claims

theorem State.emits_nil (s : State) : s.emits [] = s := by
  rw [State.emits, List.append_nil]

/-! ### The command -/

theorem exec_fifoEnsure_of_gt {s : State} {n : BitVec 16} (hn : s.cfg.fifoCap < n.toNat) :
    exec (.fifoEnsure n) s = .next (s.ok 0) := by
  simp only [exec, execFifoEnsure, Ring.ensure, if_pos hn, State.emits_nil, Bool.false_eq_true, if_false]

theorem exec_fifoEnsure_of_le {s : State} {n : BitVec 16} {r : Ring} {es : List Event} (hn : n.toNat ≤ s.cfg.fifoCap)
    (hloop : Ring.ensureLoop s.cfg.fifoCap n.toNat s.ring.count.toNat s.ring = (r, es)) :
    exec (.fifoEnsure n) s = .next ((({ s with ring := r } : State).emits es).ok 1) := by
  simp only [exec, execFifoEnsure, Ring.ensure, if_neg (Nat.not_lt.2 hn), hloop, if_true]

/-- There is room already. -/
theorem exec_fifoEnsure_of_room {s : State} {n : BitVec 16} (hroom : n.toNat + s.ring.count.toNat ≤ s.cfg.fifoCap) :
    exec (.fifoEnsure n) s = .next (s.ok 1) := by
  rw [exec_fifoEnsure_of_le (by omega) (Ring.ensureLoop_done hroom), State.emits_nil]

section

variable {s : State} {n : BitVec 16} (hn : n.toNat ≤ s.cfg.fifoCap) (hfull : s.cfg.fifoCap < n.toNat + s.ring.count.toNat)

include hn hfull

/-- The pass finds a length byte that claims more than is queued. -/
theorem exec_fifoEnsure_of_broken (hs : s.ring.skipEntry s.cfg.fifoCap = none) :
    exec (.fifoEnsure n) s = .next ((({ s with ring := s.ring.flush } : State).emits [.fifoFraming]).ok 1) :=
  exec_fifoEnsure_of_le hn (by rw [Ring.ensureLoop_spec hn, if_pos hfull, hs])

/-- The pass drops the head entry, and the command goes on as from what is left. -/
theorem exec_fifoEnsure_of_skip {r : Ring} (hs : s.ring.skipEntry s.cfg.fifoCap = some r) :
    exec (.fifoEnsure n) s = exec (.fifoEnsure n) { s with ring := r } := by
  have hpass : Ring.ensureLoop s.cfg.fifoCap n.toNat s.ring.count.toNat s.ring =
      Ring.ensureLoop s.cfg.fifoCap n.toNat r.count.toNat r := by
    rw [Ring.ensureLoop_spec hn, if_pos hfull, hs]
  rw [exec_fifoEnsure_of_le hn hpass, exec_fifoEnsure_of_le (s := { s with ring := r }) hn rfl]

end

/-! ### The head entry -/

/-- The length byte at the head claims more than is queued behind it. -/
theorem Ring.skipEntry_of_broken {C : Nat} {r : Ring} (h : r.ok C) (hc : r.count ≠ 0)
    (hL : r.count.toNat - 1 < (Memory.read r.mem r.head.toNat).toNat) : r.skipEntry C = none := by
  rw [Ring.skipEntry, Ring.pop_count_toNat, Ring.pop_of_nonempty h hc, if_pos hL]

/-- The entry at the head is whole; its length byte and its bytes leave the buffer. -/
theorem Ring.skipEntry_of_whole {C : Nat} {r : Ring} (hC : C ≤ 256) (h : r.ok C) (hc : r.count ≠ 0)
    (hL : (Memory.read r.mem r.head.toNat).toNat ≤ r.count.toNat - 1) :
    ∃ r', r.skipEntry C = some r' ∧ Removed C r r' ((Memory.read r.mem r.head.toNat).toNat + 1) := by
  have hpos := Ring.count_ne_zero.1 hc
  refine ⟨(r.drop C 1).drop C (Memory.read r.mem r.head.toNat).toNat, ?_, ?_⟩
  · rw [Ring.skipEntry, Ring.pop_count_toNat, Ring.pop_of_nonempty h hc, if_neg (Nat.not_lt.2 hL)]
  · rw [Nat.add_comm]
    refine Ring.removed_trans (Ring.removed_drop hC h hpos) (Ring.removed_drop hC (Ring.ok_drop hC h hpos) ?_)
    rwa [Ring.drop_count_toNat]

/-! ### A well-framed queue -/

/-- The loop of R118 drops the oldest entries while there is too little room, and reports nothing. -/
theorem Ring.ensureLoop_drops {C n : Nat} {r : Ring} {es : List (List Byte)} (hC : C ≤ 256) (hn : n ≤ C) (h : r.ok C)
    (hf : r.framedAs C es) :
    ∃ k r', Ring.ensureLoop C n r.count.toNat r = (r', []) ∧ r'.queue C = wireOf (es.drop k) ∧
      ∀ j, j < k → C < n + (wireOf (es.drop j)).length := by
  induction es generalizing r with
  | nil =>
    have hempty : r.count.toNat = 0 := by rw [← Ring.length_queue C, hf.1]; rfl
    exact ⟨0, r, Ring.ensureLoop_done (by omega), hf.1, nofun⟩
  | cons e es ih =>
    have hcount : r.count.toNat = (wireOf (e :: es)).length := by rw [← Ring.length_queue C, hf.1]
    by_cases hroom : n + r.count.toNat ≤ C
    · exact ⟨0, r, Ring.ensureLoop_done hroom, hf.1, nofun⟩
    have hfull : C < n + r.count.toNat := Nat.lt_of_not_le hroom
    obtain ⟨_, _, r', heq, hs, _, hf'⟩ := Ring.skipEntry_framed hC h (Ring.count_ne_zero.2 (by omega)) hf
    cases heq
    obtain ⟨k, u, hloop, hq, hneeded⟩ := ih (Ring.ok_skipEntry hC h hs) hf'
    refine ⟨k + 1, u, ?_, hq, fun j hj => ?_⟩
    · rw [Ring.ensureLoop_spec hn, if_pos hfull, hs]; exact hloop
    · cases j with
      | zero => rwa [List.drop_zero, ← hcount]
      | succ j => exact hneeded j (Nat.lt_of_succ_lt_succ hj)

end Sys2Proof.Machine

section

open Sys2Proof Sys2Proof.Machine

/-- Settles O30: each clause is one pass of the loop, and `Ring.ensureLoop_post` says what all passes together leave. -/
theorem fifoEnsure : Obligations.FifoEnsure := by
  refine ⟨Op.row .fifoEnsure, fun s n h => ⟨exec_fifoEnsure_of_gt, exec_fifoEnsure_of_room, fun hn hfull hL => ?_,
    fun hn hfull hL => ?_, ?_⟩⟩
  · have hc : s.ring.count ≠ 0 := Ring.count_ne_zero.2 (by omega)
    exact exec_fifoEnsure_of_broken hn hfull (Ring.skipEntry_of_broken h.ring hc hL)
  · have hc : s.ring.count ≠ 0 := Ring.count_ne_zero.2 (by omega)
    obtain ⟨r, hs, hremoved⟩ := Ring.skipEntry_of_whole h.fifoCap_le h.ring hc hL
    exact ⟨r, hremoved, exec_fifoEnsure_of_skip hn hfull hs⟩
  · by_cases hn : n.toNat ≤ s.cfg.fifoCap
    · obtain ⟨_, hroom, hmem, _⟩ := Ring.ensureLoop_post h.fifoCap_le hn h.ring
      rcases hloop : Ring.ensureLoop s.cfg.fifoCap n.toNat s.ring.count.toNat s.ring with ⟨r, es⟩
      rw [hloop] at hroom hmem
      exact ⟨r, es, 1, exec_fifoEnsure_of_le hn hloop, hmem, fun _ => ⟨rfl, hroom⟩⟩
    · refine ⟨s.ring, [], 0, ?_, rfl, (absurd · hn)⟩
      rw [exec_fifoEnsure_of_gt (Nat.lt_of_not_le hn), List.append_nil]; rfl

/-- Settles O32: the loop drops an entry only while there is too little room, and ends with room. -/
theorem ensureDropsWholeEntries : Obligations.EnsureDropsWholeEntries := by
  intro s n es h hf hn
  obtain ⟨k, r, hloop, hq, hneeded⟩ := Ring.ensureLoop_drops h.fifoCap_le hn h.ring hf
  obtain ⟨_, hroom, _⟩ := Ring.ensureLoop_post h.fifoCap_le hn h.ring
  refine ⟨k, r, ?_, hq, ?_, hneeded⟩
  · rw [exec_fifoEnsure_of_le hn hloop, State.emits_nil]; rfl
  · rwa [hloop, ← Ring.length_queue s.cfg.fifoCap, hq] at hroom

end
end

section
/-! PROOFS. The CRC8 generator (41_crc8.md): the algorithm of R130, its laws (R131), and the two `CRC.*` commands (R132, R133). -/

namespace Sys2Proof.Machine

open Claims

/-- The model's shift step tests the bit that R130 numbers 7. -/
theorem crcShift_eq_shiftStep (poly : Byte) : crcShift poly = shiftStep poly := rfl

theorem crcShifts_eq_iterate (poly : Byte) (k : Nat) (crc : Byte) : crcShifts poly k crc = (shiftStep poly)^[k] crc := by
  induction k generalizing crc with
  | zero => rfl
  | succ k ih => rw [crcShifts, ih, crcShift_eq_shiftStep, Function.iterate_succ_apply]

/-- Only the exclusive-or of seed and byte counts, so the seed folds into the byte (R131 (d)). -/
theorem crc8_singleton_seed (poly seed b : Byte) : crc8 poly seed [b] = crc8 poly 0 [seed ^^^ b] := by
  rw [crc8_cons, crc8_cons, show 0 ^^^ (seed ^^^ b) = seed ^^^ b from BitVec.zero_xor]

/-- The table form: the register after a byte is the entry of R130's table at seed exclusive-or byte. -/
theorem crc8_cons_table (poly seed b : Byte) (d : List Byte) :
    crc8 poly seed (b :: d) = crc8 poly (crc8 poly 0 [seed ^^^ b]) d := by
  rw [← crc8_singleton_seed, ← crc8_append, List.singleton_append]

/-- A byte equal to the register clears it. -/
theorem crc8_cons_self (poly b : Byte) (d : List Byte) : crc8 poly b (b :: d) = crc8 poly 0 d := by
  rw [crc8_cons, show b ^^^ b = 0 from BitVec.xor_self, crcShifts_zero]

theorem crc8_replicate_zero (poly : Byte) (k : Nat) : crc8 poly 0 (List.replicate k 0) = 0 := by
  induction k with
  | zero => rfl
  | succ k ih => rw [List.replicate_succ, crc8_cons_self, ih]

/-- The CRC byte cancels the register it meets, whatever the seed. -/
theorem crc8_append_crc8 (poly seed : Byte) (d : List Byte) : crc8 poly seed (d ++ [crc8 poly seed d]) = 0 := by
  rw [crc8_append, crc8_cons_self, crc8_nil]

theorem exec_crcByte (b seed : Byte) (s : State) :
    exec (.crcByte b seed) s = .next (s.respond .ok (zext32 (crc8 s.cfg.crcPoly seed [b])) []) := by
  rw [zext32_eq]; rfl

theorem exec_crcBuf (seed : Byte) (d : List Byte) (s : State) :
    exec (.crcBuf seed d) s = .next (s.respond .ok (zext32 (crc8 s.cfg.crcPoly seed d)) []) := by
  rw [zext32_eq]; rfl

end Sys2Proof.Machine

section

open Sys2Proof Sys2Proof.Machine

/-- Settles O36: chaining is the fold's; the other laws are that the register stays at 0 from 0, and that a byte equal to it clears it. -/
theorem crcAlgebra : Obligations.CrcAlgebra := by
  intro poly seed b d e k
  refine ⟨crc8_append poly seed d e, ?_, crc8_singleton_seed poly seed b, crc8_append_crc8 poly 0 d⟩
  rw [crc8_append, crc8_replicate_zero]

/-- Settles O34: the model's eight shifts are R130's shift step iterated. -/
theorem crcAlgorithm : Obligations.CrcAlgorithm := by
  intro poly seed b d
  refine ⟨crc8_nil poly seed, ?_, crc8_cons_table poly seed b d⟩
  rw [crc8_cons, crcShifts_eq_iterate]

/-- Settles O35: the rows are the opcode map's, and each command answers the CRC8 with no other change. -/
theorem crcCommands : Obligations.CrcCommands :=
  ⟨Op.row .crcByte, Op.row .crcBuf, fun s b seed => exec_crcByte b seed s, fun s seed d => exec_crcBuf seed d s⟩

end
end

section
/-! PROOFS. The CRC tells apart messages that differ in one byte (R151), for every polynomial with bit 0 set. -/

namespace Sys2Proof.Machine

/-- A polynomial with bit 0 set marks bit 0 of every shift that lost a bit, so only 0 shifts to 0. -/
theorem crcShift_eq_zero {poly a : Byte} (hp : poly.getLsbD 0 = true) (h : crcShift poly a = 0) : a = 0 := by
  unfold crcShift at h
  split at h
  · have h0 := congrArg (·.getLsbD 0) h
    simp [hp, -BitVec.getLsbD_eq_getElem] at h0
  · next hm => simp only [BitVec.msb_eq_decide, decide_eq_true_eq] at hm; bv_omega

theorem crcShifts_eq_zero {poly a : Byte} (hp : poly.getLsbD 0 = true) {k : Nat} (h : crcShifts poly k a = 0) : a = 0 := by
  induction k generalizing a with
  | zero => exact h
  | succ k ih => exact crcShift_eq_zero hp (ih h)

/-- The shifts are linear, so registers that come out alike were alike. -/
theorem crcShifts_injective {poly : Byte} (hp : poly.getLsbD 0 = true) (k : Nat) : Function.Injective (crcShifts poly k) :=
  fun a b h => BitVec.xor_eq_zero_iff.1 (crcShifts_eq_zero hp (by rw [crcShifts_xor, h]; exact BitVec.xor_self))

/-- From different registers the same bytes lead to different CRCs. -/
theorem crc8_seed_injective {poly : Byte} (hp : poly.getLsbD 0 = true) (d : List Byte) :
    Function.Injective fun seed => crc8 poly seed d := by
  induction d with
  | nil => exact Function.injective_id
  | cons b d ih => exact fun x y h => (BitVec.xor_left_inj b).1 (crcShifts_injective hp 8 (ih h))

end Sys2Proof.Machine

section

open Sys2Proof Sys2Proof.Machine

/-- Settles O37: up to the changed byte the registers agree, at it they part, and the bytes after it keep them apart. -/
theorem crcDetectsOneByte : Obligations.CrcDetectsOneByte := by
  intro poly seed b b' d e hp hne h
  rw [crc8_append, crc8_append, crc8_cons, crc8_cons] at h
  exact hne ((BitVec.xor_right_inj _).1 (crcShifts_injective hp 8 (crc8_seed_injective hp e h)))

end
end

section
/-! PROOFS. `RX.BYTE` in each state of the parser (R141 to R149). -/

namespace Sys2Proof.Machine

open Claims

/-! ### Which step is taken -/

theorem exec_rxByte_of_not_listening {s : State} (hl : ¬listening s) (b : Byte) : exec (.rxByte b) s = .next (s.ok 0) :=
  if_pos (not_not.1 hl)

theorem exec_rxByte_of_waitSync {s : State} (hl : listening s) (hw : s.parser.state = .waitSync) (b : Byte) :
    exec (.rxByte b) s = .next ({ s with parser := s.parser.waitSyncStep s.cfg b }.ok 0) := by
  rw [exec, execRxByte, if_neg hl, hw]

theorem exec_rxByte_of_readLength {s : State} (hl : listening s) (hr : s.parser.state = .readLength) (b : Byte) :
    exec (.rxByte b) s = .next ({ s with parser := s.parser.readLengthStep s.cfg b }.ok 0) := by
  rw [exec, execRxByte, if_neg hl, hr]

theorem exec_rxByte_of_readBody {s : State} (hl : listening s) (hb : s.parser.state = .readBody) (b : Byte) :
    exec (.rxByte b) s = s.readBodyStep b := by
  rw [exec, execRxByte, if_neg hl, hb]

/-! ### A byte of the body -/

theorem Memory.oneByte_write {m : Memory} (i : Nat) (b : Byte) (h : m.wf = true) : OneByte m (Memory.write m i b) i b :=
  ⟨Memory.read_write_self i b h, fun _ ha => Memory.read_write_ne b h ha⟩

theorem Parser.buf_wf {c : Config} {p : Parser} (hp : p.ok c) : p.buf.wf = true := hp.2.2.2.1

/-- In `ReadBody` the frame holds its first two bytes, and the position is at most one past the declared length (R31). -/
theorem Parser.pos_bounds {c : Config} {p : Parser} (hp : p.ok c) (hb : p.state = .readBody) :
    2 ≤ p.pos.toNat ∧ p.pos.toNat ≤ p.len.toNat + 1 := by
  obtain ⟨hlow, hhigh, _⟩ := hp.2.2.1 hb
  exact ⟨hlow, hhigh.trans (Nat.min_le_left ..)⟩

/-- What stands after the sync value and the length. -/
theorem Parser.frame_drop_two {p : Parser} (h : 2 ≤ p.pos.toNat) : p.frame.drop 2 = Memory.slice p.buf 2 (p.pos.toNat - 2) := by
  obtain ⟨n, hn⟩ := Nat.exists_eq_add_of_le h
  rw [Parser.frame, hn, Memory.slice_append, List.drop_left' (Memory.length_slice ..), Nat.add_sub_cancel_left]

/-- Storing past the end of what is read changes none of it. -/
theorem Parser.slice_store {p : Parser} (hwf : p.buf.wf = true) (b : Byte) {i n : Nat} (hn : i + n ≤ p.pos.toNat) :
    Memory.slice (p.store b).buf i n = Memory.slice p.buf i n :=
  Memory.slice_congr fun _ _ hk => Memory.read_write_ne b hwf (by omega)

section

variable {c : Config} {p : Parser} (hc : c.ok) (hp : p.ok c) (hb : p.state = .readBody) (hlim : p.pos.toNat < c.rxPosLimit)
include hc hp hb hlim

/-- Below the limit the position advances without a carry. -/
theorem Parser.pos_store (b : Byte) : (p.store b).pos.toNat = p.pos.toNat + 1 :=
  Parser.store_pos_toNat b (Parser.ok_index hc hp hb hlim).2

theorem Parser.frame_store (b : Byte) : (p.store b).frame = p.frame ++ [b] := by
  have hwf := Parser.buf_wf hp
  rw [Parser.frame, Parser.pos_store hc hp hb hlim, Memory.slice_succ, Parser.slice_store hwf b (by omega), Nat.zero_add,
    Parser.store_buf, Memory.read_write_self _ _ hwf]
  rfl

/-- The byte just stored is the one compared with the CRC of those before it, from the type on (R146). -/
theorem Parser.crcMatches_store (b : Byte) :
    (p.store b).crcMatches c = true ↔ crc8 c.crcPoly 0 (p.frame.drop 2) = b := by
  have hwf := Parser.buf_wf hp
  have hlow := (Parser.pos_bounds hp hb).1
  rw [Parser.crcMatches, beq_iff_eq, Parser.pos_store hc hp hb hlim, Parser.slice_store hwf b (by omega), Nat.add_sub_cancel,
    Parser.store_buf, Memory.read_write_self _ _ hwf, Parser.frame_drop_two hlow]
  rfl

theorem Parser.complete_store (b : Byte) : (p.store b).complete = decide (p.len.toNat + 2 ≤ p.pos.toNat + 1) := by
  rw [Parser.complete, Parser.pos_store hc hp hb hlim, Parser.store_len]

end

theorem exec_rxByte_at_limit {s : State} (hl : listening s) (hb : s.parser.state = .readBody)
    (hlim : s.cfg.rxPosLimit ≤ s.parser.pos.toNat) (b : Byte) :
    exec (.rxByte b) s = .next ({ s with parser := s.parser.reset }.ok 0) := by
  rw [exec_rxByte_of_readBody hl hb, State.readBodyStep, if_pos hlim]

section

variable {s : State} (h : s.Inv) (hl : listening s) (hb : s.parser.state = .readBody)
  (hlim : s.parser.pos.toNat < s.cfg.rxPosLimit)
include h hl hb hlim

/-- Below the limit the byte is stored, and then the frame is tested for completion (R145, R146). -/
theorem exec_rxByte_below_limit (b : Byte) : exec (.rxByte b) s =
    if s.parser.len.toNat + 2 ≤ s.parser.pos.toNat + 1 then .next ({ s with parser := s.parser.store b } : State).finishFrame
    else .next (({ s with parser := s.parser.store b } : State).ok 0) := by
  have hi := (Parser.ok_index h.cfg h.parser hb hlim).1
  rw [exec_rxByte_of_readBody hl hb, State.readBodyStep, if_neg (by omega), if_neg (by omega)]
  simp only [Parser.complete_store h.cfg h.parser hb hlim, decide_eq_true_eq]

theorem exec_rxByte_stores (hopen : s.parser.pos.toNat + 1 < s.parser.len.toNat + 2) (b : Byte) :
    exec (.rxByte b) s = .next ({ s with parser := s.parser.store b }.ok 0) := by
  rw [exec_rxByte_below_limit h hl hb hlim, if_neg (by omega)]

/-- The byte that completes a frame, spoken of as the frame accumulated before it. -/
theorem exec_rxByte_completes (hdone : s.parser.len.toNat + 2 ≤ s.parser.pos.toNat + 1) (b : Byte) :
    exec (.rxByte b) s =
      if crc8 s.cfg.crcPoly 0 (s.parser.frame.drop 2) = b then
        .next ({ s with
          parser := (s.parser.store b).reset
          link := { good := s.link.good + 1, bad := s.link.bad, connected := true }
          events := s.events ++ (if s.link.connected then [] else [Event.connected]) ++
            [Event.frame (s.parser.frame ++ [b])] }.respond .ok 1 [])
      else
        .next ({ s with
          parser := (s.parser.store b).reset
          link := { s.link with bad := s.link.bad + 1 }
          events := s.events ++ [Event.rxDiscard] }.respond .ok 2 []) := by
  rw [exec_rxByte_below_limit h hl hb hlim, if_pos hdone, State.finishFrame_spec]
  simp only [Parser.crcMatches_store h.cfg h.parser hb hlim, Parser.frame_store h.cfg h.parser hb hlim, ← List.append_assoc]
  split <;> rfl

end

end Sys2Proof.Machine

section

open Sys2Proof Sys2Proof.Machine

/-- Settles O38: a turned line drops the byte; otherwise `WaitSync` stores a sync value and discards any other byte. -/
theorem rxWaitSync : Obligations.RxWaitSync := by
  refine ⟨Op.row .rxByte, fun s b hl => exec_rxByte_of_not_listening hl b, fun s b hl hw hb => ?_, fun s b h hl hw hb => ?_⟩
  · rw [exec_rxByte_of_waitSync hl hw, Parser.waitSyncStep, if_neg hb]; rfl
  · refine ⟨_, Memory.oneByte_write 0 b (Parser.buf_wf h.parser), ?_⟩
    rw [exec_rxByte_of_waitSync hl hw, Parser.waitSyncStep, if_pos hb]; rfl

/-- Settles O39: the step in `ReadLength` resets the parser or stores the length, as its test decides. -/
theorem rxReadLength : Obligations.RxReadLength := by
  intro s b h hl hr
  rw [exec_rxByte_of_readLength hl hr, Parser.readLengthStep]
  refine ⟨fun hout => ?_, fun hmin hmax => ⟨_, Memory.oneByte_write 1 b (Parser.buf_wf h.parser), ?_⟩⟩
  · rw [if_pos hout]; rfl
  · rw [if_neg (by omega)]; rfl

/-- Settles O40: the position limit is tested first; a byte below it that does not complete the frame is stored. -/
theorem rxReadBody : Obligations.RxReadBody := fun _ b h hl hb =>
  ⟨fun hlim => exec_rxByte_at_limit hl hb hlim b, fun hlim hopen =>
    ⟨_, _, Memory.oneByte_write _ b (Parser.buf_wf h.parser), Parser.pos_store h.cfg h.parser hb hlim b,
      exec_rxByte_stores h hl hb hlim hopen b⟩⟩

/-- Settles O41: in a completed frame the position before the last byte is one past the declared length. -/
theorem rxComplete : Obligations.RxComplete := by
  intro s b h hl hb hlim hdone
  obtain ⟨hlow, hhigh⟩ := Parser.pos_bounds h.parser hb
  have hpos : s.parser.pos.toNat = s.parser.len.toNat + 1 := by omega
  have hframe : s.parser.frame = (List.range (s.parser.len.toNat + 1)).map (fun k => Memory.read s.parser.buf k) := by
    simp only [Parser.frame, Memory.slice, hpos, Nat.zero_add]
  have hbody := Parser.frame_drop_two hlow
  rw [hpos] at hbody
  refine ⟨_, Memory.oneByte_write _ b (Parser.buf_wf h.parser), ?_⟩
  rw [exec_rxByte_completes h hl hb hlim hdone, hbody, hframe]
  rfl

end
end

section
/-! PROOFS. A whole frame fed byte by byte (R151): all but its last byte accumulate in `RXBUF`, and the last one completes it. -/

namespace Sys2Proof.Machine

open Claims

theorem runAll_singleton (i : Instr) (s : State) : runAll [i] s = exec i s := by
  rw [runAll]; cases exec i s <;> rfl

/-- `s` after `n` bytes that only moved the parser, to `p`, and were each answered 0. -/
def State.fedTo (s : State) (p : Parser) (n : Nat) : State :=
  { s with parser := p, resp := s.resp.set s.active (s.resp.get s.active ++ List.replicate n ⟨.ok, 0, []⟩) }

theorem State.fedTo_succ (s : State) (p q : Parser) (n : Nat) :
    ({ s.fedTo p n with parser := q } : State).ok 0 = s.fedTo q (n + 1) := by
  simp [State.fedTo, State.ok, State.respond, List.replicate_succ']

@[simp] theorem State.fedTo_cfg (s : State) (p : Parser) (n : Nat) : (s.fedTo p n).cfg = s.cfg := rfl
@[simp] theorem State.fedTo_parser (s : State) (p : Parser) (n : Nat) : (s.fedTo p n).parser = p := rfl

theorem State.Inv_fedTo {s : State} (h : s.Inv) {p : Parser} (hp : p.ok s.cfg) (n : Nat) : (s.fedTo p n).Inv :=
  ⟨h.cfg, h.ring, hp, h.drain, h.wdt, h.line⟩

/-- The parser is in the body of a frame of declared length `len`, of which the bytes `f` have been accumulated. -/
structure Parser.Accumulated (c : Config) (len : Byte) (f : List Byte) (p : Parser) : Prop where
  ok : p.ok c
  body : p.state = .readBody
  len : p.len = len
  frame : p.frame = f

theorem Parser.Accumulated.pos {c : Config} {len : Byte} {f : List Byte} {p : Parser} (h : p.Accumulated c len f) :
    p.pos.toNat = f.length := by
  rw [← h.frame, Parser.frame, Memory.length_slice]

theorem Parser.Accumulated.store {c : Config} {len : Byte} {f : List Byte} {p : Parser} (hc : c.ok) (h : p.Accumulated c len f)
    (hlim : f.length < c.rxPosLimit) (hopen : f.length < len.toNat + 1) (b : Byte) :
    (p.store b).Accumulated c len (f ++ [b]) := by
  rw [← h.pos] at hlim hopen
  refine ⟨Parser.ok_store b hc h.ok h.body hlim ?_, h.body, h.len, ?_⟩
  · rw [Parser.complete_store hc h.ok h.body hlim, h.len]
    exact decide_eq_false (by omega)
  · rw [Parser.frame_store hc h.ok h.body hlim, h.frame]

/-- A sync value and a length the parser accepts begin a frame. -/
theorem Parser.accumulated_header {c : Config} {p : Parser} {sync len : Byte} (hc : c.ok) (hp : p.ok c) (hs : sync ∈ c.syncSet)
    (hmin : c.minLen ≤ len.toNat) (hmax : len.toNat ≤ c.maxPkt) :
    ((p.waitSyncStep c sync).readLengthStep c len).Accumulated c len [sync, len] := by
  have hok := Parser.ok_readLengthStep len hc (Parser.ok_waitSyncStep sync hc hp)
  have hwf := Parser.buf_wf hp
  have hwf' := Memory.wf_write 0 sync hwf
  rw [Parser.waitSyncStep, if_pos hs, Parser.readLengthStep, if_neg (by omega)] at hok ⊢
  refine ⟨hok, rfl, rfl, ?_⟩
  calc Memory.slice (Memory.write (Memory.write p.buf 0 sync) 1 len) 0 2
    _ = [Memory.read (Memory.write (Memory.write p.buf 0 sync) 1 len) 0,
          Memory.read (Memory.write (Memory.write p.buf 0 sync) 1 len) 1] := rfl
    _ = [sync, len] := by
      rw [Memory.read_write_ne _ hwf' (by decide), Memory.read_write_self _ _ hwf, Memory.read_write_self _ _ hwf']

section

variable {s : State} (h : s.Inv) (hl : listening s)
include h hl

theorem runAll_header {sync len : Byte} (hw : s.parser.state = .waitSync) (hs : sync ∈ s.cfg.syncSet)
    (hmin : s.cfg.minLen ≤ len.toNat) (hmax : len.toNat ≤ s.cfg.maxPkt) :
    ∃ p, p.Accumulated s.cfg len [sync, len] ∧ runAll ([sync, len].map .rxByte) s = .next (s.fedTo p 2) := by
  refine ⟨_, Parser.accumulated_header h.cfg h.parser hs hmin hmax, ?_⟩
  have hlength : (s.parser.waitSyncStep s.cfg sync).state = .readLength := by rw [Parser.waitSyncStep, if_pos hs]
  have hsecond := exec_rxByte_of_readLength (s := s.fedTo (s.parser.waitSyncStep s.cfg sync) 1) hl hlength len
  exact (runAll_cons (exec_rxByte_of_waitSync hl hw sync) _).trans ((runAll_cons hsecond []).trans
    (congrArg Host.Outcome.next (State.fedTo_succ ..)))

/-- Bytes short of the frame's end accumulate. -/
theorem runAll_body {len : Byte} {f d : List Byte} {p : Parser} {n : Nat} (hp : p.Accumulated s.cfg len f)
    (hlim : f.length + d.length ≤ s.cfg.rxPosLimit) (hopen : f.length + d.length ≤ len.toNat + 1) :
    ∃ q, q.Accumulated s.cfg len (f ++ d) ∧ runAll (d.map .rxByte) (s.fedTo p n) = .next (s.fedTo q (n + d.length)) := by
  induction d generalizing f p n with
  | nil => exact ⟨p, by rwa [List.append_nil], rfl⟩
  | cons b d ih =>
    rw [← List.singleton_append, List.length_append, ← Nat.add_assoc, ← List.length_append] at hlim hopen
    have hfit : f.length + 1 ≤ (f ++ [b]).length + d.length := by rw [List.length_append]; exact Nat.le_add_right ..
    have hnext := hp.store h.cfg (by omega) (by omega) b
    have hstore : exec (.rxByte b) (s.fedTo p n) = .next (s.fedTo (p.store b) (n + 1)) := by
      rw [← State.fedTo_succ s p]
      refine exec_rxByte_stores (State.Inv_fedTo h hp.ok n) hl hp.body ?_ ?_ b
      · rw [State.fedTo_parser, State.fedTo_cfg, hp.pos]; omega
      · rw [State.fedTo_parser, hp.pos, hp.len]; omega
    obtain ⟨q, hq, hrun⟩ := ih (n := n + 1) hnext hlim hopen
    rw [List.append_assoc] at hq
    refine ⟨q, hq, (runAll_cons hstore _).trans (hrun.trans ?_)⟩
    rw [List.length_cons, Nat.add_right_comm, Nat.add_assoc]

end

end Sys2Proof.Machine

section

open Sys2Proof Sys2Proof.Machine

/-- Settles O42: sync value and length begin the frame, the type and the payload accumulate, and the CRC byte completes it. -/
theorem rxWholeFrame : Obligations.RxWholeFrame := by
  intro s sync typ crc d h hl hw hs hmin hmax hlim
  have hmaxPkt : s.cfg.maxPkt ≤ 253 := h.cfg.2.2.2.1
  have hlen : (BitVec.ofNat 8 (d.length + 2)).toNat = d.length + 2 := Nat.mod_eq_of_lt (by omega)
  generalize BitVec.ofNat 8 (d.length + 2) = len at hlen ⊢
  rw [← hlen] at hmin hmax
  obtain ⟨p, hp, hheader⟩ := runAll_header h hl hw hs hmin hmax
  have hcount : 2 + (typ :: d).length = d.length + 3 := Nat.add_comm ..
  obtain ⟨q, hq, hbody⟩ := runAll_body (n := 2) h hl hp (d := typ :: d) (hcount.trans_le (by omega))
    (hcount.trans_le (by omega))
  have hpos : q.pos.toNat = d.length + 3 := by rw [hq.pos, List.length_append]; exact hcount
  have hlast := exec_rxByte_completes (State.Inv_fedTo h hq.ok (2 + (typ :: d).length)) hl hq.body
    (hpos.trans_lt hlim) (by rw [State.fedTo_parser, hq.len]; omega) crc
  rw [State.fedTo_parser, hq.frame, hcount] at hlast
  rw [hcount] at hbody
  refine ⟨(q.store crc).buf, ?_⟩
  rw [show [sync, len, typ] ++ d ++ [crc] = [sync, len] ++ (typ :: d ++ [crc]) from rfl, List.map_append, runAll_append hheader,
    List.map_append, runAll_append hbody, List.map_singleton, runAll_singleton, hlast]
  simp only [State.fedTo, State.respond, PerPort.get_set_self, PerPort.set_set]
  rfl

end
end

section
/-! PROOFS. The frame builders (R162 to R164): which frame each queues as one entry (R161), and which it drops. -/

namespace Sys2Proof.Machine

open Claims

/-- `tx_queue(f)` is one slice push of the entry (R161). -/
theorem State.pushed_txQueue {s : State} (h : s.Inv) (f : List Byte) : Pushed s (queueEntry f) (s.txQueue f).ring :=
  ⟨Ring.pushBytes_of_overflow, Ring.stored_pushBytes h.fifoCap_le h.ring⟩

theorem queueEntry_simpleFrame (poly addr typ : Byte) (d : List Byte) : queueEntry (simpleFrame poly addr typ d) =
    [BitVec.ofNat 8 (d.length + 4), addr, BitVec.ofNat 8 (d.length + 2), typ] ++ d ++ [crc8 poly 0 ([typ] ++ d)] := by
  rw [queueEntry, length_simpleFrame]; rfl

theorem queueEntry_extFrame (poly addr typ dest orig : Byte) (d : List Byte) : queueEntry (extFrame poly addr typ dest orig d) =
    [BitVec.ofNat 8 (d.length + 6), addr, BitVec.ofNat 8 (d.length + 4), typ, dest, orig] ++ d ++
      [crc8 poly 0 ([typ, dest, orig] ++ d)] := by
  rw [queueEntry, length_extFrame]; rfl

/-- The three tests of R164. -/
theorem rawAccepted_iff (c : Config) (d : List Byte) : rawAccepted c d = true ↔
    2 ≤ d.length ∧ (d.getD 1 0).toNat ≤ c.payloadMax ∧ d.length = (d.getD 1 0).toNat + 2 := by
  match d with
  | [] | [_] => simp [rawAccepted]
  | d0 :: d1 :: d => simp [rawAccepted]

end Sys2Proof.Machine

section

open Sys2Proof Sys2Proof.Machine

/-- Settles O43: the frame of R92 is queued as one entry when its size fits the length byte. -/
theorem sendSimple : Obligations.SendSimple := by
  refine ⟨Op.row .txSendSimple, fun s addr typ d h => ⟨fun hbig => if_pos hbig, fun hfit =>
    ⟨(s.txQueue (simpleFrame s.cfg.crcPoly addr typ d)).ring, if_neg (Nat.not_lt.2 hfit), ?_⟩⟩⟩
  rw [← queueEntry_simpleFrame]
  exact State.pushed_txQueue h _

/-- Settles O44: the frame of R93 is queued as one entry when its size fits the length byte. -/
theorem sendExt : Obligations.SendExt := by
  refine ⟨Op.row .txSendExt, fun s addr typ dest orig d h => ⟨fun hbig => if_pos hbig, fun hfit =>
    ⟨(s.txQueue (extFrame s.cfg.crcPoly addr typ dest orig d)).ring, if_neg (Nat.not_lt.2 hfit), ?_⟩⟩⟩
  rw [← queueEntry_extFrame]
  exact State.pushed_txQueue h _

/-- Settles O45: a frame that passes the three tests is queued as it is, and the reasons to drop one are their failures. -/
theorem sendRaw : Obligations.SendRaw := by
  refine ⟨Op.row .txSendRaw, fun s d h => ⟨fun hbad => if_neg ?_, fun hlen hmax hsize =>
    ⟨(s.txQueue d).ring, if_pos ((rawAccepted_iff s.cfg d).2 ⟨hlen, hmax, hsize⟩), State.pushed_txQueue h d⟩⟩⟩
  rw [rawAccepted_iff]
  omega

end
end

section
/-! PROOFS. The drain's loop (R166): the passes of the model's loop are the lines of `DrainLoop`, and its fuel is enough. -/

namespace Sys2Proof.Machine

open Claims

theorem Drain.rem_pos {d : Drain} (h : d.rem ≠ 0) : 0 < d.rem.toNat :=
  Nat.pos_of_ne_zero fun h0 => h (BitVec.eq_of_toNat_eq h0)

/-! ### Starting an entry -/

/-- `TXBUF`, `tx_off` and `tx_rem` with the entry at the head of the queue popped into them (R166). -/
def State.loadedDrain (s : State) : Drain :=
  { buf := Memory.writeBytes s.drain.buf 0
      ((s.ring.pop s.cfg.fifoCap).2.bytes s.cfg.fifoCap (s.ring.pop s.cfg.fifoCap).1.toNat)
    off := 0
    rem := (s.ring.pop s.cfg.fifoCap).1 }

/-- A whole entry is popped out of the queue into `TXBUF`. -/
theorem State.startEntry_of_whole {s : State} {r : Ring} (hrem : s.drain.rem = 0) (hc : s.ring.count ≠ 0)
    (hs : s.ring.skipEntry s.cfg.fifoCap = some r) : s.startEntry = .entry { s with ring := r, drain := s.loadedDrain } := by
  unfold Ring.skipEntry at hs
  split at hs
  · cases hs
  · next hwhole =>
    cases hs
    rw [State.startEntry, if_neg (not_not.2 hrem), if_neg hc]
    exact if_neg hwhole

/-- Below the entry's length `TXBUF` holds what followed the length byte in the queue, from there on what it held. -/
theorem State.read_loadedDrain {s : State} (h : s.Inv) (hc : s.ring.count ≠ 0) (i : Nat) :
    Memory.read s.loadedDrain.buf i =
      if i < s.loadedDrain.rem.toNat then Memory.read s.ring.mem ((s.ring.head.toNat + 1 + i) % s.cfg.fifoCap)
      else Memory.read s.drain.buf i := by
  have hcap : 0 < s.cfg.fifoCap := Nat.zero_lt_of_lt h.ring.2.1
  rw [State.loadedDrain, Memory.read_writeBytes _ _ _ h.drain.2.1, Ring.length_bytes]
  by_cases hi : i < (s.ring.pop s.cfg.fifoCap).1.toNat
  · rw [if_pos (by omega), if_pos hi, List.getD_eq_getElem _ _ (by rw [Ring.length_bytes]; omega), Ring.getElem_bytes,
      Ring.pop_nonempty hc, Ring.drop_head, Ring.drop_mem, toNat_ofNat8_mod hcap h.fifoCap_le, Nat.mod_add_mod, Nat.sub_zero]
  · rw [if_neg (by omega), if_neg hi]

/-! ### The lines of the loop -/

/-- An entry longer than what is queued behind its length byte is reported and the queue flushed. -/
theorem DrainLoop.of_broken {B R w : Nat} {s : State} (h : s.Inv) (hR : R ≠ 0) (hrem : s.drain.rem = 0) (hc : s.ring.count ≠ 0)
    (hs : s.ring.skipEntry s.cfg.fifoCap = none) :
    DrainLoop B R w s w (({ s with ring := s.ring.flush } : State).emit .fifoFraming) := by
  refine .broken R w s hR hrem hc ?_
  rw [Ring.skipEntry, Ring.pop_count_toNat, Ring.pop_of_nonempty h.ring hc] at hs
  by_contra hle
  rw [if_neg hle] at hs
  cases hs

/-- A whole entry is started as `TXBUF` is loaded. -/
theorem DrainLoop.of_whole {B R w w' : Nat} {s s' : State} {r : Ring} (h : s.Inv) (hR : R ≠ 0) (hrem : s.drain.rem = 0)
    (hc : s.ring.count ≠ 0) (hs : s.ring.skipEntry s.cfg.fifoCap = some r)
    (hrest : DrainLoop B R w { s with ring := r, drain := s.loadedDrain } w' s') : DrainLoop B R w s w' s' := by
  have hL : s.loadedDrain.rem = Memory.read s.ring.mem s.ring.head.toNat := by
    rw [State.loadedDrain, Ring.pop_of_nonempty h.ring hc]
  have hwhole : s.loadedDrain.rem.toNat ≤ s.ring.count.toNat - 1 := by
    by_contra hlt
    rw [hL, Nat.not_le] at hlt
    rw [Ring.skipEntry_of_broken h.ring hc hlt] at hs
    cases hs
  obtain ⟨r', hs', hremoved⟩ := Ring.skipEntry_of_whole h.fifoCap_le h.ring hc (hL ▸ hwhole)
  obtain rfl : r = r' := Option.some.inj (hs.symm.trans hs')
  exact .start R w w' s s' _ r _ hR hrem hc hL hwhole (hL ▸ hremoved) (State.read_loadedDrain h hc)
    (Memory.wf_writeBytes _ _ h.drain.2.1) hrest

/-- What writing a chunk leaves, as one state. -/
theorem State.writeChunk_eq {s : State} {n : Nat} (first : Bool) (hn : n ≤ s.drain.rem.toNat) : s.writeChunk n first =
    { s with
      events := s.events ++ (if first = true ∧ s.cfg.halfDuplex = true then [Event.lineTx] else []) ++
        (List.range n).map fun i => Event.txByte (Memory.read s.drain.buf (s.drain.off.toNat + i))
      lineDir := if first = true ∧ s.cfg.halfDuplex = true then .tx else s.lineDir
      drain := { s.drain with
        off := if s.drain.rem.toNat - n = 0 then 0 else BitVec.ofNat 8 (s.drain.off.toNat + n)
        rem := s.drain.rem - BitVec.ofNat 8 n } } := by
  have hrem : BitVec.ofNat 8 (s.drain.rem.toNat - n) = s.drain.rem - BitVec.ofNat 8 n := by
    refine BitVec.eq_of_toNat_eq ?_
    have := s.drain.rem.isLt
    simp only [BitVec.toNat_ofNat, BitVec.toNat_sub]
    omega
  have hframe : DrainFrame s (s.writeChunk n first) := by constructor <;> simp
  rw [hframe.eq_update, State.writeChunk_ring, State.writeChunk_drain, hrem, State.writeChunk_events, State.writeChunk_lineDir,
    Memory.slice, List.map_map, List.append_assoc]
  rfl

/-- A chunk is written as `writeChunk` does. -/
theorem DrainLoop.of_chunk {B R w w' : Nat} {s s' : State} (h : s.Inv) (hR : R ≠ 0) (hrem : s.drain.rem ≠ 0)
    (hnow : ¬(s.drain.off = 0 ∧ B < s.drain.rem.toNat ∧ R < B))
    (hrest : DrainLoop B (R - min s.drain.rem.toNat R) (w + min s.drain.rem.toNat R)
      (s.writeChunk (min s.drain.rem.toNat R) (w == 0)) w' s') : DrainLoop B R w s w' s' := by
  have hn : min s.drain.rem.toNat R ≤ s.drain.rem.toNat := Nat.min_le_left ..
  generalize hmin : min s.drain.rem.toNat R = n at hn hrest
  have hbound := h.drain.1
  rw [State.writeChunk_eq _ hn] at hrest
  simp only [beq_iff_eq] at hrest
  refine .write R w w' n s s' _ hR hrem hnow hmin.symm ?_ hrest
  by_cases hall : s.drain.rem.toNat = n
  · rw [if_pos (by omega), if_pos hall]; rfl
  · rw [if_neg (by omega), if_neg hall, BitVec.toNat_ofNat]
    omega

/-! ### The model's loop -/

/-- A pass with an entry in progress defers it or writes a chunk of it. -/
theorem drainLoop_of_inProgress {B R w fuel : Nat} {s : State} (hR : R ≠ 0) (hrem : s.drain.rem ≠ 0) :
    drainLoop B (fuel + 1) R w s =
      if s.drain.off = 0 ∧ B < s.drain.rem.toNat ∧ R < B then (s, w)
      else drainLoop B fuel (R - min s.drain.rem.toNat R) (w + min s.drain.rem.toNat R)
        (s.writeChunk (min s.drain.rem.toNat R) (w == 0)) := by
  rw [drainLoop_unfold hR, State.startEntry, if_pos hrem]
  exact if_neg hrem

/-- A pass that starts an entry is the loop from the entry in progress: with fuel enough, starting it takes none. -/
theorem drainLoop_of_started {B R w fuel : Nat} {s t : State} (hR : R ≠ 0) (he : s.startEntry = .entry t) (ht : t.Inv)
    (hf : t.ring.count.toNat + R < fuel) : drainLoop B (fuel + 1) R w s = drainLoop B fuel R w t := by
  by_cases hrem : t.drain.rem = 0
  · rw [drainLoop_unfold hR, he]
    exact if_pos hrem
  · rw [drainLoop_fuel (g := fuel + 1) ht.fifoCap_le ht.ring ht.drain hf (Nat.lt_succ_of_lt hf), drainLoop_of_inProgress hR hrem,
      drainLoop_unfold hR, he]
    exact if_neg hrem

/-- Loading `TXBUF` from the queue keeps the invariant. -/
theorem State.Inv_started {s : State} {r : Ring} {d : Drain} (h : s.Inv) (hr : r.ok s.cfg.fifoCap) (hd : d.ok) :
    ({ s with ring := r, drain := d } : State).Inv := ⟨h.cfg, hr, h.parser, hd, h.wdt, h.line⟩

theorem State.Inv_writeChunk {s : State} (h : s.Inv) {n : Nat} (first : Bool) (hn : n ≤ s.drain.rem.toNat) :
    (s.writeChunk n first).Inv := by
  obtain ⟨_, hd, _⟩ := State.writeChunk_inProgress first h.drain hn
  rw [State.writeChunk_eq first hn] at hd ⊢
  exact ⟨h.cfg, h.ring, h.parser, hd, h.wdt, fun hf => by simp [show s.cfg.halfDuplex = false from hf, h.line hf]⟩

/-- `TXBUF` is loaded when an entry is popped. -/
theorem State.eq_loadedDrain {s : State} {r : Ring} {d : Drain} (hrem : s.drain.rem = 0) (hc : s.ring.count ≠ 0)
    (hs : s.ring.skipEntry s.cfg.fifoCap = some r) (he : s.startEntry = .entry { s with ring := r, drain := d }) :
    d = s.loadedDrain := by
  rw [State.startEntry_of_whole hrem hc hs] at he
  injection he with hstate
  exact (congrArg State.drain hstate).symm

/-- With more fuel than bytes queued and budget left, the loop takes the lines of R166 to their end. -/
theorem drainLoop_follows {B R w fuel : Nat} {s : State} (h : s.Inv) (hf : s.ring.count.toNat + R < fuel) :
    DrainLoop B R w s (drainLoop B fuel R w s).2 (drainLoop B fuel R w s).1 := by
  induction fuel generalizing R w s with
  | zero => omega
  | succ fuel ih =>
    by_cases hR : R = 0
    · subst hR; exact .spent w s
    rcases State.startEntry_cases h.fifoCap_le h.ring h.drain with ⟨hrem, _⟩ | ⟨hrem, hc, he⟩ | ⟨hrem, hc, hs, he⟩ |
      ⟨hrem, hc, r, d, he, hs, hd, _⟩
    · rw [drainLoop_of_inProgress hR hrem]
      split
      · next hdefer => exact .defer R w s hR hrem hdefer.1 hdefer.2.1 hdefer.2.2
      · next hnow =>
        have hpos := Drain.rem_pos hrem
        exact DrainLoop.of_chunk h hR hrem hnow
          (ih (State.Inv_writeChunk h _ (Nat.min_le_left ..)) (by rw [State.writeChunk_ring]; omega))
    · rw [drainLoop_unfold hR, he]; exact .idle R w s hR hrem hc
    · rw [drainLoop_unfold hR, he]; exact DrainLoop.of_broken h hR hrem hc hs
    · have hstarted := State.Inv_started h (Ring.ok_skipEntry h.fifoCap_le h.ring hs) hd
      have hless : r.count.toNat + R < fuel := by have := Ring.skipEntry_count hs hc; omega
      rw [drainLoop_of_started hR he hstarted hless]
      obtain rfl := State.eq_loadedDrain hrem hc hs he
      exact DrainLoop.of_whole h hR hrem hc hs (ih hstarted hless)

/-! ### The command -/

/-- The loop of `TX.DRAIN`, from a fresh budget to its end: the state, and how many bytes were written. -/
def State.drained (s : State) : State × Nat :=
  drainLoop s.wdt.maxPeriod.toNat (s.ring.count.toNat + s.wdt.maxPeriod.toNat + 1) s.wdt.maxPeriod.toNat 0 s

theorem exec_txDrain {s : State} (h : s.Inv) :
    exec .txDrain s = .next ((s.drained.1.closePeriod s.drained.2).ok (BitVec.ofNat 32 s.drained.2)) :=
  if_neg (by have := h.drain.1; rw [Config.txBufSize]; omega)

theorem State.drained_run {s : State} (h : s.Inv) : ∃ bytes broken, s.drained.2 = bytes.length ∧
    DrainRun s s.drained.1 s.wdt.maxPeriod.toNat 0 bytes broken := by
  obtain ⟨bytes, broken, hlen, hrun⟩ := drainLoop_run (B := s.wdt.maxPeriod.toNat)
    (fuel := s.ring.count.toNat + s.wdt.maxPeriod.toNat + 1) (R := s.wdt.maxPeriod.toNat) (written := 0) h.fifoCap_le h.ring h.drain
  exact ⟨bytes, broken, hlen.trans (Nat.zero_add _), hrun⟩

theorem State.drained_follows {s : State} (h : s.Inv) :
    DrainLoop s.wdt.maxPeriod.toNat s.wdt.maxPeriod.toNat 0 s s.drained.2 s.drained.1 :=
  drainLoop_follows h (Nat.lt_succ_self _)

theorem State.closePeriod_eq (t : State) (w : Nat) : t.closePeriod w = if w = 0 then t else { t with
    events := t.events ++ closeEvents t.cfg.halfDuplex
    lineDir := if t.cfg.halfDuplex then .rx else t.lineDir } := by
  by_cases hw : w = 0
  · rw [State.closePeriod, if_pos hw, if_pos hw]
  · rw [State.closePeriod, if_neg hw, if_neg hw, State.duplexToRx_eq, State.duplexToRx_events, State.duplexToRx_lineDir,
      State.emit_events, List.append_assoc]
    rfl

end Sys2Proof.Machine

section

open Sys2Proof Sys2Proof.Machine

/-- Settles O46: the fuel of the model's loop is enough to reach the end of the loop of R166, and the close is R197's. -/
theorem drainFollowsLoop : Obligations.DrainFollowsLoop := by
  refine ⟨Op.row .txDrain, fun s h => ⟨s.drained.2, s.drained.1, State.drained_follows h, ?_⟩⟩
  obtain ⟨_, _, _, hrun⟩ := State.drained_run h
  rw [exec_txDrain h, State.closePeriod_eq, hrun.frame.cfg]
  rfl

end
end

section
/-! PROOFS. One period of the drain (R167 (a), (c), R201): what it shows, and that a framing violation empties the queue. -/

namespace Sys2Proof.Machine

open Claims

/-- The loop reports a framing violation only where it leaves the queue emptied. -/
theorem DrainLoop.emptied_or_no_report {B R w w' : Nat} {s t : State} (h : DrainLoop B R w s w' t) :
    t.ring = emptied s.ring ∨ t.events.count .fifoFraming = s.events.count .fifoFraming := by
  induction h with
  | spent | idle | defer => exact .inr rfl
  | broken => exact .inl rfl
  | start R w w' s t L r buf _ _ _ _ _ hremoved _ _ _ ih =>
    have hmem : emptied r = emptied s.ring := by rw [emptied, emptied, hremoved.1]
    exact ih.imp_left (·.trans hmem)
  | write R w w' n s t off _ _ _ _ _ _ ih =>
    refine ih.imp_right (·.trans ?_)
    have hturn : (if w = 0 ∧ s.cfg.halfDuplex = true then [Event.lineTx] else []).count .fifoFraming = 0 := by
      split <;> decide
    have hbytes : ((List.range n).map fun i => Event.txByte (Memory.read s.drain.buf (s.drain.off.toNat + i))).count
        .fifoFraming = 0 := List.count_eq_zero.2 (by simp)
    rw [List.count_append, List.count_append, hturn, hbytes, Nat.add_zero]

theorem count_fifoFraming_drainEvents (turn : Bool) (bytes : List Byte) (broken : Bool) :
    (drainEvents turn bytes broken).count .fifoFraming = if broken then 1 else 0 := by
  have hbytes : (bytes.map Event.txByte).count .fifoFraming = 0 := List.count_eq_zero.2 (by simp)
  rw [drainEvents, List.count_append, List.count_append, hbytes]
  cases turn <;> cases broken <;> rfl

/-- A stretch of the loop that met a broken entry left the queue emptied. -/
theorem DrainRun.emptied_of_broken {B R w w' : Nat} {s t : State} {bytes : List Byte} (h : DrainLoop B R w s w' t)
    (hrun : DrainRun s t R w bytes true) : t.ring = emptied s.ring := by
  refine (DrainLoop.emptied_or_no_report h).resolve_right fun hsame => ?_
  rw [hrun.events, List.count_append, count_fifoFraming_drainEvents] at hsame
  exact absurd hsame (Nat.succ_ne_self _)

end Sys2Proof.Machine

section

open Sys2Proof Sys2Proof.Machine

/-- Settles O47: `DrainRun` says what the loop shows, and the close is added when bytes were written. -/
theorem drainPeriod : Obligations.DrainPeriod := by
  intro s h
  obtain ⟨bytes, broken, hlen, hrun⟩ := State.drained_run h
  refine ⟨bytes, if broken then [.fifoFraming] else [], s.drained.1.ring, s.drained.1.drain, hrun.budget, ?_, hrun.frame.mem, ?_⟩
  · cases broken with
    | false => exact .inl rfl
    | true => exact .inr ⟨rfl, DrainRun.emptied_of_broken (State.drained_follows h) hrun⟩
  · rw [exec_txDrain h, hlen, (hrun.frame.trans (DrainFrame.closePeriod _ _)).eq_update, State.closePeriod_ring,
      Ring.with_mem_eq hrun.frame.mem, State.closePeriod_drain, State.closePeriod_lineDir, State.closePeriod_events, hrun.frame.cfg,
      hrun.line, hrun.events]
    by_cases hb : bytes = [] <;> by_cases hd : s.cfg.halfDuplex = true <;> simp [drainEvents, Claims.closeEvents, State.ok, hb, hd]

end
end

section
/-! PROOFS. The drain on a well-framed queue (R167 (b), (d)): it writes the frames in queue order, whole, the length bytes left out. -/

namespace Sys2Proof.Machine

/-! ### The bytes an event sequence shows -/

/-- The byte an event puts on the line, if it is one that does. -/
def Event.sent : Event → Option Byte
  | .txByte b => some b
  | _ => none

/-- The bytes put on the line, oldest first. -/
def sentBytes (es : List Event) : List Byte := es.filterMap Event.sent

@[simp] theorem sentBytes_append (es fs : List Event) : sentBytes (es ++ fs) = sentBytes es ++ sentBytes fs :=
  List.filterMap_append ..

@[simp] theorem sentBytes_map_txByte (bytes : List Byte) : sentBytes (bytes.map .txByte) = bytes := by
  rw [sentBytes, List.filterMap_map]
  exact List.filterMap_some

theorem sentBytes_writeChunk (s : State) (n : Nat) (first : Bool) :
    sentBytes (s.writeChunk n first).events = sentBytes s.events ++ Memory.slice s.drain.buf s.drain.off.toNat n := by
  rw [State.writeChunk_events, sentBytes_append, sentBytes_append, sentBytes_map_txByte]
  split <;> rfl

theorem sentBytes_closePeriod (s : State) (w : Nat) : sentBytes (s.closePeriod w).events = sentBytes s.events := by
  rw [State.closePeriod_events, sentBytes_append]
  split
  · exact List.append_nil _
  · split <;> exact List.append_nil _

/-! ### What a stretch of the loop sends -/

/-- From `s`, whose queue holds the entries `es`, a stretch of the loop to `t` sent `bytes` and took `k` entries: with what is left they
are all that waited, and if anything waited and the budget `R` was fresh, something was sent. -/
structure Sent (B R : Nat) (s t : State) (es : List (List Byte)) (bytes : List Byte) (k : Nat) : Prop where
  framed : t.framedAs (es.drop k)
  conserved : s.inProgress ++ es.flatten = bytes ++ (t.inProgress ++ (es.drop k).flatten)
  events : sentBytes t.events = sentBytes s.events ++ bytes
  progress : bytes = [] → R < B ∨ R = 0 ∨ s.inProgress ++ es.flatten = []

theorem Sent.nothing {B R : Nat} {s : State} {es : List (List Byte)} (hf : s.framedAs es)
    (hwhy : R < B ∨ R = 0 ∨ s.inProgress ++ es.flatten = []) : Sent B R s s es [] 0 :=
  ⟨hf, rfl, (List.append_nil _).symm, fun _ => hwhy⟩

/-- The next entry was started first. -/
theorem Sent.of_started {B R k : Nat} {s t : State} {r : Ring} {d : Drain} {e bytes : List Byte} {es : List (List Byte)}
    (hrem : s.drain.rem = 0) (he : ({ s with ring := r, drain := d } : State).inProgress = e)
    (h : Sent B R { s with ring := r, drain := d } t es bytes k) : Sent B R s t (e :: es) bytes (k + 1) := by
  have hwaiting : s.inProgress ++ (e :: es).flatten = ({ s with ring := r, drain := d } : State).inProgress ++ es.flatten := by
    rw [he, State.inProgress, hrem]; rfl
  exact ⟨h.framed, hwaiting.trans h.conserved, h.events, hwaiting ▸ h.progress⟩

/-- A chunk was written first. -/
theorem Sent.of_chunk {B R R' n k : Nat} {s t : State} {first : Bool} {bytes : List Byte} {es : List (List Byte)} (hd : s.drain.ok)
    (hn : n ≤ s.drain.rem.toNat) (hpos : 0 < n) (h : Sent B R' (s.writeChunk n first) t es bytes k) :
    Sent B R s t es (Memory.slice s.drain.buf s.drain.off.toNat n ++ bytes) k := by
  obtain ⟨hsplit, _, _⟩ := State.writeChunk_inProgress first hd hn
  refine ⟨h.framed, ?_, ?_, fun hnil => ?_⟩
  · rw [hsplit, List.append_assoc, h.conserved, List.append_assoc]
  · rw [h.events, sentBytes_writeChunk, List.append_assoc]
  · have := congrArg List.length hnil
    rw [List.length_append, Memory.length_slice, List.length_nil] at this
    omega

/-- An empty queue holds no entry. -/
theorem Ring.framedAs.eq_nil_of_empty {C : Nat} {r : Ring} {es : List (List Byte)} (hf : r.framedAs C es) (hc : r.count = 0) :
    es = [] := by
  have hnone : wireOf es = [] := by rw [← hf.1, Ring.queue, hc]; rfl
  cases es with
  | nil => rfl
  | cons e es => rw [wireOf_cons] at hnone; cases hnone

/-- The entry popped from a well-framed queue is its first. -/
theorem State.inProgress_of_started {s : State} {r : Ring} {d : Drain} {e : List Byte} {es : List (List Byte)}
    (hq : s.ring.queue s.cfg.fifoCap = d.rem :: (Memory.slice d.buf 0 d.rem.toNat ++ r.queue s.cfg.fifoCap)) (hoff : d.off = 0)
    (hf : s.framedAs (e :: es)) (hr : r.framedAs s.cfg.fifoCap es) :
    ({ s with ring := r, drain := d } : State).inProgress = e := by
  rw [hf.1, wireOf_cons, queueEntry, List.cons_append, hr.1, List.cons.injEq] at hq
  rw [State.inProgress, hoff]
  exact (List.append_cancel_right hq.2).symm

/-- With fuel enough, what the loop sends on a well-framed queue. -/
theorem drainLoop_sends {B R w fuel : Nat} {s : State} {es : List (List Byte)} (h : s.Inv) (hf : s.framedAs es)
    (hfuel : s.ring.count.toNat + R < fuel) : ∃ bytes k, Sent B R s (drainLoop B fuel R w s).1 es bytes k := by
  induction fuel generalizing R w s es with
  | zero => omega
  | succ fuel ih =>
    by_cases hR : R = 0
    · subst hR; exact ⟨[], 0, Sent.nothing hf (.inr (.inl rfl))⟩
    rcases State.startEntry_cases h.fifoCap_le h.ring h.drain with ⟨hrem, _⟩ | ⟨hrem, hc, he⟩ | ⟨_, hc, hs, _⟩ |
      ⟨hrem, hc, r, d, he, hs, hd, hoff, _, hq⟩
    · rw [drainLoop_of_inProgress hR hrem]
      split
      · next hdefer => exact ⟨[], 0, Sent.nothing hf (.inl hdefer.2.2)⟩
      · have hpos := Drain.rem_pos hrem
        have hn : min s.drain.rem.toNat R ≤ s.drain.rem.toNat := Nat.min_le_left ..
        have hf' : (s.writeChunk (min s.drain.rem.toNat R) (w == 0)).framedAs es := by
          rw [State.framedAs, State.writeChunk_ring, State.writeChunk_cfg]; exact hf
        obtain ⟨bytes, k, hsent⟩ := ih (R := R - min s.drain.rem.toNat R) (w := w + min s.drain.rem.toNat R)
          (State.Inv_writeChunk h _ hn) hf' (by rw [State.writeChunk_ring]; omega)
        exact ⟨_, k, hsent.of_chunk h.drain hn (by omega)⟩
    · have hidle : s.inProgress ++ es.flatten = [] := by
        rw [Ring.framedAs.eq_nil_of_empty hf hc, State.inProgress, hrem]; rfl
      rw [drainLoop_unfold hR, he]
      exact ⟨[], 0, Sent.nothing hf (.inr (.inr hidle))⟩
    · obtain ⟨_, _, _, _, hwhole, _⟩ := Ring.skipEntry_framed h.fifoCap_le h.ring hc hf
      rw [hs] at hwhole; cases hwhole
    · obtain ⟨e, es', r', rfl, hs', _, hf'⟩ := Ring.skipEntry_framed h.fifoCap_le h.ring hc hf
      obtain rfl : r = r' := Option.some.inj (hs.symm.trans hs')
      have hstarted := State.Inv_started h (Ring.ok_skipEntry h.fifoCap_le h.ring hs) hd
      have hless : r.count.toNat + R < fuel := by have := Ring.skipEntry_count hs hc; omega
      rw [drainLoop_of_started hR he hstarted hless]
      obtain ⟨bytes, k, hsent⟩ := ih (w := w) hstarted hf' hless
      exact ⟨bytes, k + 1, hsent.of_started hrem (State.inProgress_of_started hq hoff hf hf')⟩

/-- The close of a period and the response send nothing. -/
theorem Sent.closed {B R k : Nat} {s t : State} {es : List (List Byte)} {bytes : List Byte} (h : Sent B R s t es bytes k) (w : Nat)
    (v : Word32) : Sent B R s ((t.closePeriod w).ok v) es bytes k where
  framed := by simpa only [State.framedAs, State.ok_ring, State.ok_cfg, State.closePeriod_ring, State.closePeriod_cfg] using h.framed
  conserved := by simpa only [State.inProgress, State.ok_drain, State.closePeriod_drain] using h.conserved
  events := by rw [State.ok_events, sentBytes_closePeriod, h.events]
  progress := h.progress

end Sys2Proof.Machine

section

open Sys2Proof Sys2Proof.Machine

/-- Settles O48: what the loop sends from a fresh budget; the close of the period sends nothing. -/
theorem drainSendsInOrder : Obligations.DrainSendsInOrder := by
  intro s es h hf
  obtain ⟨bytes, k, hloop⟩ := drainLoop_sends (B := s.wdt.maxPeriod.toNat) (R := s.wdt.maxPeriod.toNat) (w := 0) h hf
    (Nat.lt_succ_self _)
  have hsent := hloop.closed s.drained.2 (BitVec.ofNat 32 s.drained.2)
  refine ⟨_, bytes, k, exec_txDrain h, hsent.framed, hsent.conserved, hsent.events, fun hnil => ?_⟩
  obtain hless | hzero | hnone := hsent.progress hnil
  · exact absurd hless (Nat.lt_irrefl _)
  · exact .inl (BitVec.eq_of_toNat_eq hzero)
  · exact .inr hnone

end
end

section
/-! PROOFS. The watchdog's commands (R181 to R189): what the list and the budget registers hold, and what each
of the three outcomes of a check does. -/

namespace Sys2Proof.Machine

/-! ### The baud list and the budgets (R184) -/

/-- An index below `NBAUD` is one of the list. -/
theorem Config.baud_of_lt {c : Config} {i : Nat} (hi : i < c.nbaud) : c.baud[i]? = some (c.baud.getD i 0) := by
  rw [List.getElem?_eq_getElem hi, List.getD_eq_getElem _ _ hi]

/-- Budget registers loaded with budgets that fit them hold those budgets. -/
theorem budget_eq_registers {c : Config} {baud us p k : Nat} (hb : budget c baud us = some (p, k)) (hp : p ≤ 256) (hk : k ≤ 256) :
    budget c baud us = some ((BitVec.ofNat 9 p).toNat, (BitVec.ofNat 9 k).toNat) := by
  rw [toNat_ofNat9 (by omega), toNat_ofNat9 (by omega), hb]

/-! ### The check (R181 to R183) -/

theorem State.checkDue_iff {s : State} {t : Word32} : s.checkDue t = true ↔ s.cfg.wdtIntervalMs ≤ (t - s.wdt.last).toNat :=
  decide_eq_true_iff

theorem exec_wdtTick_of_early {s : State} {t : Word32} (hd : (t - s.wdt.last).toNat < s.cfg.wdtIntervalMs) :
    exec (.wdtTick t) s = .next (s.ok 0) :=
  if_neg (by rw [State.checkDue_iff]; omega)

theorem exec_wdtTick_of_passed {s : State} {t : Word32} (hd : s.cfg.wdtIntervalMs ≤ (t - s.wdt.last).toNat)
    (hg : s.link.bad.toNat < s.link.good.toNat) : exec (.wdtTick t) s = .next ((s.restartInterval t).ok 0) :=
  (if_pos (State.checkDue_iff.2 hd)).trans (if_neg (Nat.not_le.2 hg))

/-- A failed check rotates to the next index of the list. -/
theorem exec_wdtTick_of_failed {s : State} {t : Word32} (h : s.Inv) (hd : s.cfg.wdtIntervalMs ≤ (t - s.wdt.last).toNat)
    (hg : s.link.good.toNat ≤ s.link.bad.toNat) :
    ∃ i baud p k, i < s.cfg.nbaud ∧ p ≤ 256 ∧ k ≤ 256 ∧ i = (s.wdt.baudIdx.toNat + 1) % s.cfg.nbaud ∧ s.cfg.baud[i]? = some baud ∧
      budget s.cfg baud.toNat s.wdt.rcInterval.toNat = some (p, k) ∧
      exec (.wdtTick t) s = .next (((s.rotate i baud (p, k)).restartInterval
        (t - BitVec.ofNat 32 (3 * (s.cfg.wdtIntervalMs / 4)))).ok 1) := by
  obtain ⟨hearly, _⟩ | ⟨_, hpassed, _⟩ | ⟨_, _, p, k, hi, hp, hk, hb, he⟩ := execWdtTick_cases t h.cfg h.wdt
  · exact absurd hearly (by simp [State.checkDue_iff.2 hd])
  · exact absurd hg (Nat.not_le.2 hpassed)
  · exact ⟨_, _, p, k, hi, hp, hk, rfl, Config.baud_of_lt hi, hb, he⟩

end Sys2Proof.Machine

section

open Sys2Proof Sys2Proof.Machine

/-- Settles O50: a legal baud list has at most 8 entries and budgets are at most 256, so the registers hold what the rotation gives. -/
theorem wdtTick : Obligations.WdtTick := by
  refine ⟨Op.row .wdtTick, fun s t h => ⟨exec_wdtTick_of_early, exec_wdtTick_of_passed, fun hd hg => ?_⟩⟩
  obtain ⟨i, baud, p, k, hi, hp, hk, hnext, hbaud, hb, he⟩ := exec_wdtTick_of_failed h hd hg
  obtain ⟨_, _, _, _, _, _, _, hn, _⟩ := h.cfg
  have hidx : (BitVec.ofNat 3 i).toNat = i := Nat.mod_eq_of_lt (by omega)
  refine ⟨BitVec.ofNat 3 i, baud, BitVec.ofNat 9 p, BitVec.ofNat 9 k, by rw [hidx, hnext], by rw [hidx, hbaud],
    budget_eq_registers hb hp hk, ?_⟩
  rw [he, State.rotate_spec]
  rfl

/-- Settles O51: the baud index stays, so the new budgets are those of the baud in force. -/
theorem wdtSetInterval : Obligations.WdtSetInterval := by
  refine ⟨Op.row .wdtSetInterval, fun s t h => ?_⟩
  obtain ⟨hout, he⟩ | ⟨hlow, hhigh, p, k, hp, hk, hb, he⟩ := execWdtSetInterval_cases t h.cfg h.wdt
  · exact ⟨fun _ => he, fun _ _ => by omega⟩
  · refine ⟨fun _ => by omega, fun _ _ => ⟨_, BitVec.ofNat 9 p, BitVec.ofNat 9 k, Config.baud_of_lt h.wdt.1,
      budget_eq_registers hb hp hk, ?_⟩⟩
    rw [exec, he, Watchdog.withBudget, BitVec.ofNat_toNat, BitVec.setWidth_eq]
    rfl

/-- Settles O49: in the range of the interval `1000000 / us` is at least 1. -/
theorem budgetFormula : Obligations.BudgetFormula :=
  ⟨fun _ _ _ h1 h2 => ⟨if_neg (by omega), Nat.div_pos h2 h1⟩, fun _ _ _ h => if_pos h, by decide, by decide⟩

/-- Settles O52: each budget stands in its own half of the answer; the baud index lies in the list. -/
theorem wdtReads : Obligations.WdtReads := by
  refine ⟨Op.row .wdtRdBudget, Op.row .wdtRdBaud, fun s => ⟨_, rfl, ?_, ?_⟩, fun s h =>
    ⟨_, Config.baud_of_lt h.wdt.1, execWdtRdBaud_ok h.wdt⟩⟩
  · rw [BitVec.extractLsb'_append_eq_right]
    exact BitVec.toNat_setWidth_of_le (by decide)
  · rw [BitVec.extractLsb'_append_eq_left]
    exact BitVec.toNat_setWidth_of_le (by decide)

end
end

section
/-! PROOFS. The testable property of the watchdog (R190): each failed check adds 1 to the baud index, modulo the length of the list. -/

namespace Sys2Proof.Machine

open Claims

/-- The failed checks of a run are those of its first command and those of the rest. -/
theorem failedChecks_cons {i : Instr} {s t : State} (he : exec i s = .next t) (is : List Instr) :
    failedChecks (i :: is) s = failedChecks [i] s + failedChecks is t := by
  simp only [failedChecks, he, Nat.add_zero]

theorem failedChecks_wdtTick {now : Word32} {s t : State} (he : exec (.wdtTick now) s = .next t) :
    failedChecks [.wdtTick now] s =
      if s.cfg.wdtIntervalMs ≤ (now - s.wdt.last).toNat ∧ s.link.good.toNat ≤ s.link.bad.toNat then 1 else 0 := by
  simp only [failedChecks, he, Nat.add_zero]

/-- Only `WDT.TICK` makes a check. -/
theorem failedChecks_eq_zero {i : Instr} {s t : State} (hi : i.op ≠ .wdtTick) (he : exec i s = .next t) : failedChecks [i] s = 0 := by
  simp only [failedChecks, he, Nat.add_zero]
  split
  · exact absurd rfl hi
  · rfl

theorem eq_wdtTick_of_op {i : Instr} (hi : i.op = .wdtTick) : ∃ now, i = .wdtTick now :=
  match i, hi with
  | .wdtTick now, _ => ⟨now, rfl⟩

/-- A check that is not due, or is passed, leaves the index; a failed one moves it to the next. -/
theorem exec_wdtTick_baudIdx {now : Word32} {s t : State} (h : s.Inv) (he : exec (.wdtTick now) s = .next t) :
    t.wdt.baudIdx.toNat = (s.wdt.baudIdx.toNat + failedChecks [.wdtTick now] s) % s.cfg.nbaud := by
  obtain ⟨_, hticks⟩ := wdtTick
  obtain ⟨hearly, hpassed, hfailed⟩ := hticks s now h
  rw [failedChecks_wdtTick he]
  by_cases hd : s.cfg.wdtIntervalMs ≤ (now - s.wdt.last).toNat
  · by_cases hg : s.link.good.toNat ≤ s.link.bad.toNat
    · obtain ⟨i, _, _, _, hi, _, _, hrotated⟩ := hfailed hd hg
      cases hrotated.symm.trans he
      rw [if_pos (And.intro hd hg)]
      exact hi
    · cases (hpassed hd (Nat.not_le.1 hg)).symm.trans he
      rw [if_neg fun hfail => hg hfail.2]
      exact (Nat.mod_eq_of_lt h.wdt.1).symm
  · cases (hearly (Nat.not_le.1 hd)).symm.trans he
    rw [if_neg fun hfail => hd hfail.1]
    exact (Nat.mod_eq_of_lt h.wdt.1).symm

/-- One command advances the baud index by its failed checks. -/
theorem exec_baudIdx {i : Instr} {s t : State} (h : s.Inv) (he : exec i s = .next t) :
    t.wdt.baudIdx.toNat = (s.wdt.baudIdx.toNat + failedChecks [i] s) % s.cfg.nbaud := by
  by_cases hi : i.op = .wdtTick
  · obtain ⟨now, rfl⟩ := eq_wdtTick_of_op hi
    exact exec_wdtTick_baudIdx h he
  · obtain ⟨_, _, _, _, _, _, hwdt, _⟩ := writersOfRegisters i s t h he
    obtain ⟨hidx, _⟩ := hwdt hi
    rw [hidx, failedChecks_eq_zero hi he]
    exact (Nat.mod_eq_of_lt h.wdt.1).symm

end Sys2Proof.Machine

section

open Sys2Proof Sys2Proof.Machine

/-- Settles O53, by induction on the commands: each keeps the invariant and the baud list. -/
theorem baudIndexCountsFailures : Obligations.BaudIndexCountsFailures := by
  intro is
  induction is with
  | nil =>
    rintro s _ h ⟨⟩
    exact (Nat.mod_eq_of_lt h.wdt.1).symm
  | cons i is ih =>
    intro s t h hrun
    cases he : exec i s with
    | next u =>
      rw [runAll_cons he] at hrun
      obtain ⟨hcfg, _⟩ := writersOfRegisters i s u h he
      rw [ih u t (exec_inv h he) hrun, failedChecks_cons he, exec_baudIdx h he, hcfg, Nat.mod_add_mod, Nat.add_assoc]
    | fault f | refused r => simp [Claims.runAll, he] at hrun

end
end

section
/-! PROOFS. The duplex scheduler (R196 to R201): which commands leave the line transmitting, and which events a command emits on a half-duplex
and on a full-duplex line. -/

namespace Sys2Proof.Machine

open Claims

/-! ### The direction after a command (R201) -/

/-- A drain that writes and a rotation close with the line receiving, so `DUPLEX.TX` alone can turn a line that was not transmitting. -/
theorem exec_lineDir {i : Instr} {s t : State} (h : s.Inv) (he : exec i s = .next t) :
    t.lineDir = .rx ∨ t.lineDir = s.lineDir ∨ i = .duplexTx := by
  cases i with
  | duplexTx => exact .inr (.inr rfl)
  | duplexRx =>
    cases he
    rw [State.ok_lineDir, State.duplexToRx_lineDir]
    exact (ite_eq_or_eq ..).imp_right .inl
  | txDrain =>
    obtain ⟨_, _, _, _, _, _, _, hx⟩ := drainPeriod s h
    cases hx.symm.trans he
    exact (ite_eq_or_eq ..).imp_right .inl
  | wdtTick now =>
    obtain ⟨_, hx⟩ | ⟨_, _, hx⟩ | ⟨_, _, _, _, _, _, _, _, hx⟩ := execWdtTick_cases now h.cfg h.wdt <;> cases hx.symm.trans he
    · exact .inr (.inl rfl)
    · exact .inr (.inl rfl)
    · rw [State.ok_lineDir, State.restartInterval_lineDir, State.rotate_lineDir]
      exact (ite_eq_or_eq ..).imp_right .inl
  | _ =>
    obtain ⟨_, _, _, _, _, _, _, _, _, hkept, _⟩ := writersOfRegisters _ s t h he
    exact .inr (.inl (hkept (by simp [Instr.op])))

/-! ### The events of a command (R222, R200) -/

/-- The commands that emit an event on a half-duplex or a full-duplex line: those of R222, where on a full-duplex line no command turns the
direction (R200), so that only the parser and the rotation ask for a discard. -/
def emittersOn : Bool → Event → List Op
  | false, .lineTx | false, .lineRx => []
  | false, .rxDiscard => [.rxByte, .wdtTick]
  | _, e => emitters e

/-- From `s` to `t` a command of opcode `o` appended events, each of them one it may emit. -/
def Emitted (o : Op) (s t : State) : Prop :=
  ∃ es, t.events = s.events ++ es ∧ ∀ e ∈ es, o ∈ emittersOn s.cfg.halfDuplex e

theorem Emitted.nothing {o : Op} {s t : State} (h : t.events = s.events) : Emitted o s t :=
  ⟨[], by rw [h, List.append_nil], nofun⟩

theorem Ring.ensure_events {C n : Nat} {r : Ring} (hC : C ≤ 256) (h : r.ok C) :
    (r.ensure C n).2.2 = [] ∨ (r.ensure C n).2.2 = [.fifoFraming] := by
  unfold Ring.ensure
  split
  · exact .inl rfl
  · next hn =>
    obtain ⟨_, _, _, hevents⟩ := Ring.ensureLoop_post hC (Nat.le_of_not_lt hn) h
    exact hevents.imp_right And.left

theorem exec_fifoEnsure_emitted {n : BitVec 16} {s t : State} (h : s.Inv) (he : exec (.fifoEnsure n) s = .next t) :
    Emitted .fifoEnsure s t := by
  cases he
  refine ⟨_, rfl, fun e hmem => ?_⟩
  obtain hev | hev := Ring.ensure_events (n := n.toNat) h.fifoCap_le h.ring <;> rw [hev] at hmem
  · cases hmem
  · rw [List.mem_singleton.1 hmem]; simp [emittersOn, emitters]

theorem Built.emitted {d : List Byte} {s t : State} {o : Op} (hb : Built d s t) (ho : o ∈ emitters .txDrop) : Emitted o s t := by
  obtain hev | hev := hb.events
  · exact .nothing hev
  · exact ⟨_, hev, by simpa [emittersOn] using ho⟩

theorem State.finishFrame_emitted (s : State) : Emitted .rxByte s s.finishFrame := by
  rw [State.finishFrame_spec]
  split
  · refine ⟨_, rfl, ?_⟩
    cases s.link.connected <;> simp [emittersOn, emitters]
  · refine ⟨_, rfl, ?_⟩
    cases s.cfg.halfDuplex <;> simp [emittersOn, emitters]

theorem exec_rxByte_emitted {b : Byte} {s t : State} (h : s.Inv) (he : exec (.rxByte b) s = .next t) : Emitted .rxByte s t := by
  obtain hx | ⟨p, _, hx⟩ | ⟨_, _, _, hx⟩ := execRxByte_cases b h.cfg h.parser <;> cases hx.symm.trans he
  · exact .nothing rfl
  · exact .nothing rfl
  · exact State.finishFrame_emitted { s with parser := s.parser.store b }

/-- The close of a period turns a half-duplex line alone (R197). -/
theorem closeEvents_emitted (halfDuplex : Bool) : ∀ e ∈ closeEvents halfDuplex, .txDrain ∈ emittersOn halfDuplex e := by
  cases halfDuplex <;> simp [closeEvents, emittersOn, emitters]

/-- A drain shows the bytes between the turns of a half-duplex line; on a full-duplex line it shows no turn and asks for no discard. -/
theorem exec_txDrain_emitted {s t : State} (h : s.Inv) (he : exec .txDrain s = .next t) : Emitted .txDrain s t := by
  obtain ⟨bytes, framing, _, _, _, hframing, _, hx⟩ := drainPeriod s h
  cases hx.symm.trans he
  have hturn : ∀ e ∈ if s.cfg.halfDuplex = true ∧ bytes ≠ [] then [Event.lineTx] else [], .txDrain ∈ emittersOn s.cfg.halfDuplex e := by
    cases s.cfg.halfDuplex <;> simp [emittersOn, emitters]
  have hbytes : ∀ e ∈ bytes.map Event.txByte, .txDrain ∈ emittersOn s.cfg.halfDuplex e := by
    simp [emittersOn, emitters]
  have hreport : ∀ e ∈ framing, .txDrain ∈ emittersOn s.cfg.halfDuplex e := by
    obtain rfl | ⟨rfl, _⟩ := hframing <;> simp [emittersOn, emitters]
  have hclose : ∀ e ∈ if bytes = [] then [] else closeEvents s.cfg.halfDuplex, .txDrain ∈ emittersOn s.cfg.halfDuplex e := by
    split
    · nofun
    · exact closeEvents_emitted s.cfg.halfDuplex
  refine ⟨_, by simp only [State.respond_events, List.append_assoc]; rfl, ?_⟩
  simp only [List.forall_mem_append]
  exact ⟨hturn, hbytes, hreport, hclose⟩

/-- A rotation asks for a discard on either line and turns a half-duplex line to receive (R182). -/
theorem exec_wdtTick_emitted {now : Word32} {s t : State} (h : s.Inv) (he : exec (.wdtTick now) s = .next t) :
    Emitted .wdtTick s t := by
  obtain ⟨_, hx⟩ | ⟨_, _, hx⟩ | ⟨_, _, _, _, _, _, _, _, hx⟩ := execWdtTick_cases now h.cfg h.wdt <;> cases hx.symm.trans he
  · exact .nothing rfl
  · exact .nothing rfl
  · refine ⟨_, State.rotate_events .., ?_⟩
    cases s.link.connected <;> cases s.cfg.halfDuplex <;> simp [emittersOn, emitters]

/-- Every command appends its events to the sequence, and only events it may emit on its line. -/
theorem exec_emitted {i : Instr} {s t : State} (h : s.Inv) (he : exec i s = .next t) : Emitted i.op s t := by
  cases i with
  | fifoEnsure n => exact exec_fifoEnsure_emitted h he
  | rxByte b => exact exec_rxByte_emitted h he
  | txSendSimple addr typ d => exact (execTxSendSimple_built he).emitted (by simp [emitters, Instr.op])
  | txSendExt addr typ dest orig d => exact (execTxSendExt_built he).emitted (by simp [emitters, Instr.op])
  | txSendRaw d => exact (execTxSendRaw_built h.cfg he).emitted (by simp [emitters, Instr.op])
  | txDrain => exact exec_txDrain_emitted h he
  | wdtTick now => exact exec_wdtTick_emitted h he
  | duplexTx =>
    cases he
    refine ⟨_, State.duplexToTx_events s, ?_⟩
    cases s.cfg.halfDuplex <;> simp [emittersOn, emitters, Instr.op]
  | duplexRx =>
    cases he
    refine ⟨_, State.duplexToRx_events s, ?_⟩
    cases s.cfg.halfDuplex <;> simp [emittersOn, emitters, Instr.op]
  | fifoPush b | fifoPushBytes d | fifoPop | fifoFlush => cases he; exact .nothing rfl
  | _ => exact .nothing (by rw [exec_written h he]; rfl)

end Sys2Proof.Machine

section

open Sys2Proof Sys2Proof.Machine

/-- Settles O55: the invariant holds a full-duplex line receiving, before the command and after it, and `emittersOn` gives no command
the events that turn it. -/
theorem fullDuplexNeverTurns : Obligations.FullDuplexNeverTurns := by
  intro i s t h hfull he
  obtain ⟨hcfg, _⟩ := writersOfRegisters i s t h he
  refine ⟨fun hdeaf => by simp [hfull] at hdeaf, (exec_inv h he).line (by rw [hcfg, hfull]), fun e hmem => ?_⟩
  obtain ⟨es, hes, hemit⟩ := exec_emitted h he
  rw [hes, List.drop_left] at hmem
  have ho := hemit e hmem
  rw [hfull] at ho
  refine ⟨?_, ?_, fun hdrain => ?_⟩ <;> rintro rfl
  · simp [emittersOn] at ho
  · simp [emittersOn] at ho
  · simp [emittersOn, hdrain] at ho

/-- Settles O56: a command that does not leave the line as it found it or receiving is `DUPLEX.TX`. -/
theorem onlyDuplexTxTurns : Obligations.OnlyDuplexTxTurns := by
  intro i s t h he htx
  obtain hrx | hkept | hi := exec_lineDir h he
  · simp [hrx] at htx
  · exact .inr (hkept.symm.trans htx)
  · exact .inl hi

/-- Settles O54: both commands are the procedures of R196 and R197 and an answer. -/
theorem duplexCommands : Obligations.DuplexCommands :=
  ⟨Op.row .duplexTx, Op.row .duplexRx, fun _ => ⟨rfl, rfl⟩⟩

end
end

section
/-! PROOFS. The guard, stop and status commands (R206 to R211); the fields of the status word. -/

namespace Sys2Proof.Machine

open Laws

/-! ### The fields of the status word (R211), from the high end down -/

theorem State.statusWord_txOff (s : State) : s.statusWord.extractLsb' 24 8 = s.drain.off := high_part

theorem State.statusWord_txRem (s : State) : s.statusWord.extractLsb' 16 8 = s.drain.rem := below (by decide) high_part

theorem State.statusWord_rxPos (s : State) : s.statusWord.extractLsb' 8 8 = s.parser.pos :=
  below (by decide) (below (by decide) high_part)

theorem State.statusWord_baudIdx (s : State) : s.statusWord.extractLsb' 5 3 = s.wdt.baudIdx :=
  below (by decide) (below (by decide) (below (by decide) high_part))

/-- The parser's state and the three flags stand together in the low five bits. -/
theorem State.statusWord_field_low {s : State} {k n : Nat} {x : BitVec n} (h : k + n ≤ 5)
    (e : (s.parser.state.code ++ (s.lineDir.code ++ (BitVec.ofBool s.lock ++ BitVec.ofBool s.link.connected))).extractLsb' k n = x) :
    s.statusWord.extractLsb' k n = x :=
  below (by omega) (below (by omega) (below (by omega) (below (by omega) e)))

theorem State.statusWord_rxState (s : State) : s.statusWord.extractLsb' 3 2 = s.parser.state.code :=
  State.statusWord_field_low (by decide) high_part

/-- A bit of a word is the one bit of the field of width 1 at its place. -/
theorem getLsbD_of_field {n k : Nat} {v : BitVec n} {x : BitVec 1} (h : v.extractLsb' k 1 = x) : v.getLsbD k = x.getLsbD 0 := by
  rw [← h, BitVec.getLsbD_extractLsb', Nat.add_zero, decide_eq_true Nat.one_pos, Bool.true_and]

theorem LineDir.code_getLsbD_zero (d : LineDir) : d.code.getLsbD 0 = true ↔ d = .tx := by cases d <;> decide

theorem State.statusWord_lineDir (s : State) : s.statusWord.getLsbD 2 = true ↔ s.lineDir = .tx := by
  have hfield : s.statusWord.extractLsb' 2 1 = s.lineDir.code := State.statusWord_field_low (by decide) (below (by decide) high_part)
  rw [getLsbD_of_field hfield, LineDir.code_getLsbD_zero]

theorem State.statusWord_lock (s : State) : s.statusWord.getLsbD 1 = s.lock :=
  (getLsbD_of_field (State.statusWord_field_low (by decide) (below (by decide) (below (by decide) high_part)))).trans
    (BitVec.getLsbD_ofBool ..)

theorem State.statusWord_connected (s : State) : s.statusWord.getLsbD 0 = s.link.connected :=
  (getLsbD_of_field (State.statusWord_field_low (by decide) (below (by decide) (below (by decide) low_part)))).trans
    (BitVec.getLsbD_ofBool ..)

end Sys2Proof.Machine

section

open Sys2Proof Sys2Proof.Machine

/-- Settles O60: the answer is the status word, which holds each field at its place; `RxState.code` is the table's encoding of `rx_state`. -/
theorem statusRead : Obligations.StatusRead := by
  refine ⟨Op.row .sysRdStatus, fun s => ⟨s.statusWord, rfl, s.statusWord_connected, s.statusWord_lock, s.statusWord_lineDir, ?_,
    s.statusWord_baudIdx, s.statusWord_rxPos, s.statusWord_txRem, s.statusWord_txOff⟩⟩
  rw [State.statusWord_rxState]
  cases s.parser.state <;> rfl

/-- Settles O57: each command writes its constant to `lock`, without reading it, and answers. -/
theorem lockAndUnlock : Obligations.LockAndUnlock :=
  ⟨Op.row .sysLock, Op.row .sysUnlock, fun _ => ⟨rfl, rfl⟩⟩

/-- Settles O58: `State.stopped` clears what R208 lists, with the flush of the queue and the reset of the parser, and the command answers. -/
theorem stop : Obligations.Stop :=
  ⟨Op.row .sysStop, fun _ => rfl⟩

/-- Settles O59: each command answers its counter over the state as it was. -/
theorem counterReads : Obligations.CounterReads :=
  ⟨Op.row .sysRdGood, Op.row .sysRdBad, fun _ => ⟨rfl, rfl⟩⟩

end
end

section
/-! PROOFS. The connection edges (R224): every command shows an edge exactly where it changes the flag, in the flag's direction. -/

namespace Sys2Proof.Machine

/-! ### Edges of an event sequence -/

/-- The edges of a longer sequence go on from the flag that the shorter one leaves. -/
theorem linkEdges_append (c : Bool) (es fs : List Event) :
    linkEdges c (es ++ fs) = (linkEdges c es).bind (linkEdges · fs) := by
  induction es generalizing c with
  | nil => rfl
  | cons e es ih =>
    cases e with
    | connected => cases c with
      | false => exact ih true
      | true => rfl
    | disconnected => cases c with
      | false => rfl
      | true => exact ih false
    | _ => exact ih c

theorem linkEdges_of_no_edge {c : Bool} {es : List Event} (h : ∀ e ∈ es, e ≠ .connected ∧ e ≠ .disconnected) :
    linkEdges c es = some c := by
  induction es with
  | nil => rfl
  | cons e es ih =>
    obtain ⟨⟨hup, hdown⟩, hes⟩ := List.forall_mem_cons.1 h
    cases e with
    | connected => exact absurd rfl hup
    | disconnected => exact absurd rfl hdown
    | _ => exact ih hes

/-- The events appended from `s` to `t` have the edges that lead the flag of `s` to that of `t`. -/
def EdgesFollow (s t : State) : Prop :=
  ∃ es, t.events = s.events ++ es ∧ linkEdges s.link.connected es = some t.link.connected

theorem EdgesFollow.unchanged {s t : State} (hev : t.events = s.events) (hc : t.link.connected = s.link.connected) :
    EdgesFollow s t := ⟨[], by rw [hev, List.append_nil], by rw [hc]; rfl⟩

theorem EdgesFollow.edgesOk {s t : State} (h : EdgesFollow s t) (hs : s.edgesOk) : t.edgesOk := by
  obtain ⟨es, hev, hedges⟩ := h
  rw [State.edgesOk, hev, linkEdges_append, hs]
  exact hedges

/-! ### Commands -/

/-- A good frame shows `EV_CONNECTED` where the link was down (R148). -/
theorem State.finishFrame_edgesFollow (s : State) : EdgesFollow s s.finishFrame := by
  rw [State.finishFrame_spec]
  split
  · refine ⟨_, rfl, ?_⟩
    cases s.link.connected <;> rfl
  · exact ⟨_, rfl, rfl⟩

theorem exec_rxByte_edgesFollow {b : Byte} {s t : State} (h : s.Inv) (he : exec (.rxByte b) s = .next t) : EdgesFollow s t := by
  obtain hx | ⟨p, _, hx⟩ | ⟨_, _, _, hx⟩ := execRxByte_cases b h.cfg h.parser <;> cases hx.symm.trans he
  · exact .unchanged rfl rfl
  · exact .unchanged rfl rfl
  · exact State.finishFrame_edgesFollow { s with parser := s.parser.store b }

/-- A rotation shows `EV_DISCONNECTED` where the link was up (R182). -/
theorem State.rotate_edgesFollow (s : State) (i : Nat) (baud : Word32) (b : Nat × Nat) : EdgesFollow s (s.rotate i baud b) := by
  refine ⟨_, State.rotate_events .., ?_⟩
  rw [State.rotate_link]
  cases s.link.connected <;> cases s.cfg.halfDuplex <;> rfl

theorem exec_wdtTick_edgesFollow {now : Word32} {s t : State} (h : s.Inv) (he : exec (.wdtTick now) s = .next t) :
    EdgesFollow s t := by
  obtain ⟨_, hx⟩ | ⟨_, _, hx⟩ | ⟨_, _, p, k, _, _, _, _, hx⟩ := execWdtTick_cases now h.cfg h.wdt <;> cases hx.symm.trans he
  · exact .unchanged rfl rfl
  · exact .unchanged rfl rfl
  · exact s.rotate_edgesFollow ..

/-- `EV_CONNECTED` comes from `RX.BYTE` alone and `EV_DISCONNECTED` from `WDT.TICK` alone (R222). -/
theorem not_edge_of_mem_emittersOn {o : Op} {halfDuplex : Bool} {e : Event} (ho : o ∉ [Op.rxByte, .wdtTick])
    (he : o ∈ emittersOn halfDuplex e) : e ≠ .connected ∧ e ≠ .disconnected := by
  constructor <;> rintro rfl <;> exact ho (by simp_all [emittersOn, Claims.emitters])

/-- Every other command emits no edge and leaves the flag. -/
theorem exec_edgesFollow {i : Instr} {s t : State} (h : s.Inv) (he : exec i s = .next t) : EdgesFollow s t := by
  by_cases ho : i.op ∈ [Op.rxByte, .wdtTick]
  · cases i with
    | rxByte b => exact exec_rxByte_edgesFollow h he
    | wdtTick now => exact exec_wdtTick_edgesFollow h he
    | _ => simp [Instr.op] at ho
  · obtain ⟨_, _, _, _, hconnected, _⟩ := writersOfRegisters i s t h he
    obtain ⟨es, hev, hemit⟩ := exec_emitted h he
    refine ⟨es, hev, ?_⟩
    rw [hconnected ho]
    exact linkEdges_of_no_edge fun e hmem => not_edge_of_mem_emittersOn ho (hemit e hmem)

theorem Took.edgesFollow {p : Port} {v t : State} (h : v.Inv) (ht : Took p v t) : EdgesFollow v t := by
  obtain ⟨w, rest, _, _, rfl⟩ | ⟨i, rest, _, _, he⟩ := ht
  · exact ⟨_, rfl, rfl⟩
  · exact exec_edgesFollow (s := v.serve p rest) (State.Inv_serve p rest h) he

/-- Selecting a port shows nothing and leaves the flag. -/
theorem State.edgesOk_select {s u : State} {p : Port} (h : s.edgesOk) (hs : s.selectPort = some (p, u)) : u.edgesOk := by
  obtain rfl | rfl := State.selectPort_eq hs <;> exact h

end Sys2Proof.Machine

section

open Sys2Proof Sys2Proof.Machine

/-- Settles O20: selecting a port and misreading what it presents show no event; a command taken shows the edges its change of the flag
asks for. -/
theorem connectionEdgesAlternate : Obligations.ConnectionEdgesAlternate := by
  intro s t h he hedges
  obtain rfl | ⟨p, u, hs, hcase⟩ := step_cases he
  · exact hedges
  have hu := State.Inv_select h hs
  have hedges' := State.edgesOk_select hedges hs
  obtain htook | ⟨_, rfl | htook⟩ := hcase
  · exact (htook.edgesFollow hu).edgesOk hedges'
  · exact hedges'
  · exact (htook.edgesFollow (State.Inv_misread p hu)).edgesOk hedges'

end
end

section
/-! PROOFS. Completion (R220), the event table (R222), and what the environment does between two steps (R225, R250). -/

namespace Sys2Proof.Machine

/-! ### Completion -/

/-- From a state that meets the invariant no command stops. -/
theorem exec_total (i : Instr) {s : State} (h : s.Inv) : ∃ t, exec i s = .next t := by
  cases i with
  | fifoPopBytes n =>
    obtain hn | hn := le_or_gt n.toNat s.ring.count.toNat
    · exact ⟨_, exec_fifoPopBytes_of_le hn⟩
    · exact ⟨_, exec_fifoPopBytes_of_underrun hn⟩
  | rxByte b =>
    obtain hx | ⟨_, _, hx⟩ | ⟨_, _, _, hx⟩ := execRxByte_cases b h.cfg h.parser <;> exact ⟨_, hx⟩
  | txSendSimple addr typ d => exact ⟨_, (apply_ite Host.Outcome.next ..).symm⟩
  | txSendExt addr typ dest orig d => exact ⟨_, (apply_ite Host.Outcome.next ..).symm⟩
  | txSendRaw d => exact ⟨_, (apply_ite Host.Outcome.next ..).symm⟩
  | txDrain => exact ⟨_, exec_txDrain h⟩
  | wdtTick now =>
    obtain ⟨_, hx⟩ | ⟨_, _, hx⟩ | ⟨_, _, _, _, _, _, _, _, hx⟩ := execWdtTick_cases now h.cfg h.wdt <;> exact ⟨_, hx⟩
  | wdtSetInterval us =>
    obtain ⟨_, hx⟩ | ⟨_, _, _, _, _, _, _, hx⟩ := execWdtSetInterval_cases us h.cfg h.wdt <;> exact ⟨_, hx⟩
  | wdtRdBaud => exact ⟨_, execWdtRdBaud_ok h.wdt⟩
  | _ => exact ⟨_, rfl⟩

/-! ### The event table -/

/-- On a line of either kind a command emits no more than R222 lists. -/
theorem mem_emitters_of_mem_emittersOn {o : Op} {halfDuplex : Bool} {e : Event} (h : o ∈ emittersOn halfDuplex e) :
    o ∈ Claims.emitters e := by
  unfold emittersOn at h
  split at h
  · cases h
  · cases h
  · simp only [Claims.emitters, List.mem_cons] at h ⊢; tauto
  · exact h

/-! ### The environment -/

/-- The invariant says nothing of what the ports present and of how many free values were drawn. -/
theorem State.Inv_environment {s : State} (h : s.Inv) (pend : PerPort (List PortItem)) (draws : Nat) :
    ({ s with pend := pend, draws := draws } : State).Inv :=
  ⟨h.cfg, h.ring, h.parser, h.drain, h.wdt, h.line⟩

end Sys2Proof.Machine

section

open Sys2Proof Sys2Proof.Machine

/-- Settles O16: no command stops, and each answers once on the active port. -/
theorem everyCommandCompletes : Obligations.EveryCommandCompletes := by
  intro i s h
  obtain ⟨t, he⟩ := exec_total i h
  obtain ⟨x, _, hresp⟩ := exec_answered h he
  refine ⟨t, x, he, ?_, fun p hp => ?_⟩
  · rw [hresp, PerPort.get_set_self]
  · rw [hresp, PerPort.get_set_ne _ _ _ _ hp]

/-- Settles O19: a command emits only what `emittersOn` gives it on its line, which R222 lists; the codes are those of `Event.code`. -/
theorem eventTable : Obligations.EventTable := by
  refine ⟨fun i s t h he e hmem => ?_, fun _ _ _ _ => rfl⟩
  obtain ⟨es, hev, hemit⟩ := exec_emitted h he
  rw [hev, List.drop_left] at hmem
  exact mem_emitters_of_mem_emittersOn (hemit e hmem)

/-- Settles O23: each move writes what the ports present, and a reset every register at its reset value; what is dropped are the `k` items
after those shown. -/
theorem environmentMoves : Obligations.EnvironmentMoves := by
  refine ⟨fun s p items h => ⟨State.Inv_environment h .., PerPort.get_set_self ..⟩, fun s shown k h => ?_,
    fun s h => ⟨State.Inv_environment (State.Inv_resetWith h.cfg) .., rfl⟩⟩
  refine ⟨State.Inv_environment h .., rfl, rfl, rfl, (s.pend.r.drop shown).take k, ?_, List.length_take_le .., rfl⟩
  rw [← List.drop_drop, List.take_append_drop, List.take_append_drop]

end
end

section
/-! PROOFS. The history (R221): every operation commutes with putting a history before the events, so none of them reads it. -/

namespace Sys2Proof.Machine

/-- `s` with the history `before` put before its events. -/
def State.preceded (before : List Event) (s : State) : State := { s with events := before ++ s.events }

/-- An outcome with the history `before` put before the events of its next state. -/
def precededResult (before : List Event) : Result → Result
  | .next t => .next (t.preceded before)
  | .fault f => .fault f
  | .refused r => .refused r

/-- What starting an entry finds, with the history `before` put before its events. -/
def DrainStart.preceded (before : List Event) : DrainStart → DrainStart
  | .idle => .idle
  | .broken t => .broken (t.preceded before)
  | .entry t => .entry (t.preceded before)

variable (before : List Event)

@[simp] theorem State.preceded_cfg (s : State) : (s.preceded before).cfg = s.cfg := rfl
@[simp] theorem State.preceded_ring (s : State) : (s.preceded before).ring = s.ring := rfl
@[simp] theorem State.preceded_parser (s : State) : (s.preceded before).parser = s.parser := rfl
@[simp] theorem State.preceded_drain (s : State) : (s.preceded before).drain = s.drain := rfl
@[simp] theorem State.preceded_wdt (s : State) : (s.preceded before).wdt = s.wdt := rfl

/-- A choice made alike on both sides commutes with `f` where its branches do. -/
theorem ite_commutes {α β : Type} {c : Prop} [Decidable c] (f : α → β) {x y : α} {x' y' : β} (hx : x' = f x) (hy : y' = f y) :
    (if c then x' else y') = f (if c then x else y) := by
  rw [apply_ite f, hx, hy]

/-! ### Operations -/

theorem State.emits_preceded (s : State) (es : List Event) : (s.preceded before).emits es = (s.emits es).preceded before := by
  simp [State.emits, State.preceded]

theorem State.emit_preceded (s : State) (e : Event) : (s.preceded before).emit e = (s.emit e).preceded before :=
  s.emits_preceded before [e]

theorem State.linkDown_preceded (s : State) : (s.preceded before).linkDown = s.linkDown.preceded before :=
  ite_commutes _ (State.emit_preceded before { s with link := { s.link with connected := false } } _) rfl

theorem State.duplexToTx_preceded (s : State) : (s.preceded before).duplexToTx = s.duplexToTx.preceded before :=
  ite_commutes _ (State.emit_preceded before { s with lineDir := .tx } _) rfl

theorem State.duplexToRx_preceded (s : State) : (s.preceded before).duplexToRx = s.duplexToRx.preceded before :=
  ite_commutes _ (State.emits_preceded before { s with lineDir := .rx } _) rfl

theorem State.rearmReceive_preceded (s : State) : (s.preceded before).rearmReceive = s.rearmReceive.preceded before := by
  unfold State.rearmReceive
  rw [← State.emit_preceded]
  exact congrArg (State.emit · .rxDiscard) (ite_commutes _ (State.emit_preceded before { s with lineDir := .rx } _) rfl)

theorem State.rotate_preceded (s : State) (i : Nat) (baud : Word32) (b : Nat × Nat) :
    (s.preceded before).rotate i baud b = (s.rotate i baud b).preceded before := by
  unfold State.rotate
  rw [← State.rearmReceive_preceded, ← State.emits_preceded, State.linkDown_preceded]
  rfl

theorem State.finishFrame_preceded (s : State) : (s.preceded before).finishFrame = s.finishFrame.preceded before := by
  rw [State.finishFrame_spec, State.finishFrame_spec]
  exact ite_commutes _
    (congrArg (fun es => ({ s with parser := _, link := _, events := es, resp := _ } : State)) (List.append_assoc ..))
    (congrArg (fun es => ({ s with parser := _, link := _, events := es, resp := _ } : State)) (List.append_assoc ..))

theorem State.txDropped_preceded (s : State) : (s.preceded before).txDropped = s.txDropped.preceded before :=
  congrArg (State.ok · 0) (s.emit_preceded before .txDrop)

/-! ### The drain -/

theorem State.startEntry_preceded (s : State) : (s.preceded before).startEntry = s.startEntry.preceded before :=
  ite_commutes _ rfl <| ite_commutes _ rfl <|
    ite_commutes _ (congrArg DrainStart.broken (State.emit_preceded before { s with ring := _ } .fifoFraming)) rfl

theorem State.writeChunk_preceded (s : State) (w : Nat) (first : Bool) :
    (s.preceded before).writeChunk w first = (s.writeChunk w first).preceded before := by
  have hturn : (if first then (s.preceded before).duplexToTx else s.preceded before) =
      (if first then s.duplexToTx else s).preceded before := ite_commutes _ (s.duplexToTx_preceded before) rfl
  unfold State.writeChunk
  simp only [hturn, State.emits_preceded]
  rfl

theorem drainLoop_preceded (B fuel R written : Nat) (s : State) :
    drainLoop B fuel R written (s.preceded before) = (drainLoop B fuel R written s).map (State.preceded before) id := by
  induction fuel generalizing R written s with
  | zero => rfl
  | succ fuel ih =>
    by_cases hR : R = 0
    · rw [drainLoop, drainLoop, if_pos hR, if_pos hR]; rfl
    rw [drainLoop_unfold hR, drainLoop_unfold hR, State.startEntry_preceded]
    cases s.startEntry with
    | idle => rfl
    | broken t => rfl
    | entry t =>
      exact ite_commutes _ (ih ..) <| ite_commutes _ rfl <| by
        rw [State.preceded_drain, State.writeChunk_preceded]
        exact ih ..

theorem State.closePeriod_preceded (s : State) (written : Nat) :
    (s.preceded before).closePeriod written = (s.closePeriod written).preceded before :=
  ite_commutes _ rfl (by rw [State.emit_preceded, State.duplexToRx_preceded])

/-! ### Commands -/

theorem State.readBodyStep_preceded (b : Byte) (s : State) :
    (s.preceded before).readBodyStep b = precededResult before (s.readBodyStep b) :=
  ite_commutes _ rfl <| ite_commutes _ rfl <|
    ite_commutes _ (congrArg Host.Outcome.next (State.finishFrame_preceded before { s with parser := _ })) rfl

theorem execRxByte_preceded (b : Byte) (s : State) :
    execRxByte b (s.preceded before) = precededResult before (execRxByte b s) := by
  refine ite_commutes _ rfl ?_
  rw [State.preceded_parser]
  cases s.parser.state with
  | waitSync | readLength => rfl
  | readBody => exact s.readBodyStep_preceded before b

theorem execTxDrain_preceded (s : State) : execTxDrain (s.preceded before) = precededResult before (execTxDrain s) := by
  refine ite_commutes _ rfl ?_
  simp only [State.preceded_wdt, State.preceded_ring, drainLoop_preceded, Prod.map_fst, Prod.map_snd, State.closePeriod_preceded]
  rfl

theorem execWdtTick_preceded (now : Word32) (s : State) :
    execWdtTick now (s.preceded before) = precededResult before (execWdtTick now s) := by
  refine ite_commutes _ (ite_commutes _ ?_ rfl) rfl
  simp only [State.preceded_cfg, State.preceded_wdt, State.rotate_preceded]
  split <;> rfl

theorem execFifoPopBytes_preceded (n : BitVec 16) (s : State) :
    execFifoPopBytes n (s.preceded before) = precededResult before (execFifoPopBytes n s) := by
  unfold execFifoPopBytes
  simp only [State.preceded_cfg, State.preceded_ring]
  split <;> rfl

theorem execWdtSetInterval_preceded (us : Word32) (s : State) :
    execWdtSetInterval us (s.preceded before) = precededResult before (execWdtSetInterval us s) := by
  refine ite_commutes _ rfl ?_
  rw [State.preceded_cfg, State.preceded_wdt]
  split <;> rfl

theorem execWdtRdBaud_preceded (s : State) : execWdtRdBaud (s.preceded before) = precededResult before (execWdtRdBaud s) := by
  unfold execWdtRdBaud
  simp only [State.preceded_cfg, State.preceded_wdt]
  split <;> rfl

/-- No command reads the history (R221). -/
theorem exec_preceded (i : Instr) (s : State) : exec i (s.preceded before) = precededResult before (exec i s) := by
  cases i with
  | fifoPopBytes n => exact execFifoPopBytes_preceded before n s
  | fifoEnsure n => exact congrArg (fun t : State => Host.Outcome.next (t.ok _)) (State.emits_preceded before { s with ring := _ } _)
  | rxByte b => exact execRxByte_preceded before b s
  | txSendSimple addr typ d => exact ite_commutes _ (congrArg Host.Outcome.next (s.txDropped_preceded before)) rfl
  | txSendExt addr typ dest orig d => exact ite_commutes _ (congrArg Host.Outcome.next (s.txDropped_preceded before)) rfl
  | txSendRaw d => exact ite_commutes _ rfl (congrArg Host.Outcome.next (s.txDropped_preceded before))
  | txDrain => exact execTxDrain_preceded before s
  | wdtTick now => exact execWdtTick_preceded before now s
  | wdtSetInterval us => exact execWdtSetInterval_preceded before us s
  | wdtRdBaud => exact execWdtRdBaud_preceded before s
  | duplexTx => exact congrArg (fun t : State => Host.Outcome.next (t.ok 0)) (s.duplexToTx_preceded before)
  | duplexRx => exact congrArg (fun t : State => Host.Outcome.next (t.ok 0)) (s.duplexToRx_preceded before)
  | _ => rfl

end Sys2Proof.Machine

section

open Sys2Proof Sys2Proof.Machine

/-- Settles O18: the run from the empty history fixes what the command appends; from any other history it is the same run with that
history before it. -/
theorem historyOnlyAppended : Obligations.HistoryOnlyAppended := by
  intro i s t _ he
  have hruns (before : List Event) : exec i { s with events := before } = precededResult before (exec i { s with events := [] }) := by
    rw [← exec_preceded, State.preceded, List.append_nil]
  have hs := he.symm.trans (hruns s.events)
  cases hx : exec i { s with events := [] } with
  | next u =>
    rw [hx] at hs
    cases hs
    exact ⟨u.events, rfl, fun before => by rw [hruns, hx]; rfl⟩
  | fault | refused => rw [hx] at hs; cases hs

end
end

section
/-! PROOFS. A step with nothing ready (R250), and a data beat where a command word is due (R262). -/

namespace Sys2Proof.Machine

/-! ### A step with nothing ready -/

theorem step_of_none_ready {s : State} (h : ∀ p, s.ready p = false) : step s = .next s := by
  have hnone : s.selectPort = none := (arbitration.1 s).2 h
  simp only [step, State.runStep, hnone]

/-- After reset no port presents anything (R250, log 1). -/
theorem State.pend_get_reset (p : Port) : State.reset.pend.get p = [] := by
  cases p <;> rfl

/-! ### What a port does with each kind of item presented -/

/-- A word that the port accepts, and of which the decoder reads no command, awaits its beats (R85). -/
theorem presented_of_not_decoded {p : Port} {w : CmdWord} {rest : List PortItem} (ha : acceptsCode p (CmdWord.op w) = true)
    (hd : ∀ x, decode (.word w :: rest) ≠ .ok x) : presented p (.word w :: rest) = .waiting := by
  cases hx : decode (.word w :: rest) with
  | ok x => exact absurd hx (hd x)
  | error e => simp [presented, ha, hx]

theorem State.runPresented_of_illegal {ex : Instr → State → Result} {v : State} {p : Port} {op : Byte} {rest : List PortItem}
    (h : presented p (v.pend.get p) = .illegal op rest) : v.runPresented ex p = .next ((v.serve p rest).illegalCommand op) := by
  simp only [State.runPresented, h]

theorem State.runPresented_of_command {ex : Instr → State → Result} {v : State} {p : Port} {i : Instr} {rest : List PortItem}
    (h : presented p (v.pend.get p) = .command i rest) : v.runPresented ex p = ex i (v.serve p rest) := by
  simp only [State.runPresented, h]

theorem State.runPresented_of_waiting {ex : Instr → State → Result} {v : State} {p : Port}
    (h : presented p (v.pend.get p) = .waiting) : v.runPresented ex p = .next v := by
  simp only [State.runPresented, h]

/-! ### Misreading -/

theorem State.selectPort_events {s t : State} {p : Port} (h : s.selectPort = some (p, t)) : t.events = s.events := by
  rcases State.selectPort_eq h with rfl | rfl <;> rfl

/-- The selected port misreads a stray beat, and then runs what that is misread as (R262). -/
theorem step_of_stray {s t : State} {p : Port} {b : Byte} {rest : List PortItem} (hs : s.selectPort = some (p, t))
    (h : s.pend.get p = .beat b :: rest) : step s = (t.misread p).runPresented exec p := by
  have hstray : presented p (t.pend.get p) = .stray := by
    rw [State.selectPort_pend hs]; exact presented_stray.2 ⟨b, rest, h⟩
  simp only [step, State.runStep, hs, State.runPort, hstray]

/-- A misread replaces what the port presents and draws once (log 11). -/
theorem State.misread_eq (s : State) (p : Port) :
    ∃ w items, s.misread p = { s.drawn 1 with pend := s.pend.set p (.word w :: items) } :=
  ⟨_, _, rfl⟩

/-- Serving a port after it misread takes away what it presented before as well as what that was misread as. -/
theorem State.misread_serve (s : State) (p : Port) (rest : List PortItem) :
    (s.misread p).serve p rest = (s.drawn 1).serve p rest := by
  simp only [State.serve, State.misread, PerPort.set_set]
  rfl

/-! ### No step stops -/

/-- Under the invariant a port completes whatever it presents. -/
theorem State.runPresented_total {v : State} (h : v.Inv) (p : Port) : ∃ t, v.runPresented exec p = .next t := by
  unfold State.runPresented
  split
  · exact ⟨_, rfl⟩
  · exact ⟨_, rfl⟩
  · exact ⟨_, rfl⟩
  · exact ⟨_, rfl⟩
  · exact exec_total _ (State.Inv_serve p _ h)

/-- Under the invariant a port completes what it presents, misread or not. -/
theorem State.runPort_total {v : State} (h : v.Inv) (p : Port) : ∃ t, v.runPort exec p = .next t := by
  unfold State.runPort
  split
  · exact State.runPresented_total (State.Inv_misread p h) p
  all_goals exact State.runPresented_total h p

/-- From a state that meets the invariant no step stops (R220). -/
theorem step_total {s : State} (h : s.Inv) : ∃ t, step s = .next t := by
  unfold step State.runStep
  split
  · exact ⟨s, rfl⟩
  · next p u hs => exact State.runPort_total (State.Inv_select h hs) p

end Sys2Proof.Machine

section

open Sys2Proof Sys2Proof.Machine

/-- Settles O12: the step runs the free word and items that the beat is misread as, and the three clauses are the kinds of what that
word presents. -/
theorem strayBeatMisread : Obligations.StrayBeatMisread := by
  refine ⟨fun s t p b rest hs hbeat => ?_, fun s h => step_total h⟩
  rw [step_of_stray hs hbeat, ← State.selectPort_pend hs, ← State.selectPort_events hs]
  obtain ⟨w, items, hmis⟩ := t.misread_eq p
  have hget : (t.misread p).pend.get p = .word w :: items := by rw [hmis]; exact PerPort.get_set_self ..
  refine ⟨w, items, fun ha => ?_, fun i items' hd ha => ?_, fun ha hno => ?_⟩
  · rw [State.runPresented_of_illegal (hget ▸ presented_of_not_accepted items ha), State.misread_serve]
    rfl
  · rw [State.runPresented_of_command (hget ▸ presented_command hd ha), State.misread_serve]
    rfl
  · rw [State.runPresented_of_waiting (hget ▸ presented_of_not_decoded ha hno), hmis]
    rfl

/-- Settles O11: with no port ready none is selected, and after reset every port is empty. -/
theorem idleStep : Obligations.IdleStep :=
  ⟨fun _ h => step_of_none_ready h,
    step_of_none_ready fun p => State.ready_eq_false_of_pend_nil (State.pend_get_reset p)⟩

end
end
